-- ==== Sys2Proof/Word.lean ====
section
/-!
DEFINITION. Sys2Proof/Word.lean: the widths the spec moves (`00_scope.md` R7, R8, R88).
Byte-order and bit-field helpers stand in Sys2Proof/Machine/Operands.lean and Sys2Proof/Decode.lean.
-/
namespace Sys2Proof

/-- A byte, an unsigned integer 0..255 (R8). -/
abbrev Byte := BitVec 8

/-- A 16-bit quantity: opcode major, length registers, CKSUM range, host addresses (R7, R80). -/
abbrev Half := BitVec 16

/-- A 32-bit host word, moved whole (R88). -/
abbrev Word := BitVec 32

/-- A schema field's 3-bit type tag (R118, R119). -/
abbrev Tag := BitVec 3

end Sys2Proof
end

