-- ==== Sys2Proof/Config.lean ====
section
/-!
DEFINITION. Sys2Proof/Config.lean: what an implementation fixes (R7, R66) and the free values
(`93_implementation_defined.md`, sections 1 and 5).
-/
namespace Sys2Proof

/-- One entry of a descriptor's field list: a name id and a type tag (R66, R119, R121). -/
structure Field where
  /-- Name id, 0..255. -/
  name : BitVec 8
  /-- Type tag, 0..7; FCV never rejects a schema, so the reserved tags may stand here (R66). -/
  tag : Tag
deriving DecidableEq, Repr

/-- One descriptor of the schema (R66). -/
structure Descriptor where
  /-- MAJOR: configuration data for the host, read by no command (R68). -/
  major : Half
  /-- MINOR: configuration data for the host, read by no command (R68). -/
  minor : BitVec 8
  /-- REQ, the ordered request list. -/
  req : List Field
  /-- RESP: `none` is the sentinel NONE, which is not the empty list (R122). -/
  resp : Option (List Field)
deriving DecidableEq, Repr

/-- The parameters of an FCV (R7, R66): SCHEMA with NDESC its length, and MAX_FIELDS. -/
structure Params where
  /-- SCHEMA, indexed 0..NDESC-1. -/
  schema : List Descriptor
  /-- MAX_FIELDS - 1: MAX_FIELDS is a positive integer of at most 512 (R7, R81). -/
  lastField : Fin 512
deriving DecidableEq, Repr, Inhabited

/-- MAX_FIELDS (R7). -/
def Params.maxFields (p : Params) : Nat := p.lastField.val + 1

/-- NDESC (R66). -/
def Params.ndesc (p : Params) : Nat := p.schema.length

/-- A single response type is the one-entry list with the anonymous name 0xFF (R67). -/
def Descriptor.singleType (tag : Tag) : Option (List Field) := some [⟨0xFF, tag⟩]

/-- The parameters of the machine that is reset: any (R7, R66; log entry 3). -/
opaque Config.implementation : Params

/-- The byte a buffer address holds after the reset numbered by the first argument, until something
writes it: a free parameter of the launch (R322; log entry 4). -/
opaque Config.launchByte : Nat → Nat → Byte

/-- What a host read of an unspecified word returns (R59, R84, R85; log entry 6). -/
opaque Config.freeWord : Nat → Word

end Sys2Proof
end

