-- ==== Sys2Proof/Syntax.lean ====
section
/-!
DEFINITION. Sys2Proof/Syntax.lean: the instructions, one constructor for each row of
spec/opcode_table.json (R126): the ten command words of R104 and the ten field element operations
of `42_field_codec.md`. No row has an operand field (R106: no command word carries an immediate).
-/
namespace Sys2Proof

/-- The rows of the opcode table, in its order. -/
inductive Instr where
  /-- CKSUM with BSEL = 0 (R142). -/
  | cksumIbuf
  /-- CKSUM with BSEL = 1 (R142). -/
  | cksumObuf
  /-- CKSUM with BSEL = 2 (R142). -/
  | cksumPbuf
  /-- Build the frame envelope (R160). -/
  | fenv
  /-- Build a request command frame (R161). -/
  | fenc
  /-- Extract the fixed-offset fields (R162). -/
  | fext
  /-- Validate a response frame (R163). -/
  | fval
  /-- Copy the declared payload (R165). -/
  | pslice
  /-- Encode the request fields (R221). -/
  | fldenc
  /-- Decode the response fields (R227). -/
  | flddec
  /-- Tag 0 in a request list (R222). -/
  | packU8
  /-- Tag 1 in a request list (R223). -/
  | packU16
  /-- Tag 2 in a request list (R224). -/
  | packU32
  /-- Tag 5 in a request list (R225). -/
  | packUnixtime
  /-- Tag 0 in a response list (R228). -/
  | unpackU8
  /-- Tag 1 in a response list (R230). -/
  | unpackU16
  /-- Tag 2 in a response list (R231). -/
  | unpackU32
  /-- Tag 3 in a response list (R229). -/
  | unpackBool
  /-- Tag 4 in a response list (R233). -/
  | unpackAscii
  /-- Tag 5 in a response list (R232). -/
  | unpackUnixtime
deriving DecidableEq, Repr

/-- Where a type tag is met: the opcode table's "context" column (R126). -/
inductive ListSide where
  /-- A request list, walked by FLDENC. -/
  | request
  /-- A response list, walked by FLDDEC. -/
  | response
deriving DecidableEq, Repr

/-- The two formats of the opcode table: a 32-bit command word (R100) or a 3-bit type tag (R119)
met on one side of a descriptor. -/
inductive Encoding where
  /-- Format CMD32. -/
  | command (word : Word)
  /-- Format TYPETAG3. -/
  | element (side : ListSide) (tag : Tag)
deriving DecidableEq, Repr

/-- The three fields of a command word (R101). -/
structure CmdFields where
  /-- Bits 7:0, the operation code. -/
  op : BitVec 8
  /-- Bits 9:8, the buffer select. -/
  bsel : BitVec 2
  /-- Bits 31:10, reserved. -/
  rsv : BitVec 22
deriving DecidableEq, Repr

/-- Why the decoder rejects an encoding (R105, R118). -/
inductive DecodeReject where
  /-- OP = 0x00 or OP at least 0x09. -/
  | reservedOp (op : BitVec 8)
  /-- A bit of 31:10 is set. -/
  | reservedBits (rsv : BitVec 22)
  /-- BSEL = 3 with OP = CKSUM. -/
  | reservedBsel
  /-- BSEL not 0 with another OP. -/
  | bselWithoutCksum (bsel : BitVec 2)
  /-- Tag 6 or 7 (R118). -/
  | reservedTag (tag : Tag)
  /-- BOOL or ASCII in a request list (R226). -/
  | noPackOperation (tag : Tag)
deriving DecidableEq, Repr

end Sys2Proof
end

