-- ==== Sys2Proof/Machine/State.lean ====
section
/-!
DEFINITION. Sys2Proof/Machine/State.lean: everything the spec gives the machine (`10_state.md`), as
plain data, the state after reset (R71, R320 to R323), and the reasons a step can stop.
-/
namespace Sys2Proof.Machine

/-- Why the machine stops with a fault. -/
inductive Fault where
  /-- Raised by a host access to an address outside every window of R81 (`93_implementation_defined.md`
  section 4: the spec defines no outcome). Safe: the machine stops where the spec says nothing. -/
  | unmappedAddress (address : Half)
deriving DecidableEq, Repr

/-- Why the machine refuses a host action. -/
inductive Refusal where
  /-- An instruction without a meaning; no arm raises it. Safe: nothing is claimed of it. -/
  | notModelled (mnemonic : String)
  /-- Raised by a word access to the REG, PARAM or FIELD window at an address that is no multiple of 4
  (R82, R307). Safe: the spec lets a model refuse a host that breaks this duty. -/
  | misalignedAccess (address : Half)
  /-- Raised by an access whose width is not the window's unit (R81 to R83, R307). Safe: the spec lets
  a model refuse a host that breaks this duty. -/
  | wrongWidth (address : Half)
deriving DecidableEq, Repr

/-- The error codes of R281, but for NONE. -/
inductive ErrorCode where
  /-- R282. -/
  | illegalCmd
  /-- R283. -/
  | notConfigured
  /-- R284. -/
  | badLength
  /-- R285. -/
  | badRange
  /-- R286. -/
  | encodingError
  /-- R287. -/
  | shortFrame
  /-- R288. -/
  | truncatedPayload
  /-- R289. -/
  | unknownCommand
  /-- R290. -/
  | missingParameter
  /-- R291. -/
  | schemaError
  /-- R292. -/
  | fieldRange
  /-- R293. -/
  | lengthMismatch
  /-- R294. -/
  | bufferOverflow
  /-- R295. -/
  | charsetError
deriving DecidableEq, Repr

/-- One raised error: its code and its information word (R12, R281). -/
structure Raise where
  /-- The error. -/
  error : ErrorCode
  /-- ERRINFO. -/
  info : Word
deriving DecidableEq, Repr

/-- The assigned bits of STATUS (R33). -/
inductive StatusBit where
  /-- Some command raised an error since reset. -/
  | esticky
  /-- CHAN written. -/
  | chanV
  /-- OPMAJ written. -/
  | opMajV
  /-- OPMIN written. -/
  | opMinV
  /-- ECHAN written. -/
  | eChanV
  /-- ELINK written. -/
  | eLinkV
  /-- DSEL written. -/
  | dSelV
  /-- CKS_START written. -/
  | cksSV
  /-- CKS_END written. -/
  | cksEV
  /-- CKR holds a checksum result. -/
  | ckrV
  /-- F_HDR0..F_TRL hold an extraction. -/
  | fxV
  /-- VSTAT holds a validation result. -/
  | vV
  /-- DRES, FIELD and STRBUF hold a decode. -/
  | dV
deriving DecidableEq, Repr

/-- The argument registers that can be unwritten (R283). -/
inductive ArgReg where
  /-- CHAN, register 4 (R37). -/
  | chan
  /-- OPMAJ, register 5 (R38). -/
  | opMaj
  /-- OPMIN, register 6 (R39). -/
  | opMin
  /-- ECHAN, register 7 (R40). -/
  | eChan
  /-- ELINK, register 8 (R41). -/
  | eLink
  /-- DSEL, register 9 (R42). -/
  | dSel
  /-- CKS_START, register 10 (R43). -/
  | cksStart
  /-- CKS_END, register 11 (R44). -/
  | cksEnd
deriving DecidableEq, Repr

/-- The four byte buffers (R60 to R63). -/
inductive Buf where
  /-- The inbound frame buffer (R60). -/
  | ibuf
  /-- The outbound frame buffer (R61). -/
  | obuf
  /-- The payload buffer (R62). -/
  | pbuf
  /-- The string buffer (R63). -/
  | strbuf
deriving DecidableEq, Repr

/-- One host action on FCV's port (R306). -/
inductive HostAction where
  /-- A write of one 32-bit word (REG, PARAM and FIELD windows, R82). -/
  | writeWord (address : Half) (value : Word)
  /-- A read of one 32-bit word. -/
  | readWord (address : Half)
  /-- A write of one byte (buffer windows, R83). -/
  | writeByte (address : Half) (value : Byte)
  /-- A read of one byte. -/
  | readByte (address : Half)
  /-- An access of any other width, which a host never makes (R82, R83). -/
  | otherWidth (address : Half)
  /-- Assert reset (R320). -/
  | reset
deriving DecidableEq, Repr

/-- One PARAM entry (R64). -/
structure ParamEntry where
  /-- PRESENT. -/
  present : Bool
  /-- VALUE. -/
  value : Word
deriving DecidableEq, Repr

/-- One FIELD entry (R65). -/
structure FieldEntry where
  /-- NAME. -/
  name : BitVec 8
  /-- TYPE. -/
  type : Tag
  /-- VALUE. -/
  value : Word
deriving DecidableEq, Repr

/-- The working values of the field walk inside FLDENC and FLDDEC: the operands and results of the
element operations (R222 to R233). R70: they exist only within one atomic step. -/
structure Walk where
  /-- The descriptor index d. -/
  desc : Half
  /-- The name id n of the field in hand. -/
  name : BitVec 8
  /-- The value v: what a pack operation takes, what an unpack operation returns. -/
  value : Word
  /-- The bytes packed so far. -/
  out : List Byte
  /-- The payload offset off. -/
  off : Nat
  /-- The string s of UNPACK_ASCII. -/
  str : List Byte
deriving DecidableEq, Repr

/-- The walk before its first field (R221, R227: out empty, off 0, slen 0). -/
def Walk.start (d : Half) : Walk :=
  { desc := d, name := 0, value := 0, out := [], off := 0, str := [] }

/-- The machine's state. The last five fields are the MODEL's own (INVENTORY.md, State). -/
structure State where
  /-- SCHEMA, NDESC and MAX_FIELDS: configuration, changed by no step (R66, R325). -/
  params : Params
  /-- CMD, register 0 (R34). -/
  cmd : Word
  /-- ERR, register 1, bits 7:0 (R35). -/
  err : Byte
  /-- ERRINFO, register 2 (R36). -/
  errInfo : Word
  /-- STATUS, register 3 (R33). -/
  status : Word
  /-- CHAN, register 4 (R37). -/
  chan : Word
  /-- OPMAJ, register 5 (R38). -/
  opMaj : Half
  /-- OPMIN, register 6 (R39). -/
  opMin : Byte
  /-- ECHAN, register 7 (R40). -/
  eChan : Word
  /-- ELINK, register 8 (R41). -/
  eLink : Byte
  /-- DSEL, register 9 (R42). -/
  dSel : Half
  /-- CKS_START, register 10 (R43). -/
  cksStart : Half
  /-- CKS_END, register 11 (R44). -/
  cksEnd : Half
  /-- CKR, register 12, bits 7:0 (R45). -/
  ckr : Byte
  /-- ILEN, register 13 (R46). -/
  iLen : Half
  /-- OLEN, register 14 (R47). -/
  oLen : Half
  /-- PLEN, register 15 (R48). -/
  pLen : Half
  /-- VSTAT, register 16 (R49). -/
  vStat : Word
  /-- F_HDR0, register 17 (R50). -/
  fHdr0 : Word
  /-- F_CHAN, register 18 (R51). -/
  fChan : Word
  /-- F_HDR1, register 19 (R52). -/
  fHdr1 : Word
  /-- F_OPC, register 20 (R53). -/
  fOpc : Word
  /-- F_RES, register 21 (R54). -/
  fRes : Word
  /-- F_TRL, register 22 (R55). -/
  fTrl : Word
  /-- DRES, register 23 (R56). -/
  dRes : Word
  /-- STRLEN, register 24 (R57). -/
  strLen : Half
  /-- The bytes of IBUF, OBUF, PBUF and STRBUF written since reset, at their host addresses (R81),
  strictly rising. An address not listed holds its launch byte (R322). -/
  mem : List Host.Cell
  /-- PARAM, 256 entries indexed by name id (R64). -/
  param : Vector ParamEntry 256
  /-- FIELD, entries 0, 1, ... as far as any decode since reset wrote them (R65). -/
  field : List FieldEntry
  /-- Model's own: the host actions not yet served, oldest first (R92, R306). -/
  port : List HostAction
  /-- Model's own: the data the last host read returned. -/
  readData : Word
  /-- Model's own: operands and results of an element operation that runs by itself (R70). -/
  walk : Walk
  /-- Model's own: how many resets have been served; selects the launch bytes (R322). -/
  epoch : Nat
  /-- Model's own: how many unspecified reads have been served; selects the next free value. -/
  freeCount : Nat
deriving DecidableEq, Repr

/-- The state right after reset (R71, R321). The registers that are ⊥ after reset hold 0 behind a clear
validity bit (DESIGN CHOICE, log entry 5: unsafe, though no command and no host read sees it). -/
def State.reset : State :=
  { params := Config.implementation
    cmd := 0, err := 0, errInfo := 0, status := 0
    chan := 0, opMaj := 0, opMin := 0, eChan := 0, eLink := 0, dSel := 0
    cksStart := 0, cksEnd := 0, ckr := 0
    iLen := 0, oLen := 0, pLen := 0
    vStat := 0, fHdr0 := 0, fChan := 0, fHdr1 := 0, fOpc := 0, fRes := 0, fTrl := 0
    dRes := 0, strLen := 0
    mem := []
    param := Vector.replicate 256 ⟨false, 0⟩
    field := []
    port := [], readData := 0, walk := Walk.start 0, epoch := 0, freeCount := 0 }

end Sys2Proof.Machine
end

