-- ==== Sys2Proof/Machine/Ops.lean ====
section
/-!
DEFINITION. Sys2Proof/Machine/Ops.lean: the named operations over memory, tables and status, raising
an error (R12, R298) and completing a command (R299).
-/
namespace Sys2Proof.Machine

/-! ### Byte memory -/

/-- The first host address of a buffer's window (R81). -/
def Buf.base : Buf → Nat
  | .ibuf => 0x1000
  | .obuf => 0x2000
  | .pbuf => 0x3000
  | .strbuf => 0x6000

/-- A buffer's size in bytes (R60 to R63). -/
def Buf.size : Buf → Nat
  | .ibuf => 259
  | .obuf => 259
  | .pbuf => 255
  | .strbuf => 238

/-- An address is a byte of the buffer's window (R81). -/
def Buf.holds (b : Buf) (a : Nat) : Bool := b.base ≤ a && a < b.base + b.size

/-- The buffer whose window an address lies in, if any (R81). -/
def bufferAt (a : Nat) : Option Buf :=
  if Buf.ibuf.holds a then some .ibuf
  else if Buf.obuf.holds a then some .obuf
  else if Buf.pbuf.holds a then some .pbuf
  else if Buf.strbuf.holds a then some .strbuf
  else none

/-- The byte written at an address since reset, if any: an unlisted address has no value of its own. -/
def Memory.get? : List Host.Cell → Nat → Option Byte
  | [], _ => none
  | (k, b) :: m, a => if k = a then some b else Memory.get? m a

/-- Write one byte, keeping the addresses strictly rising. -/
def Memory.put : List Host.Cell → Nat → Byte → List Host.Cell
  | [], a, v => [(a, v)]
  | (k, b) :: m, a, v =>
    if a < k then (a, v) :: (k, b) :: m
    else if a = k then (a, v) :: m
    else (k, b) :: Memory.put m a v

/-- Write bytes at consecutive addresses (R9). -/
def Memory.putAll : List Host.Cell → Nat → List Byte → List Host.Cell
  | m, _, [] => m
  | m, a, b :: bs => Memory.putAll (Memory.put m a b) (a + 1) bs

/-- The canonical form of memory: addresses strictly rising, each a byte of some buffer. No entry can
equal what an unlisted address reads as, which is no value (log entry 4). -/
abbrev Memory.wf (m : List Host.Cell) : Prop :=
  m.Pairwise (fun x y => x.1 < y.1) ∧ ∀ c ∈ m, (bufferAt c.1).isSome = true

/-- The content of a byte address: what was last written there since reset, else its launch byte
(R83, R322). -/
def State.readAddr (s : State) (a : Nat) : Byte :=
  (Memory.get? s.mem a).getD (Config.launchByte s.epoch a)

/-- B[i] (R9). -/
def State.byte (s : State) (b : Buf) (i : Nat) : Byte := s.readAddr (b.base + i)

/-- B[a .. a+n-1] (R9). -/
def State.bytes (s : State) (b : Buf) (a n : Nat) : List Byte :=
  (List.range n).map fun k => s.byte b (a + k)

/-- B[a ..] <- bytes (R9). -/
def State.store (s : State) (b : Buf) (a : Nat) (bytes : List Byte) : State :=
  { s with mem := Memory.putAll s.mem (b.base + a) bytes }

/-! ### STATUS -/

/-- The bit number of a STATUS field (R33). -/
def StatusBit.pos : StatusBit → Nat
  | .esticky => 0
  | .chanV => 1
  | .opMajV => 2
  | .opMinV => 3
  | .eChanV => 4
  | .eLinkV => 5
  | .dSelV => 6
  | .cksSV => 7
  | .cksEV => 8
  | .ckrV => 9
  | .fxV => 10
  | .vV => 11
  | .dV => 12

/-- The STATUS word with one bit set. -/
def StatusBit.mask (b : StatusBit) : Word := 1#32 <<< b.pos

/-- Read a STATUS bit. -/
def State.flag (s : State) (b : StatusBit) : Bool := s.status.getLsbD b.pos

/-- STATUS.b <- 1. -/
def State.setFlag (s : State) (b : StatusBit) : State := { s with status := s.status ||| b.mask }

/-- STATUS.b <- 0. -/
def State.clearFlag (s : State) (b : StatusBit) : State := { s with status := s.status &&& ~~~ b.mask }

/-! ### Raising and completing -/

/-- The code of an error (R281). -/
def ErrorCode.code : ErrorCode → Byte
  | .illegalCmd => 1
  | .notConfigured => 2
  | .badLength => 3
  | .badRange => 4
  | .encodingError => 5
  | .shortFrame => 6
  | .truncatedPayload => 7
  | .unknownCommand => 8
  | .missingParameter => 9
  | .schemaError => 10
  | .fieldRange => 11
  | .lengthMismatch => 12
  | .bufferOverflow => 13
  | .charsetError => 14

/-- `raise E(info)`, FCV's only exceptional event (R12, R280, R298): ERR, ERRINFO and ESTICKY are
written and nothing else changes. There is no return from it (R300): the next command runs as usual. -/
def State.raise (s : State) (e : ErrorCode) (info : Word) : State :=
  { s with err := e.code, errInfo := info, status := s.status ||| StatusBit.esticky.mask }

/-- A command completes (R299): ERR and ERRINFO become 0, ESTICKY stays. -/
def State.complete (s : State) : State := { s with err := 0, errInfo := 0 }

/-- The information word `lo | hi << 16` (R281). -/
def infoPair (lo hi : Nat) : Word := BitVec.ofNat 32 (lo ||| hi <<< 16)

/-! ### Result registers -/

/-- CKR <- c (R45). -/
def State.setCkr (s : State) (c : Byte) : State := { s with ckr := c }

/-- ILEN <- n (R46). -/
def State.setILen (s : State) (n : Half) : State := { s with iLen := n }

/-- OLEN <- n (R47). -/
def State.setOLen (s : State) (n : Nat) : State := { s with oLen := BitVec.ofNat 16 n }

/-- PLEN <- n (R48). -/
def State.setPLen (s : State) (n : Half) : State := { s with pLen := n }

/-- VSTAT <- v (R49). -/
def State.setVStat (s : State) (v : Word) : State := { s with vStat := v }

/-- DRES <- w and STRLEN <- n (R56, R57). -/
def State.setResult (s : State) (w : Word) (n : Nat) : State :=
  { s with dRes := w, strLen := BitVec.ofNat 16 n }

/-! ### PARAM and FIELD -/

/-- PARAM[n] (R64). -/
def State.paramAt (s : State) (n : BitVec 8) : ParamEntry := s.param[n.toNat]'n.isLt

/-- A host write of PARAM[n].VALUE sets PRESENT (R64, R84). -/
def State.setParam (s : State) (n : BitVec 8) (v : Word) : State :=
  { s with param := s.param.set n.toNat ⟨true, v⟩ n.isLt }

/-- A host write of PARAM[n]'s control word: PRESENT <- 0 when bit 0 is 0, else no effect (R64, R84). -/
def State.controlParam (s : State) (n : BitVec 8) (v : Word) : State :=
  if v.getLsbD 0 then s
  else { s with param := s.param.set n.toNat ⟨false, (s.paramAt n).value⟩ n.isLt }

/-- NFIELDS, bits 23:8 of DRES (R56). -/
def State.nFields (s : State) : Nat := (s.dRes.extractLsb' 8 16).toNat

/-- FIELD[0 .. |new|-1] <- new; later entries keep what they held (R65, R227). -/
def State.storeFields (s : State) (new : List FieldEntry) : State :=
  { s with field := new ++ s.field.drop new.length }

/-- Reset (R320 to R322): every piece of state takes its reset value, the buffers' bytes become a fresh
free choice, and SCHEMA stays. The host's later actions and the model's own counters stay. -/
def State.resetFrom (s : State) : State :=
  { State.reset with
    params := s.params, port := s.port, readData := s.readData
    epoch := s.epoch + 1, freeCount := s.freeCount }

end Sys2Proof.Machine
end

