-- ==== Sys2Proof/Machine/Operands.lean ====
section
/-!
DEFINITION. Sys2Proof/Machine/Operands.lean: little-endian access (R10, R86), the argument registers
and their order of checking (R283), the length registers (R284), and the host's view of the registers
(R33 to R59).
-/
namespace Sys2Proof.Machine

/-! ### Little-endian values (R10) -/

/-- The value of a little-endian byte string (R10, MemRead). -/
def leNat : List Byte → Nat
  | [] => 0
  | b :: bs => b.toNat + 256 * leNat bs

/-- `le_n(v)`, the n bytes MemWrite writes (R10). -/
def leBytes : Nat → Nat → List Byte
  | 0, _ => []
  | n + 1, v => BitVec.ofNat 8 v :: leBytes n (v / 256)

/-- `MemRead(B, a, n)` (R10). -/
def State.memRead (s : State) (b : Buf) (a n : Nat) : Nat := leNat (s.bytes b a n)

/-- The word whose bytes, lowest first, are b0, b1, b2, b3 (R50, R52 to R54). -/
def word4 (b0 b1 b2 b3 : Byte) : Word := b3 ++ b2 ++ b1 ++ b0

/-! ### Argument registers -/

/-- The register number (R37 to R44). -/
def ArgReg.number : ArgReg → Word
  | .chan => 4
  | .opMaj => 5
  | .opMin => 6
  | .eChan => 7
  | .eLink => 8
  | .dSel => 9
  | .cksStart => 10
  | .cksEnd => 11

/-- The register's validity bit (R33). -/
def ArgReg.validBit : ArgReg → StatusBit
  | .chan => .chanV
  | .opMaj => .opMajV
  | .opMin => .opMinV
  | .eChan => .eChanV
  | .eLink => .eLinkV
  | .dSel => .dSelV
  | .cksStart => .cksSV
  | .cksEnd => .cksEV

/-- The first of a command's input registers, in ascending register number, that is ⊥ (R283). -/
def State.unwritten (s : State) (rs : List ArgReg) : Option ArgReg :=
  rs.find? fun r => !s.flag r.validBit

/-- A host write to an argument register stores the field's low bits and sets the validity bit (R59). -/
def State.writeArg (s : State) (r : ArgReg) (v : Word) : State :=
  let t := s.setFlag r.validBit
  match r with
  | .chan => { t with chan := v }
  | .opMaj => { t with opMaj := v.setWidth 16 }
  | .opMin => { t with opMin := v.setWidth 8 }
  | .eChan => { t with eChan := v }
  | .eLink => { t with eLink := v.setWidth 8 }
  | .dSel => { t with dSel := v.setWidth 16 }
  | .cksStart => { t with cksStart := v.setWidth 16 }
  | .cksEnd => { t with cksEnd := v.setWidth 16 }

/-! ### Length registers -/

/-- The valid length of a buffer (R46 to R48, R57, R103). -/
def State.lengthOf (s : State) : Buf → Nat
  | .ibuf => s.iLen.toNat
  | .obuf => s.oLen.toNat
  | .pbuf => s.pLen.toNat
  | .strbuf => s.strLen.toNat

/-- The number of a buffer's length register (R46 to R48, R57). -/
def Buf.lengthReg : Buf → Word
  | .ibuf => 13
  | .obuf => 14
  | .pbuf => 15
  | .strbuf => 24

/-! ### The host's view of the registers -/

/-- The 32-bit word register n holds; bits above a narrow field are 0, and so are the reserved
registers (R33 to R59). -/
def State.regValue (s : State) : Nat → Word
  | 0 => s.cmd
  | 1 => s.err.setWidth 32
  | 2 => s.errInfo
  | 3 => s.status
  | 4 => s.chan
  | 5 => s.opMaj.setWidth 32
  | 6 => s.opMin.setWidth 32
  | 7 => s.eChan
  | 8 => s.eLink.setWidth 32
  | 9 => s.dSel.setWidth 32
  | 10 => s.cksStart.setWidth 32
  | 11 => s.cksEnd.setWidth 32
  | 12 => s.ckr.setWidth 32
  | 13 => s.iLen.setWidth 32
  | 14 => s.oLen.setWidth 32
  | 15 => s.pLen.setWidth 32
  | 16 => s.vStat
  | 17 => s.fHdr0
  | 18 => s.fChan
  | 19 => s.fHdr1
  | 20 => s.fOpc
  | 21 => s.fRes
  | 22 => s.fTrl
  | 23 => s.dRes
  | 24 => s.strLen.setWidth 32
  | _ => 0

/-- The validity bit of register n, for the registers that can be ⊥ (R33). -/
def regValidBit : Nat → Option StatusBit
  | 4 => some .chanV
  | 5 => some .opMajV
  | 6 => some .opMinV
  | 7 => some .eChanV
  | 8 => some .eLinkV
  | 9 => some .dSelV
  | 10 => some .cksSV
  | 11 => some .cksEV
  | 12 => some .ckrV
  | 16 => some .vV
  | 17 => some .fxV
  | 18 => some .fxV
  | 19 => some .fxV
  | 20 => some .fxV
  | 21 => some .fxV
  | 22 => some .fxV
  | 23 => some .dV
  | 24 => some .dV
  | _ => none

/-- The assigned bits of register n, for the registers that can be ⊥: its other bits read 0 whatever
the register holds (R59; DEDUCED, log entry 7). -/
def regMask : Nat → Word
  | 5 => 0xFFFF
  | 6 => 0xFF
  | 8 => 0xFF
  | 9 => 0xFFFF
  | 10 => 0xFFFF
  | 11 => 0xFFFF
  | 12 => 0xFF
  | 16 => 0x80003FFF
  | 21 => 0xFFFF00FF
  | 23 => 0x00FFFF03
  | 24 => 0xFFFF
  | _ => 0xFFFFFFFF

/-- Register n holds a value: its validity bit, if it has one, is 1. -/
def State.regValid (s : State) (n : Nat) : Bool :=
  match regValidBit n with
  | some b => s.flag b
  | none => true

/-- A FIELD entry's DESC word (R85). -/
def FieldEntry.desc (f : FieldEntry) : Word := (f.type ++ f.name).setWidth 32

end Sys2Proof.Machine
end

