-- ==== Sys2Proof/Machine/Checksum.lean ====
section
/-!
DEFINITION. Sys2Proof/Machine/Checksum.lean: the checksum function (R140, R141) and the CKSUM
commands (R142).
-/
namespace Sys2Proof.Machine

/-- One shift of the checksum register (R140). -/
def crcShift (c : Byte) : Byte := if c.getLsbD 0 then (c >>> 1) ^^^ 0x8C#8 else c >>> 1

/-- Eight shifts (R140). -/
def crcShift8 (c : Byte) : Byte :=
  crcShift (crcShift (crcShift (crcShift (crcShift (crcShift (crcShift (crcShift c)))))))

/-- One byte into the checksum register (R140). -/
def crcByte (c b : Byte) : Byte := crcShift8 (c ^^^ b)

/-- The checksum of a byte string, from 0x00, in ascending order (R140). -/
def crc8 (bs : List Byte) : Byte := bs.foldl crcByte 0

/-- `crc8(B, a, b)`, the inclusive range (R14, R140). -/
def State.crcRange (s : State) (buf : Buf) (a b : Nat) : Byte := crc8 (s.bytes buf a (b + 1 - a))

/-- CKSUM over one buffer (R142). The word check of its first line is the decoder's (log entry 13). -/
def cksum (buf : Buf) (s : State) : State :=
  match s.unwritten [.cksStart, .cksEnd] with
  | some r => s.raise .notConfigured r.number
  | none =>
    if s.lengthOf buf > buf.size then s.raise .badLength buf.lengthReg
    else
      let a := s.cksStart.toNat
      let b := s.cksEnd.toNat
      if a ≤ b ∧ b < s.lengthOf buf then
        ((s.setCkr (s.crcRange buf a b)).setFlag .ckrV).complete
      else s.raise .badRange (infoPair a b)

/-- CKSUM with BSEL = 0: IBUF, length ILEN (R103, R142). -/
def execCksumIbuf (s : State) : Host.Outcome State Fault Refusal := .next (cksum .ibuf s)

/-- CKSUM with BSEL = 1: OBUF, length OLEN (R103, R142). -/
def execCksumObuf (s : State) : Host.Outcome State Fault Refusal := .next (cksum .obuf s)

/-- CKSUM with BSEL = 2: PBUF, length PLEN (R103, R142). -/
def execCksumPbuf (s : State) : Host.Outcome State Fault Refusal := .next (cksum .pbuf s)

end Sys2Proof.Machine
end

