-- ==== Sys2Proof/Decode.lean ====
section
/-!
DEFINITION. Sys2Proof/Decode.lean: the decoder of command words (R101 to R105) and of type tags
(R118, R119), total, rejecting by name, and after it the encoder, each written from the encoding
tables of `30_encoding.md`.
-/
namespace Sys2Proof

/-- The fields of a command word (R101). -/
def CmdFields.ofWord (w : Word) : CmdFields :=
  { op := w.extractLsb' 0 8, bsel := w.extractLsb' 8 2, rsv := w.extractLsb' 10 22 }

/-- The command word with the given fields (R101). -/
def CmdFields.toWord (f : CmdFields) : Word := f.rsv ++ f.bsel ++ f.op

/-- A command other than CKSUM needs BSEL = 0 (R103). -/
def plainCommand (bsel : BitVec 2) (i : Instr) : Except DecodeReject Instr :=
  if bsel = 0 then .ok i else .error (.bselWithoutCksum bsel)

/-- CKSUM's three words, by BSEL (R103). -/
def decodeCksum (bsel : BitVec 2) : Except DecodeReject Instr :=
  if bsel = 0 then .ok .cksumIbuf
  else if bsel = 1 then .ok .cksumObuf
  else if bsel = 2 then .ok .cksumPbuf
  else .error .reservedBsel

/-- The operation codes (R102). -/
def decodeFields (f : CmdFields) : Except DecodeReject Instr :=
  if f.rsv ≠ 0 then .error (.reservedBits f.rsv)
  else match f.op.toNat with
    | 0x01 => decodeCksum f.bsel
    | 0x02 => plainCommand f.bsel .fenv
    | 0x03 => plainCommand f.bsel .fenc
    | 0x04 => plainCommand f.bsel .fext
    | 0x05 => plainCommand f.bsel .fval
    | 0x06 => plainCommand f.bsel .pslice
    | 0x07 => plainCommand f.bsel .fldenc
    | 0x08 => plainCommand f.bsel .flddec
    | _ => .error (.reservedOp f.op)

/-- The decoder of command words: exactly the words of R104 are accepted. -/
def decodeCommand (w : Word) : Except DecodeReject Instr := decodeFields (CmdFields.ofWord w)

/-- The decoder of type tags: the element operation that a field of this tag names on this side
of a descriptor (R118, table columns "encode" and "decode"). -/
def decodeElement (side : ListSide) (tag : Tag) : Except DecodeReject Instr :=
  match side, tag.toNat with
  | .request, 0 => .ok .packU8
  | .request, 1 => .ok .packU16
  | .request, 2 => .ok .packU32
  | .request, 3 => .error (.noPackOperation tag)
  | .request, 4 => .error (.noPackOperation tag)
  | .request, 5 => .ok .packUnixtime
  | .response, 0 => .ok .unpackU8
  | .response, 1 => .ok .unpackU16
  | .response, 2 => .ok .unpackU32
  | .response, 3 => .ok .unpackBool
  | .response, 4 => .ok .unpackAscii
  | .response, 5 => .ok .unpackUnixtime
  | _, _ => .error (.reservedTag tag)

/-- The decoder over both formats of the opcode table. -/
def decode : Encoding → Except DecodeReject Instr
  | .command w => decodeCommand w
  | .element side tag => decodeElement side tag

/-- The side a bare tag is read on when nothing says which: the request side where the tag has a
pack operation, else the response side. DESIGN CHOICE (log entry 9): the table gives PACK_x and
UNPACK_x the same tag and tells them apart by its "context" column only. -/
def bareTagSide (tag : Tag) : ListSide :=
  match decodeElement .request tag with
  | .ok _ => .request
  | .error _ => .response

/-- The instruction of an opcode-table word: rows of format CMD32 give 32 bits, rows of format
TYPETAG3 three bits (8 in whole bytes, of which bits 2:0 are the tag, R119). -/
def decodeTableWord (nbits w : Nat) : Option Instr :=
  if nbits ≤ 8 then
    let tag : Tag := BitVec.ofNat 3 w
    (decodeElement (bareTagSide tag) tag).toOption
  else if w < 2 ^ 32 then (decodeCommand (BitVec.ofNat 32 w)).toOption
  else none

/-- The encoding of each instruction (R102, R103, R118). -/
def encode : Instr → Encoding
  | .cksumIbuf => .command (CmdFields.toWord ⟨0x01, 0, 0⟩)
  | .cksumObuf => .command (CmdFields.toWord ⟨0x01, 1, 0⟩)
  | .cksumPbuf => .command (CmdFields.toWord ⟨0x01, 2, 0⟩)
  | .fenv => .command (CmdFields.toWord ⟨0x02, 0, 0⟩)
  | .fenc => .command (CmdFields.toWord ⟨0x03, 0, 0⟩)
  | .fext => .command (CmdFields.toWord ⟨0x04, 0, 0⟩)
  | .fval => .command (CmdFields.toWord ⟨0x05, 0, 0⟩)
  | .pslice => .command (CmdFields.toWord ⟨0x06, 0, 0⟩)
  | .fldenc => .command (CmdFields.toWord ⟨0x07, 0, 0⟩)
  | .flddec => .command (CmdFields.toWord ⟨0x08, 0, 0⟩)
  | .packU8 => .element .request 0
  | .packU16 => .element .request 1
  | .packU32 => .element .request 2
  | .packUnixtime => .element .request 5
  | .unpackU8 => .element .response 0
  | .unpackU16 => .element .response 1
  | .unpackU32 => .element .response 2
  | .unpackBool => .element .response 3
  | .unpackAscii => .element .response 4
  | .unpackUnixtime => .element .response 5

end Sys2Proof
end

