-- ==== Sys2Proof/Machine/Flags.lean ====
section
/-!
DEFINITION. Sys2Proof/Machine/Flags.lean: how the condition words are put together: VSTAT from its
checks (R49, R163) and DRES from its fields (R56).
-/
namespace Sys2Proof.Machine

/-- FVAL's checks, bits 1 to 13 of VSTAT: `true` means the check failed (R49). -/
structure Checks where
  /-- Bit 1. -/
  start : Bool
  /-- Bit 2. -/
  ltype : Bool
  /-- Bit 3. -/
  len : Bool
  /-- Bit 4. -/
  chan : Bool
  /-- Bit 5. -/
  hcrc : Bool
  /-- Bit 6. -/
  ptype : Bool
  /-- Bit 7. -/
  mark : Bool
  /-- Bit 8. -/
  opcode : Bool
  /-- Bit 9. -/
  result : Bool
  /-- Bit 10. -/
  tcrc : Bool
  /-- Bit 11. -/
  endMark : Bool
  /-- Bit 12, informational. -/
  rsvd : Bool
  /-- Bit 13, informational. -/
  plenx : Bool
deriving DecidableEq, Repr

/-- VALID: no counted check failed (R49). -/
def Checks.valid (c : Checks) : Bool :=
  !(c.start || c.ltype || c.len || c.chan || c.hcrc || c.ptype || c.mark || c.opcode || c.result
    || c.tcrc || c.endMark)

/-- A word with bit i equal to b and every other bit 0. -/
def bitAt (i : Nat) (b : Bool) : Word := if b then 1#32 <<< i else 0#32

/-- The VSTAT word of a frame that is not SHORT (R163). -/
def Checks.word (c : Checks) : Word :=
  bitAt 1 c.start ||| bitAt 2 c.ltype ||| bitAt 3 c.len ||| bitAt 4 c.chan ||| bitAt 5 c.hcrc
    ||| bitAt 6 c.ptype ||| bitAt 7 c.mark ||| bitAt 8 c.opcode ||| bitAt 9 c.result
    ||| bitAt 10 c.tcrc ||| bitAt 11 c.endMark ||| bitAt 12 c.rsvd ||| bitAt 13 c.plenx
    ||| bitAt 31 c.valid

/-- The VSTAT word of a frame of fewer than 21 bytes: SHORT only (R163). -/
def vstatShort : Word := bitAt 0 true

/-- RESKIND (R56, R234). -/
inductive ResKind where
  /-- 0. -/
  | unit
  /-- 1. -/
  | scalar
  /-- 2. -/
  | map
deriving DecidableEq, Repr

/-- The code of a result kind (R56). -/
def ResKind.code : ResKind → BitVec 8
  | .unit => 0
  | .scalar => 1
  | .map => 2

/-- The DRES word (R56): RESKIND in bits 1:0, NFIELDS in bits 23:8, every other bit 0. -/
def dresWord (k : ResKind) (n : Nat) : Word := 0#8 ++ BitVec.ofNat 16 n ++ k.code

/-- The result kind of a list of n fields (R234). -/
def listKind (n : Nat) : ResKind := if n = 1 then .scalar else .map

end Sys2Proof.Machine
end

