-- ==== Sys2Proof/Machine/FieldCodec.lean ====
section
/-!
DEFINITION. Sys2Proof/Machine/FieldCodec.lean: the element operations (R222 to R233), FLDENC (R221)
and FLDDEC (R227).
-/
namespace Sys2Proof.Machine

/-! ### Pack operations -/

/-- Append `le_n(v)` to the packed bytes (R10, R222 to R225). -/
def Walk.emit (w : Walk) (n : Nat) : Walk := { w with out := w.out ++ leBytes n w.value.toNat }

/-- PACK_U8 (R222). -/
def packU8 (w : Walk) : Except Raise Walk :=
  if w.value.toNat ≤ 0xFF then .ok (w.emit 1)
  else .error ⟨.fieldRange, infoPair w.name.toNat w.desc.toNat⟩

/-- PACK_U16 (R223). -/
def packU16 (w : Walk) : Except Raise Walk :=
  if w.value.toNat ≤ 0xFFFF then .ok (w.emit 2)
  else .error ⟨.fieldRange, infoPair w.name.toNat w.desc.toNat⟩

/-- PACK_U32 (R224). -/
def packU32 (w : Walk) : Except Raise Walk := .ok (w.emit 4)

/-- PACK_UNIXTIME (R225): on the wire identical to PACK_U32. -/
def packUnixtime (w : Walk) : Except Raise Walk := .ok (w.emit 4)

/-! ### Unpack operations -/

/-- Read n bytes of PBUF at the walk's offset as an unsigned integer, if PLEN allows (R228, R230 to R232). -/
def State.unpackInt (s : State) (n : Nat) (w : Walk) : Except Raise Walk :=
  let p := s.pLen.toNat
  if w.off + n ≤ p then
    .ok { w with value := BitVec.ofNat 32 (s.memRead .pbuf w.off n), off := w.off + n }
  else .error ⟨.lengthMismatch, infoPair (w.off + n) p⟩

/-- UNPACK_U8 (R228). -/
def unpackU8 (s : State) (w : Walk) : Except Raise Walk := s.unpackInt 1 w

/-- UNPACK_BOOL (R229): any nonzero byte is 1. -/
def unpackBool (s : State) (w : Walk) : Except Raise Walk :=
  let p := s.pLen.toNat
  if w.off + 1 ≤ p then
    .ok { w with value := if s.byte .pbuf w.off ≠ 0 then 1 else 0, off := w.off + 1 }
  else .error ⟨.lengthMismatch, infoPair (w.off + 1) p⟩

/-- UNPACK_U16 (R230). -/
def unpackU16 (s : State) (w : Walk) : Except Raise Walk := s.unpackInt 2 w

/-- UNPACK_U32 (R231). -/
def unpackU32 (s : State) (w : Walk) : Except Raise Walk := s.unpackInt 4 w

/-- UNPACK_UNIXTIME (R232): the same as UNPACK_U32. -/
def unpackUnixtime (s : State) (w : Walk) : Except Raise Walk := s.unpackInt 4 w

/-- Strip every trailing 0x00; interior ones stay (R233). -/
def stripNuls (bs : List Byte) : List Byte := (bs.reverse.dropWhile (· == 0)).reverse

/-- UNPACK_ASCII (R233): all remaining payload bytes, stripped, 7-bit, at most 238. -/
def unpackAscii (s : State) (w : Walk) : Except Raise Walk :=
  let p := s.pLen.toNat
  let str := stripNuls (s.bytes .pbuf w.off (p - w.off))
  match str.findIdx? (fun b => 0x80 ≤ b.toNat) with
  | some i => .error ⟨.charsetError, BitVec.ofNat 32 (w.off + i)⟩
  | none =>
    if str.length ≤ Buf.strbuf.size then
      .ok { w with value := BitVec.ofNat 32 str.length, off := p, str := str }
    else .error ⟨.bufferOverflow, BitVec.ofNat 32 str.length⟩

/-! ### The request walk -/

/-- The pack operation a request field's tag names; a tag without one is a schema error at index k
(R221, R226). -/
def packElement (tag : Tag) (k : Nat) (w : Walk) : Except Raise Walk :=
  match decodeElement .request tag with
  | .ok .packU8 => packU8 w
  | .ok .packU16 => packU16 w
  | .ok .packU32 => packU32 w
  | .ok .packUnixtime => packUnixtime w
  | _ => .error ⟨.schemaError, infoPair k w.desc.toNat⟩

/-- One request field at index k: presence first, then the pack operation (R221). -/
def State.encodeField (s : State) (k : Nat) (f : Field) (w : Walk) : Except Raise Walk :=
  let e := s.paramAt f.name
  if e.present then packElement f.tag k { w with name := f.name, value := e.value }
  else .error ⟨.missingParameter, infoPair f.name.toNat w.desc.toNat⟩

/-- The request walk from index k: the first failing field decides the error (R221). -/
def State.encodeList (s : State) : Nat → List Field → Walk → Except Raise Walk
  | _, [], w => .ok w
  | k, f :: fs, w =>
    match s.encodeField k f w with
    | .ok w' => s.encodeList (k + 1) fs w'
    | .error r => .error r

/-- FLDENC (R220, R221). -/
def fldenc (s : State) : State :=
  match s.unwritten [.dSel] with
  | some r => s.raise .notConfigured r.number
  | none =>
    match s.params.schema[s.dSel.toNat]? with
    | none => s.raise .unknownCommand (s.dSel.setWidth 32)
    | some desc =>
      match s.encodeList 0 desc.req (Walk.start s.dSel) with
      | .error r => s.raise r.error r.info
      | .ok w =>
        if w.out.length ≤ Buf.pbuf.size then
          ((s.store .pbuf 0 w.out).setPLen (BitVec.ofNat 16 w.out.length)).complete
        else s.raise .bufferOverflow (BitVec.ofNat 32 w.out.length)

/-! ### The response walk -/

/-- The static check of one response field: its tag is assigned, ASCII stands alone, and its name is
new (R227). -/
def staticOk (total : Nat) (seen : List (BitVec 8)) (f : Field) : Bool :=
  f.tag.toNat ≤ 5 && (f.tag != 4 || total == 1) && !seen.contains f.name

/-- The static checks from index k: the lowest failing index (R227). -/
def staticScan (total : Nat) : Nat → List (BitVec 8) → List Field → Option Nat
  | _, _, [] => none
  | k, seen, f :: fs =>
    if staticOk total seen f then staticScan total (k + 1) (f.name :: seen) fs else some k

/-- All static checks of a response list, the MAX_FIELDS check first: the index SCHEMA_ERROR reports
(R227, R291). -/
def staticCheck (maxFields : Nat) (fs : List Field) : Option Nat :=
  if fs.length ≤ maxFields then staticScan fs.length 0 [] fs else some maxFields

/-- The unpack operation a response field's tag names (R227). The last case is never reached behind
the static checks. -/
def unpackElement (s : State) (tag : Tag) (k : Nat) (w : Walk) : Except Raise Walk :=
  match decodeElement .response tag with
  | .ok .unpackU8 => unpackU8 s w
  | .ok .unpackBool => unpackBool s w
  | .ok .unpackU16 => unpackU16 s w
  | .ok .unpackU32 => unpackU32 s w
  | .ok .unpackUnixtime => unpackUnixtime s w
  | .ok .unpackAscii => unpackAscii s w
  | _ => .error ⟨.schemaError, infoPair k w.desc.toNat⟩

/-- The response walk from index k: the walk's end and the FIELD entries, in list order (R227). -/
def State.decodeList (s : State) : Nat → List Field → Walk → Except Raise (Walk × List FieldEntry)
  | _, [], w => .ok (w, [])
  | k, f :: fs, w =>
    match unpackElement s f.tag k { w with name := f.name } with
    | .error r => .error r
    | .ok w' =>
      match s.decodeList (k + 1) fs w' with
      | .error r => .error r
      | .ok (w'', es) => .ok (w'', ⟨f.name, f.tag, w'.value⟩ :: es)

/-- A decode's results become visible together (R227): DRES, STRLEN, FIELD, STRBUF and DV. -/
def State.commitDecode (s : State) (kind : ResKind) (entries : List FieldEntry) (str : List Byte) :
    State :=
  ((((s.storeFields entries).store .strbuf 0 str).setResult (dresWord kind entries.length)
    str.length).setFlag .dV).complete

/-- FLDDEC of a response list (R227). -/
def State.decodeResponse (s : State) (fs : List Field) : State :=
  let p := s.pLen.toNat
  match staticCheck s.params.maxFields fs with
  | some k => s.raise .schemaError (infoPair k s.dSel.toNat)
  | none =>
    match s.decodeList 0 fs (Walk.start s.dSel) with
    | .error r => s.raise r.error r.info
    | .ok (w, entries) =>
      if w.off = p then s.commitDecode (listKind fs.length) entries w.str
      else s.raise .lengthMismatch (infoPair w.off p)

/-- FLDDEC (R220, R227). -/
def flddec (s : State) : State :=
  match s.unwritten [.dSel] with
  | some r => s.raise .notConfigured r.number
  | none =>
    let p := s.pLen.toNat
    if p > Buf.pbuf.size then s.raise .badLength 15
    else
      match s.params.schema[s.dSel.toNat]? with
      | none => s.raise .unknownCommand (s.dSel.setWidth 32)
      | some desc =>
        match desc.resp with
        | none =>
          if p = 0 then s.commitDecode .unit [] []
          else s.raise .lengthMismatch (infoPair 0 p)
        | some fs => s.decodeResponse fs

/-! ### The commands and the element operations by themselves -/

/-- FLDENC, word 0x00000007 (R221). -/
def execFldenc (s : State) : Host.Outcome State Fault Refusal := .next (fldenc s)

/-- FLDDEC, word 0x00000008 (R227). -/
def execFlddec (s : State) : Host.Outcome State Fault Refusal := .next (flddec s)

/-- An element operation run by itself on the model's walk field: its result goes there, and its
error is raised as its command's would be (DESIGN CHOICE, log entry 8). -/
def State.runElement (s : State) : Except Raise Walk → State
  | .ok w => { s with walk := w }
  | .error r => s.raise r.error r.info

/-- PACK_U8 (R222). -/
def execPackU8 (s : State) : Host.Outcome State Fault Refusal := .next (s.runElement (packU8 s.walk))

/-- PACK_U16 (R223). -/
def execPackU16 (s : State) : Host.Outcome State Fault Refusal := .next (s.runElement (packU16 s.walk))

/-- PACK_U32 (R224). -/
def execPackU32 (s : State) : Host.Outcome State Fault Refusal := .next (s.runElement (packU32 s.walk))

/-- PACK_UNIXTIME (R225). -/
def execPackUnixtime (s : State) : Host.Outcome State Fault Refusal :=
  .next (s.runElement (packUnixtime s.walk))

/-- UNPACK_U8 (R228). -/
def execUnpackU8 (s : State) : Host.Outcome State Fault Refusal :=
  .next (s.runElement (unpackU8 s s.walk))

/-- UNPACK_U16 (R230). -/
def execUnpackU16 (s : State) : Host.Outcome State Fault Refusal :=
  .next (s.runElement (unpackU16 s s.walk))

/-- UNPACK_U32 (R231). -/
def execUnpackU32 (s : State) : Host.Outcome State Fault Refusal :=
  .next (s.runElement (unpackU32 s s.walk))

/-- UNPACK_BOOL (R229). -/
def execUnpackBool (s : State) : Host.Outcome State Fault Refusal :=
  .next (s.runElement (unpackBool s s.walk))

/-- UNPACK_ASCII (R233). -/
def execUnpackAscii (s : State) : Host.Outcome State Fault Refusal :=
  .next (s.runElement (unpackAscii s s.walk))

/-- UNPACK_UNIXTIME (R232). -/
def execUnpackUnixtime (s : State) : Host.Outcome State Fault Refusal :=
  .next (s.runElement (unpackUnixtime s s.walk))

end Sys2Proof.Machine
end

