-- ==== Sys2Proof/Machine/Frame.lean ====
section
/-!
DEFINITION. Sys2Proof/Machine/Frame.lean: building frames (FENV R160, FENC R161), extracting the
fixed-offset fields (FEXT R162), validating (FVAL R163) and slicing the payload (PSLICE R165).
The word check that opens every rule (CHECKWORD) is the decoder's (log entry 13).
-/
namespace Sys2Proof.Machine

/-! ### Building -/

/-- Envelope bytes 0..8 (R110): markers, length byte, reserved byte, channel id, link flag. -/
def frameHead (len : Byte) (chan : Word) (link : Byte) : List Byte :=
  [0x02, 0xFD, len, 0x00] ++ leBytes 4 chan.toNat ++ [link]

/-- Envelope bytes 0..N-3: the head, the header checksum over bytes 1..8 (R141) and the body. -/
def frameFront (len : Byte) (chan : Word) (link : Byte) (body : List Byte) : List Byte :=
  let head := frameHead len chan link
  head ++ [crc8 (head.drop 1)] ++ body

/-- A whole frame (R110): the trailing checksum covers bytes 1..N-3 (R141). -/
def buildFrame (len : Byte) (chan : Word) (link : Byte) (body : List Byte) : List Byte :=
  let front := frameFront len chan link body
  front ++ [crc8 (front.drop 1), 0x03]

/-- OBUF[0 .. N-1] <- frame and OLEN <- N, and the command completes (R160, R161, R299). -/
def State.emitFrame (s : State) (frame : List Byte) : State :=
  ((s.store .obuf 0 frame).setOLen frame.length).complete

/-- FENV (R160). -/
def fenv (s : State) : State :=
  match s.unwritten [.eChan, .eLink] with
  | some r => s.raise .notConfigured r.number
  | none =>
    let n := s.pLen.toNat
    if n > 255 then s.raise .badLength 15
    else if n > 247 then s.raise .encodingError (BitVec.ofNat 32 n)
    else s.emitFrame (buildFrame (BitVec.ofNat 8 (n + 8)) s.eChan s.eLink (s.bytes .pbuf 0 n))

/-- The bytes of a request frame between the header checksum and the payload (R112, R161). -/
def requestHeader (major : Half) (minor : Byte) (p : Nat) : List Byte :=
  [0x00, 0xAF] ++ leBytes 2 major.toNat ++ [minor, 0x00] ++ leBytes 2 p

/-- FENC (R161). -/
def fenc (s : State) : State :=
  match s.unwritten [.chan, .opMaj, .opMin] with
  | some r => s.raise .notConfigured r.number
  | none =>
    let p := s.pLen.toNat
    if p > 255 then s.raise .badLength 15
    else if p > 239 then s.raise .encodingError (BitVec.ofNat 32 p)
    else s.emitFrame (buildFrame (BitVec.ofNat 8 (p + 16)) s.chan 0x01
      (requestHeader s.opMaj s.opMin p ++ s.bytes .pbuf 0 p))

/-! ### Parsing -/

/-- EXTRACT(N), shared by FEXT and FVAL (R162). -/
def State.extract (s : State) (n : Nat) : State :=
  let f := s.byte .ibuf
  { s with
    fHdr0 := word4 (f 0) (f 1) (f 2) (f 3)
    fChan := BitVec.ofNat 32 (s.memRead .ibuf 4 4)
    fHdr1 := word4 (f 8) (f 9) (f 10) (f 11)
    fOpc := word4 (f 12) (f 13) (f 14) (f 15)
    fRes := word4 (f 16) 0 (f 17) (f 18)
    fTrl := BitVec.ofNat 16 n ++ f (n - 1) ++ f (n - 2) }

/-- FEXT (R162). -/
def fext (s : State) : State :=
  let n := s.iLen.toNat
  if n > 259 then s.raise .badLength 13
  else if n < 21 then s.raise .shortFrame (BitVec.ofNat 32 n)
  else ((s.extract n).setFlag .fxV).complete

/-- The checks of FVAL on a frame of n bytes, n at least 21 (R163). -/
def State.frameChecks (s : State) (n : Nat) : Checks :=
  let f := s.byte .ibuf
  { start := f 0 != 0x02
    ltype := f 1 != 0xFD
    len := (f 2).toNat != n - 4
    chan := s.memRead .ibuf 4 4 != s.chan.toNat
    hcrc := f 9 != s.crcRange .ibuf 1 8
    ptype := f 10 != 0x01
    mark := f 11 != 0xAF
    opcode := s.memRead .ibuf 12 2 != s.opMaj.toNat || f 14 != s.opMin
    result := f 16 != 0x00
    tcrc := f (n - 2) != s.crcRange .ibuf 1 (n - 3)
    endMark := f (n - 1) != 0x03
    rsvd := f 3 != 0x00 || f 15 != 0x00
    plenx := 19 + s.memRead .ibuf 17 2 + 2 != n }

/-- FVAL (R163). A frame too short for the response offsets is reported, not raised (R287). -/
def fval (s : State) : State :=
  match s.unwritten [.chan, .opMaj, .opMin] with
  | some r => s.raise .notConfigured r.number
  | none =>
    let n := s.iLen.toNat
    if n > 259 then s.raise .badLength 13
    else if n < 21 then
      (((s.setVStat vstatShort).setFlag .vV).clearFlag .fxV).complete
    else
      ((((s.extract n).setFlag .fxV).setVStat (s.frameChecks n).word).setFlag .vV).complete

/-- PSLICE (R165). -/
def pslice (s : State) : State :=
  let n := s.iLen.toNat
  if n > 259 then s.raise .badLength 13
  else if n < 21 then s.raise .shortFrame (BitVec.ofNat 32 n)
  else
    let p := s.memRead .ibuf 17 2
    if 19 + p ≤ n - 2 then
      ((s.store .pbuf 0 (s.bytes .ibuf 19 p)).setPLen (BitVec.ofNat 16 p)).complete
    else s.raise .truncatedPayload (BitVec.ofNat 32 p)

/-! ### The commands -/

/-- FENV, word 0x00000002 (R160). -/
def execFenv (s : State) : Host.Outcome State Fault Refusal := .next (fenv s)

/-- FENC, word 0x00000003 (R161). -/
def execFenc (s : State) : Host.Outcome State Fault Refusal := .next (fenc s)

/-- FEXT, word 0x00000004 (R162). -/
def execFext (s : State) : Host.Outcome State Fault Refusal := .next (fext s)

/-- FVAL, word 0x00000005 (R163). -/
def execFval (s : State) : Host.Outcome State Fault Refusal := .next (fval s)

/-- PSLICE, word 0x00000006 (R165). -/
def execPslice (s : State) : Host.Outcome State Fault Refusal := .next (pslice s)

end Sys2Proof.Machine
end

