-- ==== Sys2Proof/Machine/Dispatch.lean ====
section
/-!
DEFINITION. Sys2Proof/Machine/Dispatch.lean: one arm per row of the opcode table.
-/
namespace Sys2Proof.Machine

def exec (i : Instr) (s : State) : Host.Outcome State Fault Refusal :=
  match i with
  | .cksumIbuf => Sys2Proof.Machine.execCksumIbuf s
  | .cksumObuf => Sys2Proof.Machine.execCksumObuf s
  | .cksumPbuf => Sys2Proof.Machine.execCksumPbuf s
  | .fenv => Sys2Proof.Machine.execFenv s
  | .fenc => Sys2Proof.Machine.execFenc s
  | .fext => Sys2Proof.Machine.execFext s
  | .fval => Sys2Proof.Machine.execFval s
  | .pslice => Sys2Proof.Machine.execPslice s
  | .fldenc => Sys2Proof.Machine.execFldenc s
  | .flddec => Sys2Proof.Machine.execFlddec s
  | .packU8 => Sys2Proof.Machine.execPackU8 s
  | .packU16 => Sys2Proof.Machine.execPackU16 s
  | .packU32 => Sys2Proof.Machine.execPackU32 s
  | .packUnixtime => Sys2Proof.Machine.execPackUnixtime s
  | .unpackU8 => Sys2Proof.Machine.execUnpackU8 s
  | .unpackU16 => Sys2Proof.Machine.execUnpackU16 s
  | .unpackU32 => Sys2Proof.Machine.execUnpackU32 s
  | .unpackBool => Sys2Proof.Machine.execUnpackBool s
  | .unpackAscii => Sys2Proof.Machine.execUnpackAscii s
  | .unpackUnixtime => Sys2Proof.Machine.execUnpackUnixtime s

end Sys2Proof.Machine
end

