-- ==== Sys2Proof/Machine/Port.lean ====
section
/-!
DEFINITION. Sys2Proof/Machine/Port.lean: serving one host action (R306): the address map (R81), host
writes and reads of each window, the command a write of CMD issues (R34), reset (R320), and where an
instruction is placed for the next step.
-/
namespace Sys2Proof.Machine

/-- The windows of the host address map (R81). -/
inductive Window where
  /-- 0x0000 to 0x00FF, words. -/
  | reg
  /-- IBUF, OBUF, PBUF or STRBUF, bytes. -/
  | buffer (b : Buf)
  /-- 0x4000 to 0x47FF, words. -/
  | param
  /-- 0x5000 to 0x5000 + 8 * MAX_FIELDS - 1, words. -/
  | field
deriving DecidableEq, Repr

/-- The window an address lies in; every other address is unmapped (R81). -/
def windowOf (maxFields a : Nat) : Option Window :=
  if a < 0x100 then some .reg
  else if 0x4000 ≤ a ∧ a < 0x4800 then some .param
  else
    match bufferAt a with
    | some b => some (.buffer b)
    | none => if 0x5000 ≤ a ∧ a < 0x5000 + 8 * maxFields then some .field else none

/-- The window of a host address on this machine. -/
def State.window (s : State) (a : Half) : Option Window := windowOf s.params.maxFields a.toNat

/-! ### Commands -/

/-- A host write of CMD stores the word and executes it (R34); a word the decoder rejects raises
ILLEGAL_CMD with the word, before anything else is read (R105, R282). -/
def State.issue (s : State) (w : Word) : Host.Outcome State Fault Refusal :=
  let t := { s with cmd := w }
  match decodeCommand w with
  | .ok i => exec i t
  | .error _ => .next (t.raise .illegalCmd w)

/-! ### Writes -/

/-- A host write of register n (R33 to R59): CMD executes, an argument register is stored and marked
valid, ILEN and PLEN keep the low 16 bits, and a write to any other register is ignored. -/
def State.writeReg (s : State) (n : Nat) (v : Word) : Host.Outcome State Fault Refusal :=
  match n with
  | 0 => s.issue v
  | 4 => .next (s.writeArg .chan v)
  | 5 => .next (s.writeArg .opMaj v)
  | 6 => .next (s.writeArg .opMin v)
  | 7 => .next (s.writeArg .eChan v)
  | 8 => .next (s.writeArg .eLink v)
  | 9 => .next (s.writeArg .dSel v)
  | 10 => .next (s.writeArg .cksStart v)
  | 11 => .next (s.writeArg .cksEnd v)
  | 13 => .next (s.setILen (v.setWidth 16))
  | 15 => .next (s.setPLen (v.setWidth 16))
  | _ => .next s

/-- The name id whose PARAM entry an address of the PARAM window lies in (R84). -/
def paramIndex (a : Nat) : BitVec 8 := BitVec.ofNat 8 ((a - 0x4000) / 8)

/-- A host write of a PARAM word: VALUE at offset 0 of the entry, CTRL at offset 4 (R84). -/
def State.writeParam (s : State) (a : Nat) (v : Word) : State :=
  if a % 8 = 0 then s.setParam (paramIndex a) v else s.controlParam (paramIndex a) v

/-- A host word write (R81, R82). Writes to the FIELD window are ignored. -/
def State.hostWriteWord (s : State) (a : Half) (v : Word) : Host.Outcome State Fault Refusal :=
  match s.window a with
  | none => .fault (.unmappedAddress a)
  | some (.buffer _) => .refused (.wrongWidth a)
  | some w =>
    if a.toNat % 4 ≠ 0 then .refused (.misalignedAccess a)
    else match w with
      | .reg => s.writeReg (a.toNat / 4) v
      | .param => .next (s.writeParam a.toNat v)
      | _ => .next s

/-- The host may write a buffer's bytes (R81): IBUF and PBUF; OBUF and STRBUF ignore the write. -/
def Buf.hostWritable : Buf → Bool
  | .ibuf => true
  | .obuf => false
  | .pbuf => true
  | .strbuf => false

/-- A host byte write (R81, R83). -/
def State.hostWriteByte (s : State) (a : Half) (v : Byte) : Host.Outcome State Fault Refusal :=
  match s.window a with
  | none => .fault (.unmappedAddress a)
  | some (.buffer b) => .next (if b.hostWritable then s.store b (a.toNat - b.base) [v] else s)
  | some _ => .refused (.wrongWidth a)

/-! ### Reads -/

/-- A read returns a word: reads have no side effect on FCV (R91). -/
def State.answer (s : State) (v : Word) : State := { s with readData := v }

/-- A read returns an unspecified word, any value under the mask: a fresh free value each time
(R59, R84, R85; log entry 6). -/
def State.answerFree (s : State) (mask : Word) : State :=
  { s with readData := Config.freeWord s.freeCount &&& mask, freeCount := s.freeCount + 1 }

/-- A host read of register n (R33 to R59). -/
def State.readReg (s : State) (n : Nat) : State :=
  if s.regValid n then s.answer (s.regValue n) else s.answerFree (regMask n)

/-- A host read of a PARAM word (R84): VALUE is unspecified while PRESENT = 0; CTRL is PRESENT. -/
def State.readParam (s : State) (a : Nat) : State :=
  let e := s.paramAt (paramIndex a)
  if a % 8 = 0 then
    if e.present then s.answer e.value else s.answerFree 0xFFFFFFFF
  else s.answer (if e.present then 1 else 0)

/-- A host read of a FIELD word (R85): unspecified while DV = 0 or at and above NFIELDS. -/
def State.readField (s : State) (a : Nat) : State :=
  let k := (a - 0x5000) / 8
  match if s.flag .dV && decide (k < s.nFields) then s.field[k]? else none with
  | some f => s.answer (if a % 8 = 0 then f.value else f.desc)
  | none => s.answerFree 0xFFFFFFFF

/-- A host word read (R81, R82). -/
def State.hostReadWord (s : State) (a : Half) : Host.Outcome State Fault Refusal :=
  match s.window a with
  | none => .fault (.unmappedAddress a)
  | some (.buffer _) => .refused (.wrongWidth a)
  | some w =>
    if a.toNat % 4 ≠ 0 then .refused (.misalignedAccess a)
    else match w with
      | .reg => .next (s.readReg (a.toNat / 4))
      | .param => .next (s.readParam a.toNat)
      | _ => .next (s.readField a.toNat)

/-- A host byte read returns the byte's current content, beyond the valid length too (R83). -/
def State.hostReadByte (s : State) (a : Half) : Host.Outcome State Fault Refusal :=
  match s.window a with
  | none => .fault (.unmappedAddress a)
  | some (.buffer _) => .next (s.answer ((s.readAddr a.toNat).setWidth 32))
  | some _ => .refused (.wrongWidth a)

/-- An access of a width no window has (R82, R83). -/
def State.hostOtherWidth (s : State) (a : Half) : Host.Outcome State Fault Refusal :=
  match s.window a with
  | none => .fault (.unmappedAddress a)
  | some _ => .refused (.wrongWidth a)

/-! ### Serving -/

/-- Serve one host action (R306). -/
def State.serve (s : State) : HostAction → Host.Outcome State Fault Refusal
  | .writeWord a v => s.hostWriteWord a v
  | .readWord a => s.hostReadWord a
  | .writeByte a v => s.hostWriteByte a v
  | .readByte a => s.hostReadByte a
  | .otherWidth a => s.hostOtherWidth a
  | .reset => .next s.resetFrom

/-- Serve the oldest pending host action, in issue order (R92); with none pending, FCV waits (R32). -/
def State.serveNext (s : State) : Host.Outcome State Fault Refusal :=
  match s.port with
  | [] => .next s
  | act :: rest => { s with port := rest }.serve act

/-! ### Placing an instruction for the next step -/

/-- The host action that issues a command word: a write of CMD, host address 0x0000 (R34, R81). -/
def issueAction (w : Word) : HostAction := .writeWord 0x0000 w

/-- Put a command word where the next step takes it: the next host action writes it to CMD. -/
def State.placeCommand (s : State) (w : Word) : State := { s with port := issueAction w :: s.port }

/-- Put a bare type tag where the next step meets it: a schema whose one descriptor holds one field of
that tag on both sides, DSEL selecting it, PARAM[0] present, and the command that walks the tag's
side issued next (DESIGN CHOICE, log entry 9). -/
def State.placeTag (s : State) (tag : Tag) : State :=
  let f : Field := ⟨0, tag⟩
  let t := { (s.setFlag .dSelV).setParam 0 (s.paramAt 0).value with
    params := { s.params with schema := [⟨0, 0, [f], some [f]⟩] }
    dSel := 0 }
  t.placeCommand (match bareTagSide tag with
    | .request => 0x00000007
    | .response => 0x00000008)

/-- Place an opcode-table word of nbits bits for the next step (R126). -/
def State.placeTableWord (s : State) (nbits w : Nat) : State :=
  if nbits ≤ 8 then s.placeTag (BitVec.ofNat 3 w) else s.placeCommand (BitVec.ofNat 32 w)

end Sys2Proof.Machine
end

