-- ==== Sys2Proof/Machine/Step.lean ====
section
/-!
DEFINITION. Sys2Proof/Machine/Step.lean: one step of FCV (R5, R92), and placing an instruction as the
next step's.
-/
namespace Sys2Proof.Machine

/-- One step: FCV serves the oldest pending host action, which executes a command when it writes CMD;
with no action pending it waits (R32, R92, R306). -/
def step (s : State) : Host.Outcome State Fault Refusal := s.serveNext

/-- The state whose very next step runs the opcode-table word (log entries 1 and 9). -/
def State.withFetchWord (s : State) (nbits w : Nat) : State := s.placeTableWord nbits w

end Sys2Proof.Machine
end

