-- ==== Sys2Proof/WellFormed.lean ====
section
/-!
DEFINITION. Sys2Proof/WellFormed.lean: the checks a command word's fields must meet (R101 to R105),
stated apart from the decoder, and the well-formedness of an instruction.
-/
namespace Sys2Proof

/-- R101: RSV must be 0. -/
def CmdFields.rsvOk (f : CmdFields) : Bool := f.rsv == 0

/-- R102: the operation codes are 0x01 to 0x08. -/
def CmdFields.opOk (f : CmdFields) : Bool := 1 ≤ f.op.toNat && f.op.toNat ≤ 8

/-- R103: BSEL is 0, 1 or 2 for CKSUM and 0 for every other OP. -/
def CmdFields.bselOk (f : CmdFields) : Bool := if f.op == 1 then f.bsel != 3 else f.bsel == 0

/-- A command word's fields are legal when every check holds (R104). -/
def CmdFields.wellFormed (f : CmdFields) : Bool := f.rsvOk && f.opOk && f.bselOk

/-- Every instruction is well formed: no row of the table has an operand (R106). -/
def Instr.wellFormed (_ : Instr) : Bool := true

end Sys2Proof
end

