-- ==== Sys2Proof/Safety.lean ====
section
/-!
DEFINITION. Sys2Proof/Safety.lean: the terms the statements use: the machine's invariant, a host that
keeps its access duties, and running a list's element operations one by one.
-/
namespace Sys2Proof

/-- The command rows of the opcode table (R104); the other rows are element operations. -/
def Instr.isCommand : Instr → Bool
  | .cksumIbuf => true
  | .cksumObuf => true
  | .cksumPbuf => true
  | .fenv => true
  | .fenc => true
  | .fext => true
  | .fval => true
  | .pslice => true
  | .fldenc => true
  | .flddec => true
  | .packU8 => false
  | .packU16 => false
  | .packU32 => false
  | .packUnixtime => false
  | .unpackU8 => false
  | .unpackU16 => false
  | .unpackU32 => false
  | .unpackBool => false
  | .unpackAscii => false
  | .unpackUnixtime => false

end Sys2Proof

namespace Sys2Proof.Machine

/-! ### Widths and lists (R118) -/

/-- A tag FLDENC can pack (R118: U8, U16, U32, UNIXTIME). -/
abbrev packable (t : Tag) : Prop := t = 0 ∨ t = 1 ∨ t = 2 ∨ t = 5

/-- The width on the wire of every type but ASCII (R118). -/
def wireWidth (t : Tag) : Nat :=
  if t = 0 then 1 else if t = 1 then 2 else if t = 2 then 4 else if t = 3 then 1
  else if t = 5 then 4 else 0

/-- The total width W of a list without ASCII (R236). -/
def totalWidth (fs : List Field) : Nat := (fs.map fun f => wireWidth f.tag).sum

/-- The parameter of a request field is present and fits its type (R221 to R223). -/
abbrev State.fieldReady (s : State) (f : Field) : Prop :=
  (s.paramAt f.name).present = true ∧ packable f.tag ∧
    (s.paramAt f.name).value.toNat < 256 ^ wireWidth f.tag

/-- The bytes of one ready request field (R222 to R225). -/
def State.fieldBytes (s : State) (f : Field) : List Byte :=
  leBytes (wireWidth f.tag) (s.paramAt f.name).value.toNat

/-- The value an unpack operation other than ASCII's reads at an offset (R228 to R232). -/
def State.unpacked (s : State) (t : Tag) (off : Nat) : Word :=
  if t = 3 then (if s.byte .pbuf off = 0 then 0 else 1)
  else BitVec.ofNat 32 (s.memRead .pbuf off (wireWidth t))

/-- The response list passes FLDDEC's static checks (R227). -/
abbrev staticClean (maxFields : Nat) (fs : List Field) : Prop :=
  fs.length ≤ maxFields ∧ (∀ f ∈ fs, f.tag.toNat ≤ 5 ∧ (f.tag = 4 → fs.length = 1)) ∧
    (fs.map Field.name).Nodup

/-- Every argument register of a list has been written (R283). -/
abbrev State.configured (s : State) (rs : List ArgReg) : Prop := ∀ r ∈ rs, s.flag r.validBit = true

/-! ### The invariant -/

/-- A FIELD entry's VALUE fits its TYPE, and its TYPE is assigned (R65, R118). -/
def FieldEntry.fits (e : FieldEntry) : Prop :=
  match e.type.toNat with
  | 0 => e.value.toNat < 256
  | 1 => e.value.toNat < 65536
  | 2 => True
  | 3 => e.value.toNat ≤ 1
  | 4 => e.value.toNat ≤ 238
  | 5 => True
  | _ => False

/-- VSTAT is a word FVAL writes (R49): reserved bits 0, VALID exactly when bits 11:0 are 0, and SHORT
alone when set. -/
abbrev vstatLegal (v : Word) : Prop :=
  v &&& 0x7FFFC000 = 0 ∧ (v.getLsbD 31 = true ↔ v &&& 0x00000FFF = 0) ∧
    (v.getLsbD 0 = true → v = 0x00000001)

/-- DRES is a word FLDDEC writes (R56, R234): RESKIND 3 never, UNIT with no field, SCALAR with exactly
one, MAP with any other number. -/
abbrev dresLegal (w : Word) (n : Nat) : Prop :=
  (w = dresWord .unit n ∧ n = 0) ∨ (w = dresWord .scalar n ∧ n = 1) ∨ (w = dresWord .map n ∧ n ≠ 1)

/-- What every step keeps: the canonical memory, and every register that only FCV writes at a value the
spec lets it hold. -/
structure State.Inv (s : State) : Prop where
  /-- The memory's canonical form. -/
  memWf : Memory.wf s.mem
  /-- OLEN is 0 or 12..259 (R47). -/
  oLen : s.oLen = 0 ∨ (12 ≤ s.oLen.toNat ∧ s.oLen.toNat ≤ 259)
  /-- ERR is NONE or a code 1..14 (R281). -/
  err : s.err.toNat ≤ 14
  /-- ERRINFO is 0 when the last command completed (R36, R299). -/
  errInfo : s.err = 0 → s.errInfo = 0
  /-- While ESTICKY is 0 no command has raised, so ERR is NONE (R33). -/
  sticky : s.flag .esticky = false → s.err = 0
  /-- STATUS bits 31:13 read 0 (R33). -/
  statusReserved : s.status &&& 0xFFFFE000 = 0
  /-- A valid VSTAT is a word FVAL writes (R49). -/
  vstat : s.flag .vV = true → vstatLegal s.vStat
  /-- A validation without an extraction is SHORT (R163). -/
  short : s.flag .vV = true → s.flag .fxV = false → s.vStat = 0x00000001
  /-- F_RES bits 15:8 read 0 (R54). -/
  fRes : s.flag .fxV = true → s.fRes &&& 0x0000FF00 = 0
  /-- F_TRL's NLEN is a length that was extracted, 21..259 (R55, R162). -/
  fTrl : s.flag .fxV = true → 21 ≤ (s.fTrl >>> 16).toNat ∧ (s.fTrl >>> 16).toNat ≤ 259
  /-- A valid DRES is a word FLDDEC writes (R56, R234). -/
  dres : s.flag .dV = true → dresLegal s.dRes s.nFields
  /-- Its fields stand in FIELD (R65). -/
  nFields : s.flag .dV = true → s.nFields ≤ s.field.length
  /-- STRLEN fits STRBUF (R63, R57). -/
  strLen : s.strLen.toNat ≤ 238
  /-- FIELD has at most MAX_FIELDS entries (R65). -/
  fieldLength : s.field.length ≤ s.params.maxFields
  /-- Every FIELD entry's value fits its type (R65). -/
  fieldFits : ∀ e ∈ s.field, e.fits

/-! ### The host -/

/-- The host keeps its access duties with this action (R307, duties 1 and 2; R82, R83). -/
def State.dutiful (s : State) : HostAction → Prop
  | .writeWord a _ => a.toNat % 4 = 0 ∧ (s.window a = some .reg ∨ s.window a = some .param ∨ s.window a = some .field)
  | .readWord a => a.toNat % 4 = 0 ∧ (s.window a = some .reg ∨ s.window a = some .param ∨ s.window a = some .field)
  | .writeByte a _ => ∃ b, s.window a = some (.buffer b)
  | .readByte a => ∃ b, s.window a = some (.buffer b)
  | .otherWidth _ => False
  | .reset => True

/-- The legal command words (R104). -/
def legalWords : List Word :=
  [0x00000001, 0x00000101, 0x00000201, 0x00000002, 0x00000003, 0x00000004, 0x00000005, 0x00000006,
    0x00000007, 0x00000008]

/-! ### Element operations one by one -/

/-- The next state of an outcome, if there is one. -/
def nextState : Host.Outcome State Fault Refusal → Option State
  | .next t => some t
  | .fault _ => none
  | .refused _ => none

/-- Run the element operation of each request field in turn, on the walk field, each with its name and
its parameter's value as operands (R221). -/
def runRequest : State → List Field → Option State
  | s, [] => some s
  | s, f :: fs =>
    match decodeElement .request f.tag with
    | .error _ => none
    | .ok i =>
      match nextState (exec i { s with
        walk := { s.walk with name := f.name, value := (s.paramAt f.name).value } }) with
      | none => none
      | some t => runRequest t fs

/-- Run the element operation of each response field in turn, on the walk field, collecting the FIELD
entries (R227). -/
def runResponse : State → List Field → Option (State × List FieldEntry)
  | s, [] => some (s, [])
  | s, f :: fs =>
    match decodeElement .response f.tag with
    | .error _ => none
    | .ok i =>
      match nextState (exec i { s with walk := { s.walk with name := f.name } }) with
      | none => none
      | some t =>
        match runResponse t fs with
        | none => none
        | some (u, es) => some (u, ⟨f.name, f.tag, t.walk.value⟩ :: es)

end Sys2Proof.Machine
end

