-- ==== Sys2Proof/Certificates/Slice0/Obligations.lean ====
section
/-!
DEFINITION. Sys2Proof/Certificates/Slice0/Obligations.lean: the statements. `s.readAddr a` is the byte at
host address a (IBUF from 0x1000, OBUF 0x2000, PBUF 0x3000, STRBUF 0x6000), `s.byte b i` byte i of a
buffer, and `{ t with x := s.x } = s` says that t differs from s in x at most.
-/
open Sys2Proof Sys2Proof.Machine

/-! ### Reset -/

/-- R71: the reset value of every piece of state the table gives a value, every validity bit 0, every
PARAM entry absent, the reserved registers 0, and SCHEMA unchanged by reset. -/
def Obligations.ResetStateIsTheTable : Prop :=
  State.reset.cmd = 0 ∧ State.reset.err = 0 ∧ State.reset.errInfo = 0 ∧ State.reset.status = 0 ∧
    State.reset.iLen = 0 ∧ State.reset.oLen = 0 ∧ State.reset.pLen = 0 ∧
    (∀ b : StatusBit, State.reset.flag b = false) ∧
    (∀ n : BitVec 8, (State.reset.paramAt n).present = false) ∧
    (∀ n, 25 ≤ n → n < 64 → State.reset.regValid n = true ∧ State.reset.regValue n = 0) ∧
    ∀ s : State, s.resetFrom.params = s.params

/-- R321: the reset action takes every register, validity bit and table entry to its reset value and
leaves SCHEMA. Which values the registers that are ⊥ hold is the model's choice (log entry 5), and so is what
becomes of the model's own fields, the pending host actions among them (log entries 16 and 19). -/
def Obligations.ResetActionReachesTheResetState : Prop :=
  ∀ (s : State) (rest : List HostAction), s.port = .reset :: rest →
    ∃ t, step s = .next t ∧ t.params = s.params ∧ t.port = rest ∧
      { t with params := State.reset.params, port := [], readData := 0, epoch := 0, freeCount := 0 }
        = State.reset

/-- The invariant holds right after reset. -/
def Obligations.ResetMeetsTheInvariant : Prop := State.reset.Inv

/-! ### Every step -/

/-- Every step keeps the invariant: the canonical memory, OLEN's range (R47), the error codes (R281),
ERRINFO and ESTICKY with ERR (R33, R36), the reserved STATUS, F_RES and DRES bits (R33, R54, R56), VSTAT's
law (R49), NLEN (R55), the result shapes (R234) and the FIELD table (R65). -/
def Obligations.StepKeepsTheInvariant : Prop :=
  ∀ s t : State, s.Inv → step s = .next t → t.Inv

/-- R325: no host action changes SCHEMA (nor MAX_FIELDS). -/
def Obligations.StepKeepsTheSchema : Prop :=
  ∀ s t : State, step s = .next t → t.params = s.params

/-- R32, R306: with no host action pending FCV waits; the step changes nothing. That the pending actions
stand in the state is the model's choice (log entry 1). -/
def Obligations.StepWaitsForTheHost : Prop := ∀ s : State, s.port = [] → step s = .next s

/-- R34: a write of CMD stores the word, and the step is the decoded command's execution on that state. -/
def Obligations.StepRunsTheIssuedCommand : Prop :=
  ∀ (s : State) (w : Word) (rest : List HostAction) (i : Instr),
    s.port = .writeWord 0x0000 w :: rest → decodeCommand w = .ok i → i.wellFormed = true →
      step s = exec i { s with port := rest, cmd := w }

/-- R105, R282: a word outside R104's list raises ILLEGAL_CMD with ERRINFO the word: CMD holds it, ERR is
1, ESTICKY is set, and nothing else changes. -/
def Obligations.IllegalWordRaisesIllegalCmd : Prop :=
  ∀ (s : State) (w : Word) (rest : List HostAction),
    s.port = .writeWord 0x0000 w :: rest → w ∉ legalWords →
      step s = .next { s with
        port := rest, cmd := w, err := 1, errInfo := w, status := s.status ||| 0x00000001 }

/-- R33: what sets and what clears each STATUS bit. Outside reset no bit is cleared but FXV, by an FVAL
with ILEN < 21; ESTICKY is set by a raise, the argument bits by a host write of their register, CKRV by
CKSUM, FXV by FEXT or by FVAL with ILEN at least 21, VV by FVAL and DV by FLDDEC. -/
def Obligations.StatusBitsChangeOnlyAsStated : Prop :=
  ∀ (s t : State) (act : HostAction) (rest : List HostAction),
    s.port = act :: rest → act ≠ .reset → step s = .next t →
    (∀ b, s.flag b = true → t.flag b = false →
      b = .fxV ∧ act = .writeWord 0x0000 0x00000005 ∧ s.iLen.toNat < 21) ∧
    (s.flag .esticky = false → t.flag .esticky = true →
      t.err ≠ 0 ∧ ∃ w, act = .writeWord 0x0000 w) ∧
    (∀ r : ArgReg, s.flag r.validBit = false → t.flag r.validBit = true →
      ∃ v, act = .writeWord (4 * r.number.setWidth 16) v) ∧
    (s.flag .ckrV = false → t.flag .ckrV = true →
      act = .writeWord 0x0000 0x00000001 ∨ act = .writeWord 0x0000 0x00000101 ∨
        act = .writeWord 0x0000 0x00000201) ∧
    (s.flag .fxV = false → t.flag .fxV = true →
      act = .writeWord 0x0000 0x00000004 ∨
        (act = .writeWord 0x0000 0x00000005 ∧ 21 ≤ s.iLen.toNat)) ∧
    (s.flag .vV = false → t.flag .vV = true → act = .writeWord 0x0000 0x00000005) ∧
    (s.flag .dV = false → t.flag .dV = true → act = .writeWord 0x0000 0x00000008)

/-- R330: a PARAM entry stays present until reset or until a word with bit 0 = 0 is written to its own
control word. -/
def Obligations.ParamStaysUntilCleared : Prop :=
  ∀ (s t : State) (act : HostAction) (rest : List HostAction) (n : BitVec 8),
    s.port = act :: rest → act ≠ .reset → step s = .next t →
    (s.paramAt n).present = true → (t.paramAt n).present = false →
      ∃ v : Word, v.getLsbD 0 = false ∧
        act = .writeWord (0x4004 + 8 * n.setWidth 16) v

/-- R96: results are snapshots. A host access that neither writes CMD nor resets leaves every result
register, FIELD, OBUF, STRBUF and every validity bit that is 1 as they are. -/
def Obligations.HostAccessKeepsResults : Prop :=
  ∀ (s t : State) (act : HostAction) (rest : List HostAction),
    s.port = act :: rest → act ≠ .reset → (∀ w, act ≠ .writeWord 0x0000 w) → step s = .next t →
    t.cmd = s.cmd ∧ t.err = s.err ∧ t.errInfo = s.errInfo ∧ t.ckr = s.ckr ∧ t.vStat = s.vStat ∧
      t.fHdr0 = s.fHdr0 ∧ t.fChan = s.fChan ∧ t.fHdr1 = s.fHdr1 ∧ t.fOpc = s.fOpc ∧
      t.fRes = s.fRes ∧ t.fTrl = s.fTrl ∧ t.dRes = s.dRes ∧ t.strLen = s.strLen ∧
      t.field = s.field ∧ t.oLen = s.oLen ∧
      (∀ b, s.flag b = true → t.flag b = true) ∧
      ∀ a, Buf.obuf.holds a = true ∨ Buf.strbuf.holds a = true → t.readAddr a = s.readAddr a

/-! ### The host port -/

/-- R302, R280: a host that keeps its access duties (R307, 1 and 2) is always served: no access and no
command is ever turned away. -/
def Obligations.DutifulHostIsServed : Prop :=
  ∀ (s : State) (act : HostAction) (rest : List HostAction),
    s.port = act :: rest → s.dutiful act → ∃ t, step s = .next t

/-- An access to an unmapped address stops the machine, and so does an access to a word window whose width or
alignment breaks a host duty. That the model stops there is its own choice, which R307 leaves it (log entry
10). The clause that refuses a word access, or one of another width, to a byte window rests on no duty R307
names: it is the model's deduction from R83, that a host access there moves one byte (log entry 11). -/
def Obligations.HostMisuseStops : Prop :=
  ∀ (s : State) (a : Half) (v : Word) (b : Byte) (rest : List HostAction),
    (s.window a = none →
      (∀ act ∈ [HostAction.writeWord a v, .readWord a, .writeByte a b, .readByte a, .otherWidth a],
        s.port = act :: rest → step s = .fault (.unmappedAddress a))) ∧
    (∀ c, s.window a = some (.buffer c) →
      (∀ act ∈ [HostAction.writeWord a v, .readWord a, .otherWidth a],
        s.port = act :: rest → step s = .refused (.wrongWidth a))) ∧
    (s.window a = some .reg ∨ s.window a = some .param ∨ s.window a = some .field →
      (∀ act ∈ [HostAction.writeByte a b, .readByte a, .otherWidth a],
        s.port = act :: rest → step s = .refused (.wrongWidth a)) ∧
      (a.toNat % 4 ≠ 0 → ∀ act ∈ [HostAction.writeWord a v, .readWord a],
        s.port = act :: rest → step s = .refused (.misalignedAccess a)))

/-- R59: a host write of an argument register stores the field's low bits, sets its validity bit, and
changes nothing else. -/
def Obligations.ArgumentWriteStoresAndValidates : Prop :=
  ∀ (s : State) (r : ArgReg) (v : Word) (rest : List HostAction),
    s.port = .writeWord (4 * r.number.setWidth 16) v :: rest →
    ∃ t, step s = .next t ∧
      t.flag r.validBit = true ∧ (∀ b, b ≠ r.validBit → t.flag b = s.flag b) ∧
      t.regValue r.number.toNat = v &&& regMask r.number.toNat ∧
      (∀ n, n ≠ r.number.toNat → n ≠ 3 → t.regValue n = s.regValue n) ∧
      t.port = rest ∧ t.mem = s.mem ∧ t.epoch = s.epoch ∧ t.param = s.param ∧ t.field = s.field ∧
      t.params = s.params ∧ t.readData = s.readData ∧ t.walk = s.walk ∧ t.freeCount = s.freeCount

/-- R46, R48: ILEN and PLEN take any 16-bit value; nothing else changes. -/
def Obligations.LengthWriteStores : Prop :=
  ∀ (s : State) (v : Word) (rest : List HostAction),
    (s.port = .writeWord 0x0034 v :: rest →
      step s = .next { s with port := rest, iLen := v.extractLsb' 0 16 }) ∧
    (s.port = .writeWord 0x003C v :: rest →
      step s = .next { s with port := rest, pLen := v.extractLsb' 0 16 })

/-- R58, R59: a host write to a register marked R is ignored; register numbers 25..63 read 0, and writes to
them are ignored. -/
def Obligations.IgnoredWritesAndReservedRegisters : Prop :=
  ∀ (s : State) (n : Nat) (v : Word) (rest : List HostAction),
    (n ∈ [1, 2, 3, 12, 14, 16, 17, 18, 19, 20, 21, 22, 23, 24] ∨ (25 ≤ n ∧ n < 64) →
      s.port = .writeWord (BitVec.ofNat 16 (4 * n)) v :: rest →
      step s = .next { s with port := rest }) ∧
    (25 ≤ n ∧ n < 64 → s.port = .readWord (BitVec.ofNat 16 (4 * n)) :: rest →
      step s = .next { s with port := rest, readData := 0 })

/-- R91: a host read changes nothing of FCV: only the port, the data it returns and the model's count of
free values (log entries 2 and 6) can differ. -/
def Obligations.HostReadHasNoSideEffect : Prop :=
  ∀ (s t : State) (act : HostAction) (rest : List HostAction),
    s.port = act :: rest → (∃ a, act = .readWord a ∨ act = .readByte a) → step s = .next t →
    { t with port := s.port, readData := s.readData, freeCount := s.freeCount } = s

/-- R59, R92: a host read of a register that holds a value returns it, with the bits above a narrow field
0; a read of a register that is ⊥ completes too, with some value in its assigned bits. The last clause, that
the other bits then read 0, is the model's reading (log entry 7, DEDUCED): R59 says only that the value is
unspecified, and `93_implementation_defined.md` section 2 that reserved bits are stuck at 0. -/
def Obligations.RegisterReadReturnsTheRegister : Prop :=
  ∀ (s : State) (n : Nat) (rest : List HostAction), n < 64 →
    s.port = .readWord (BitVec.ofNat 16 (4 * n)) :: rest →
    ∃ t, step s = .next t ∧ (s.regValid n = true → t.readData = s.regValue n) ∧
      (s.regValid n = false → t.readData &&& ~~~ regMask n = 0)

/-- R83: a host write of a byte of IBUF or PBUF stores that byte and no other; a read of any byte of any
buffer returns its current content, beyond the valid length too; writes to OBUF and STRBUF are ignored
(R81). -/
def Obligations.BufferByteAccess : Prop :=
  ∀ (s : State) (b : Buf) (i : Nat) (v : Byte) (rest : List HostAction), i < b.size →
    (b = .ibuf ∨ b = .pbuf → s.port = .writeByte (BitVec.ofNat 16 (b.base + i)) v :: rest →
      ∃ t, step s = .next t ∧ t.byte b i = v ∧
        (∀ a, a ≠ b.base + i → t.readAddr a = s.readAddr a) ∧
        { t with port := s.port, mem := s.mem } = s) ∧
    (b = .obuf ∨ b = .strbuf → s.port = .writeByte (BitVec.ofNat 16 (b.base + i)) v :: rest →
      step s = .next { s with port := rest }) ∧
    (s.port = .readByte (BitVec.ofNat 16 (b.base + i)) :: rest →
      step s = .next { s with port := rest, readData := (s.byte b i).setWidth 32 })

/-- R84: a write of PARAM[n].VALUE stores the word and sets PRESENT; a write of its CTRL word clears
PRESENT when bit 0 is 0 and does nothing when it is 1; CTRL reads PRESENT, and VALUE reads back while
PRESENT is 1 and as some word while it is 0. -/
def Obligations.ParamWindowAccess : Prop :=
  ∀ (s : State) (n : BitVec 8) (v : Word) (rest : List HostAction),
    (s.port = .writeWord (0x4000 + 8 * n.setWidth 16) v :: rest →
      ∃ t, step s = .next t ∧ t.paramAt n = ⟨true, v⟩ ∧ (∀ m, m ≠ n → t.paramAt m = s.paramAt m) ∧
        { t with port := s.port, param := s.param } = s) ∧
    (s.port = .writeWord (0x4004 + 8 * n.setWidth 16) v :: rest → v.getLsbD 0 = false →
      ∃ t, step s = .next t ∧ (t.paramAt n).present = false ∧
        (∀ m, m ≠ n → t.paramAt m = s.paramAt m) ∧ { t with port := s.port, param := s.param } = s) ∧
    (s.port = .writeWord (0x4004 + 8 * n.setWidth 16) v :: rest → v.getLsbD 0 = true →
      step s = .next { s with port := rest }) ∧
    (s.port = .readWord (0x4004 + 8 * n.setWidth 16) :: rest →
      ∃ t, step s = .next t ∧ t.readData = if (s.paramAt n).present then 1 else 0) ∧
    (s.port = .readWord (0x4000 + 8 * n.setWidth 16) :: rest →
      ∃ t, step s = .next t ∧ ((s.paramAt n).present = true → t.readData = (s.paramAt n).value))

/-- R85: FIELD[k]'s VALUE word and DESC word (NAME in bits 7:0, TYPE in bits 10:8, the rest 0), read while
DV is 1 and k is below NFIELDS; any other entry of the window reads as some word. -/
def Obligations.FieldWindowRead : Prop :=
  ∀ (s : State) (k : Nat) (rest : List HostAction), k < s.params.maxFields →
    (∀ e, s.flag .dV = true → k < s.nFields → s.field[k]? = some e →
      (s.port = .readWord (BitVec.ofNat 16 (0x5000 + 8 * k)) :: rest →
        step s = .next { s with port := rest, readData := e.value }) ∧
      (s.port = .readWord (BitVec.ofNat 16 (0x5004 + 8 * k)) :: rest →
        ∃ t, step s = .next t ∧ t.readData.extractLsb' 0 8 = e.name ∧
          t.readData.extractLsb' 8 3 = e.type ∧ t.readData >>> 11 = 0)) ∧
    (s.flag .dV = false ∨ s.nFields ≤ k →
      s.port = .readWord (BitVec.ofNat 16 (0x5000 + 8 * k)) :: rest ∨
        s.port = .readWord (BitVec.ofNat 16 (0x5004 + 8 * k)) :: rest →
      ∃ t, step s = .next t)

/-! ### Encodings -/

/-- R102, R103, R118: the encodings of the opcode table decode to their instructions, and an encoding that
decodes is its instruction's own: no bit of a command word or of a tag is dropped. -/
def Obligations.DecodeAndEncodeAreInverse : Prop :=
  (∀ i : Instr, i.wellFormed = true → decode (encode i) = .ok i) ∧
    ∀ (e : Encoding) (i : Instr), decode e = .ok i → encode i = e

/-- R104: the legal command words are exactly the ten of the list; they are also the words whose fields
are well formed (R101 to R103). -/
def Obligations.LegalCommandWords : Prop :=
  ∀ w : Word, ((∃ i, decodeCommand w = .ok i) ↔ w ∈ legalWords) ∧
    ((CmdFields.ofWord w).wellFormed = true ↔ w ∈ legalWords)

/-- R102, R103, R118: a few words and tags, written out, decode to the instructions they stand for. -/
def Obligations.TableWordsDecode : Prop :=
  decodeCommand 0x00000001 = .ok .cksumIbuf ∧ decodeCommand 0x00000101 = .ok .cksumObuf ∧
    decodeCommand 0x00000201 = .ok .cksumPbuf ∧ decodeCommand 0x00000002 = .ok .fenv ∧
    decodeCommand 0x00000005 = .ok .fval ∧ decodeCommand 0x00000008 = .ok .flddec ∧
    decodeElement .request 0b001 = .ok .packU16 ∧ decodeElement .response 0b100 = .ok .unpackAscii

/-! ### Little-endian access and the checksum -/

/-- R10, R86: MemRead after MemWrite gives the value back, for every width and offset (R89). -/
def Obligations.MemReadAfterMemWrite : Prop :=
  ∀ (s : State) (b : Buf) (a n v : Nat), v < 256 ^ n →
    (s.store b a (leBytes n v)).memRead b a n = v ∧
      ∀ x, ¬ (b.base + a ≤ x ∧ x < b.base + a + n) →
        (s.store b a (leBytes n v)).readAddr x = s.readAddr x

/-- The table of R143, row by row. -/
def crcTable : List Nat :=
  [0x00, 0x5E, 0xBC, 0xE2, 0x61, 0x3F, 0xDD, 0x83, 0xC2, 0x9C, 0x7E, 0x20, 0xA3, 0xFD, 0x1F, 0x41] ++
  [0x9D, 0xC3, 0x21, 0x7F, 0xFC, 0xA2, 0x40, 0x1E, 0x5F, 0x01, 0xE3, 0xBD, 0x3E, 0x60, 0x82, 0xDC] ++
  [0x23, 0x7D, 0x9F, 0xC1, 0x42, 0x1C, 0xFE, 0xA0, 0xE1, 0xBF, 0x5D, 0x03, 0x80, 0xDE, 0x3C, 0x62] ++
  [0xBE, 0xE0, 0x02, 0x5C, 0xDF, 0x81, 0x63, 0x3D, 0x7C, 0x22, 0xC0, 0x9E, 0x1D, 0x43, 0xA1, 0xFF] ++
  [0x46, 0x18, 0xFA, 0xA4, 0x27, 0x79, 0x9B, 0xC5, 0x84, 0xDA, 0x38, 0x66, 0xE5, 0xBB, 0x59, 0x07] ++
  [0xDB, 0x85, 0x67, 0x39, 0xBA, 0xE4, 0x06, 0x58, 0x19, 0x47, 0xA5, 0xFB, 0x78, 0x26, 0xC4, 0x9A] ++
  [0x65, 0x3B, 0xD9, 0x87, 0x04, 0x5A, 0xB8, 0xE6, 0xA7, 0xF9, 0x1B, 0x45, 0xC6, 0x98, 0x7A, 0x24] ++
  [0xF8, 0xA6, 0x44, 0x1A, 0x99, 0xC7, 0x25, 0x7B, 0x3A, 0x64, 0x86, 0xD8, 0x5B, 0x05, 0xE7, 0xB9] ++
  [0x8C, 0xD2, 0x30, 0x6E, 0xED, 0xB3, 0x51, 0x0F, 0x4E, 0x10, 0xF2, 0xAC, 0x2F, 0x71, 0x93, 0xCD] ++
  [0x11, 0x4F, 0xAD, 0xF3, 0x70, 0x2E, 0xCC, 0x92, 0xD3, 0x8D, 0x6F, 0x31, 0xB2, 0xEC, 0x0E, 0x50] ++
  [0xAF, 0xF1, 0x13, 0x4D, 0xCE, 0x90, 0x72, 0x2C, 0x6D, 0x33, 0xD1, 0x8F, 0x0C, 0x52, 0xB0, 0xEE] ++
  [0x32, 0x6C, 0x8E, 0xD0, 0x53, 0x0D, 0xEF, 0xB1, 0xF0, 0xAE, 0x4C, 0x12, 0x91, 0xCF, 0x2D, 0x73] ++
  [0xCA, 0x94, 0x76, 0x28, 0xAB, 0xF5, 0x17, 0x49, 0x08, 0x56, 0xB4, 0xEA, 0x69, 0x37, 0xD5, 0x8B] ++
  [0x57, 0x09, 0xEB, 0xB5, 0x36, 0x68, 0x8A, 0xD4, 0x95, 0xCB, 0x29, 0x77, 0xF4, 0xAA, 0x48, 0x16] ++
  [0xE9, 0xB7, 0x55, 0x0B, 0x88, 0xD6, 0x34, 0x6A, 0x2B, 0x75, 0x97, 0xC9, 0x4A, 0x14, 0xF6, 0xA8] ++
  [0x74, 0x2A, 0xC8, 0x96, 0x15, 0x4B, 0xA9, 0xF7, 0xB6, 0xE8, 0x0A, 0x54, 0xD7, 0x89, 0x6B, 0x35]

/-- R143: the checksum of every byte string, one table look-up a byte. -/
def Obligations.ChecksumByTable : Prop :=
  ∀ bs : List Byte,
    crc8 bs = bs.foldl (fun c b => BitVec.ofNat 8 (crcTable.getD (c ^^^ b).toNat 0)) 0

/-- R144: the residue law, and its two cases on a frame of N bytes in any buffer. -/
def Obligations.ResidueLaw : Prop :=
  ∀ (s : State) (buf : Buf),
    (∀ a b, a ≤ b → s.byte buf (b + 1) = s.crcRange buf a b → s.crcRange buf a (b + 1) = 0) ∧
    (s.byte buf 9 = s.crcRange buf 1 8 → s.crcRange buf 1 9 = 0) ∧
    ∀ n, 12 ≤ n → s.byte buf (n - 2) = s.crcRange buf 1 (n - 3) → s.crcRange buf 1 (n - 2) = 0

/-- R145: with a correct header checksum the trailing range's checksum is the body's alone. -/
def Obligations.BodyLaw : Prop :=
  ∀ (s : State) (buf : Buf) (n : Nat), 13 ≤ n → s.byte buf 9 = s.crcRange buf 1 8 →
    s.crcRange buf 1 (n - 3) = s.crcRange buf 10 (n - 3)

/-! ### CKSUM -/

/-- The buffer of each CKSUM row (R103). -/
def cksumRows : List (Instr × Buf) := [(.cksumIbuf, .ibuf), (.cksumObuf, .obuf), (.cksumPbuf, .pbuf)]

/-- R142: each CKSUM completes when its range is written, its length register fits its buffer and the range
lies below the valid length; CKR is the checksum of the range's bytes, CKRV is set, ERR and ERRINFO are 0,
and nothing else changes, no byte of memory either. -/
def Obligations.CksumComputesTheRange : Prop :=
  ∀ i buf, (i, buf) ∈ cksumRows → ∀ s : State, s.configured [.cksStart, .cksEnd] →
    s.lengthOf buf ≤ buf.size → s.cksStart.toNat ≤ s.cksEnd.toNat → s.cksEnd.toNat < s.lengthOf buf →
    exec i s = .next { s with
      ckr := crc8 ((List.range (s.cksEnd.toNat + 1 - s.cksStart.toNat)).map
        fun k => s.readAddr (buf.base + (s.cksStart.toNat + k)))
      status := s.status ||| 0x00000200, err := 0, errInfo := 0 }

/-- R142, R283 to R285: what each CKSUM raises, in order. -/
def Obligations.CksumRaises : Prop :=
  ∀ i buf, (i, buf) ∈ cksumRows → ∀ s : State,
    (s.flag .cksSV = false → exec i s = .next (s.raise .notConfigured 10)) ∧
    (s.flag .cksSV = true → s.flag .cksEV = false → exec i s = .next (s.raise .notConfigured 11)) ∧
    (s.configured [.cksStart, .cksEnd] → buf.size < s.lengthOf buf →
      exec i s = .next (s.raise .badLength buf.lengthReg)) ∧
    (s.configured [.cksStart, .cksEnd] → s.lengthOf buf ≤ buf.size →
      s.cksEnd.toNat < s.cksStart.toNat ∨ s.lengthOf buf ≤ s.cksEnd.toNat →
      exec i s = .next (s.raise .badRange (infoPair s.cksStart.toNat s.cksEnd.toNat)))

/-! ### Building frames -/

/-- The bytes every built frame of N bytes has, in OBUF (R110, R111, R117, R141). -/
def envelopeIn (t : State) (n : Nat) (chan : Word) (link : Byte) : Prop :=
  t.oLen.toNat = n ∧ t.byte .obuf 0 = 0x02 ∧ t.byte .obuf 1 = 0xFD ∧
    (t.byte .obuf 2).toNat = n - 4 ∧ t.byte .obuf 3 = 0x00 ∧
    t.memRead .obuf 4 4 = chan.toNat ∧ t.byte .obuf 8 = link ∧
    t.byte .obuf 9 = t.crcRange .obuf 1 8 ∧
    t.byte .obuf (n - 2) = t.crcRange .obuf 1 (n - 3) ∧ t.byte .obuf (n - 1) = 0x03

/-- What building a frame of n bytes changes: OBUF[0 .. n-1], OLEN, ERR and ERRINFO, and nothing else. -/
def builtOnly (s t : State) (n : Nat) : Prop :=
  t.err = 0 ∧ t.errInfo = 0 ∧
    { t with mem := s.mem, oLen := s.oLen, err := s.err, errInfo := s.errInfo } = s ∧
    ∀ a, ¬ (Buf.obuf.base + 0 ≤ a ∧ a < Buf.obuf.base + 0 + n) → t.readAddr a = s.readAddr a

/-- R160: FENV completes when ECHAN and ELINK are written and PLEN is at most 247: OBUF holds the envelope of
ECHAN and ELINK around the body PBUF[0 .. PLEN-1], OLEN is PLEN + 12, and nothing else changes. -/
def Obligations.FenvBuildsTheEnvelope : Prop :=
  ∀ s : State, s.configured [.eChan, .eLink] → s.pLen.toNat ≤ 247 →
    ∃ t, exec .fenv s = .next t ∧ envelopeIn t (s.pLen.toNat + 12) s.eChan s.eLink ∧
      (∀ i, i < s.pLen.toNat → t.byte .obuf (10 + i) = s.byte .pbuf i) ∧
      builtOnly s t (s.pLen.toNat + 12)

/-- R161, R112: FENC completes when CHAN, OPMAJ and OPMIN are written and PLEN is at most 239: OBUF holds the
request frame of CHAN with link flag 1, packet type 0, marker 0xAF, the opcode, the reserved byte 0, the
length PLEN and the payload PBUF[0 .. PLEN-1], OLEN is PLEN + 20, and nothing else changes. -/
def Obligations.FencBuildsTheRequest : Prop :=
  ∀ s : State, s.configured [.chan, .opMaj, .opMin] → s.pLen.toNat ≤ 239 →
    ∃ t, exec .fenc s = .next t ∧ envelopeIn t (s.pLen.toNat + 20) s.chan 0x01 ∧
      t.byte .obuf 10 = 0x00 ∧ t.byte .obuf 11 = 0xAF ∧
      t.memRead .obuf 12 2 = s.opMaj.toNat ∧ t.byte .obuf 14 = s.opMin ∧ t.byte .obuf 15 = 0x00 ∧
      t.memRead .obuf 16 2 = s.pLen.toNat ∧ t.byte .obuf 17 = 0x00 ∧
      (∀ i, i < s.pLen.toNat → t.byte .obuf (18 + i) = s.byte .pbuf i) ∧
      builtOnly s t (s.pLen.toNat + 20)

/-- R160, R161, R163, R283, R284, R286: what FENV and FENC raise, in order, and the NOT_CONFIGURED of the three
commands FENV, FENC and FVAL: the first argument register that is unwritten. -/
def Obligations.FrameCommandsRaise : Prop :=
  ∀ s : State,
    (s.flag .eChanV = false → exec .fenv s = .next (s.raise .notConfigured 7)) ∧
    (s.flag .eChanV = true → s.flag .eLinkV = false →
      exec .fenv s = .next (s.raise .notConfigured 8)) ∧
    (s.configured [.eChan, .eLink] →
      (255 < s.pLen.toNat → exec .fenv s = .next (s.raise .badLength 15)) ∧
      (247 < s.pLen.toNat → s.pLen.toNat ≤ 255 →
        exec .fenv s = .next (s.raise .encodingError (s.pLen.setWidth 32)))) ∧
    (∀ i, i = .fenc ∨ i = .fval →
      (s.flag .chanV = false → exec i s = .next (s.raise .notConfigured 4)) ∧
      (s.flag .chanV = true → s.flag .opMajV = false →
        exec i s = .next (s.raise .notConfigured 5)) ∧
      (s.flag .chanV = true → s.flag .opMajV = true → s.flag .opMinV = false →
        exec i s = .next (s.raise .notConfigured 6))) ∧
    (s.configured [.chan, .opMaj, .opMin] →
      (255 < s.pLen.toNat → exec .fenc s = .next (s.raise .badLength 15)) ∧
      (239 < s.pLen.toNat → s.pLen.toNat ≤ 255 →
        exec .fenc s = .next (s.raise .encodingError (s.pLen.setWidth 32))))

/-- R166: FENC writes the OBUF and OLEN that FENV writes for ECHAN = CHAN, ELINK = 1 and the body that is
the command header followed by the payload. -/
def Obligations.FencIsFenvOfTheCommandBody : Prop :=
  ∀ s u : State, s.configured [.chan, .opMaj, .opMin] → u.configured [.eChan, .eLink] →
    s.pLen.toNat ≤ 239 → u.pLen.toNat = s.pLen.toNat + 8 → u.eChan = s.chan → u.eLink = 0x01 →
    u.byte .pbuf 0 = 0x00 → u.byte .pbuf 1 = 0xAF → u.memRead .pbuf 2 2 = s.opMaj.toNat →
    u.byte .pbuf 4 = s.opMin → u.byte .pbuf 5 = 0x00 → u.memRead .pbuf 6 2 = s.pLen.toNat →
    (∀ i, i < s.pLen.toNat → u.byte .pbuf (8 + i) = s.byte .pbuf i) →
    ∃ t v, exec .fenc s = .next t ∧ exec .fenv u = .next v ∧ t.oLen = v.oLen ∧
      ∀ i, i < t.oLen.toNat → t.byte .obuf i = v.byte .obuf i

/-- R144, R160, R161: after FENV or FENC builds a frame of N bytes, CKSUM over OBUF[1 .. N-2] completes with
CKR = 0, as does CKSUM over OBUF[1 .. 9] (the programs of `95_test_vectors.md` rely on it). -/
def Obligations.BuiltFrameHasZeroResidue : Prop :=
  ∀ (i : Instr) (s t : State), i = .fenv ∨ i = .fenc → exec i s = .next t → t.err = 0 →
    ∀ e : Half, e.toNat = 9 ∨ e.toNat = t.oLen.toNat - 2 →
      ∃ u, exec .cksumObuf ((t.writeArg .cksStart 1).writeArg .cksEnd (e.setWidth 32)) = .next u ∧
        u.err = 0 ∧ u.ckr = 0

/-! ### Parsing and validating -/

/-- The six extraction registers describe the frame of n bytes that IBUF held in s (R50 to R55, R162). -/
def extractionOf (s t : State) (n : Nat) : Prop :=
  t.fHdr0.extractLsb' 0 8 = s.byte .ibuf 0 ∧ t.fHdr0.extractLsb' 8 8 = s.byte .ibuf 1 ∧
    t.fHdr0.extractLsb' 16 8 = s.byte .ibuf 2 ∧ t.fHdr0.extractLsb' 24 8 = s.byte .ibuf 3 ∧
    t.fChan.toNat = s.memRead .ibuf 4 4 ∧
    t.fHdr1.extractLsb' 0 8 = s.byte .ibuf 8 ∧ t.fHdr1.extractLsb' 8 8 = s.byte .ibuf 9 ∧
    t.fHdr1.extractLsb' 16 8 = s.byte .ibuf 10 ∧ t.fHdr1.extractLsb' 24 8 = s.byte .ibuf 11 ∧
    (t.fOpc.extractLsb' 0 16).toNat = s.memRead .ibuf 12 2 ∧
    t.fOpc.extractLsb' 16 8 = s.byte .ibuf 14 ∧ t.fOpc.extractLsb' 24 8 = s.byte .ibuf 15 ∧
    t.fRes.extractLsb' 0 8 = s.byte .ibuf 16 ∧ t.fRes.extractLsb' 8 8 = 0 ∧
    (t.fRes.extractLsb' 16 16).toNat = s.memRead .ibuf 17 2 ∧
    t.fTrl.extractLsb' 0 8 = s.byte .ibuf (n - 2) ∧ t.fTrl.extractLsb' 8 8 = s.byte .ibuf (n - 1) ∧
    (t.fTrl.extractLsb' 16 16).toNat = n

/-- R162: FEXT completes when ILEN is 21..259: the extraction registers describe the frame, FXV is set, and
nothing else changes, no byte of memory either. -/
def Obligations.FextExtractsTheFields : Prop :=
  ∀ s : State, 21 ≤ s.iLen.toNat → s.iLen.toNat ≤ 259 →
    ∃ t, exec .fext s = .next t ∧ extractionOf s t s.iLen.toNat ∧
      t.flag .fxV = true ∧ (∀ b, b ≠ .fxV → t.flag b = s.flag b) ∧ t.err = 0 ∧ t.errInfo = 0 ∧
      { t with
        fHdr0 := s.fHdr0, fChan := s.fChan, fHdr1 := s.fHdr1, fOpc := s.fOpc, fRes := s.fRes
        fTrl := s.fTrl, status := s.status, err := s.err, errInfo := s.errInfo } = s

/-- R287: SHORT_FRAME is raised by FEXT and PSLICE when ILEN < 21; FVAL never raises it. -/
def Obligations.ShortFrameIsRaised : Prop :=
  ∀ s : State,
    (s.iLen.toNat < 21 →
      exec .fext s = .next (s.raise .shortFrame (s.iLen.setWidth 32)) ∧
      exec .pslice s = .next (s.raise .shortFrame (s.iLen.setWidth 32))) ∧
    ∃ t, exec .fval s = .next t ∧ t.err ≠ 6 ∧
      (s.configured [.chan, .opMaj, .opMin] → s.iLen.toNat < 21 → t.vStat = 0x00000001)

/-- R284: a length register beyond its buffer's size is BAD_LENGTH with the register's number, 13 or 15, in
every command that reads it, once its argument registers are written. -/
def Obligations.LengthBeyondTheBufferIsRaised : Prop :=
  ∀ s : State,
    (259 < s.iLen.toNat →
      exec .fext s = .next (s.raise .badLength 13) ∧ exec .pslice s = .next (s.raise .badLength 13) ∧
      (s.configured [.chan, .opMaj, .opMin] → exec .fval s = .next (s.raise .badLength 13)) ∧
      (s.configured [.cksStart, .cksEnd] → exec .cksumIbuf s = .next (s.raise .badLength 13))) ∧
    (255 < s.pLen.toNat →
      (s.configured [.eChan, .eLink] → exec .fenv s = .next (s.raise .badLength 15)) ∧
      (s.configured [.chan, .opMaj, .opMin] → exec .fenc s = .next (s.raise .badLength 15)) ∧
      (s.configured [.dSel] → exec .flddec s = .next (s.raise .badLength 15)) ∧
      (s.configured [.cksStart, .cksEnd] → exec .cksumPbuf s = .next (s.raise .badLength 15)))

/-- R163: FVAL of a short frame completes with VSTAT = SHORT alone, VV set and FXV cleared; nothing else
changes. R163 says that F_HDR0..F_TRL become ⊥ there; the part of the frame clause that says they keep their
content behind the clear FXV is the model's (log entry 15, DEDUCED). -/
def Obligations.FvalReportsAShortFrame : Prop :=
  ∀ s : State, s.configured [.chan, .opMaj, .opMin] → s.iLen.toNat < 21 →
    ∃ t, exec .fval s = .next t ∧ t.vStat = 0x00000001 ∧ t.flag .vV = true ∧ t.flag .fxV = false ∧
      (∀ b, b ≠ .vV → b ≠ .fxV → t.flag b = s.flag b) ∧ t.err = 0 ∧ t.errInfo = 0 ∧
      { t with vStat := s.vStat, status := s.status, err := s.err, errInfo := s.errInfo } = s

/-- R49, R163: FVAL of a frame of 21..259 bytes completes whatever the frame holds. Each VSTAT bit 1..13 says
that its check failed, SHORT and bits 30:14 are 0, VALID is 1 exactly when bits 11:0 are 0, the extraction
registers describe the frame as FEXT would, VV and FXV are set, and nothing else changes. -/
def Obligations.FvalReportsEachCheck : Prop :=
  ∀ s : State, s.configured [.chan, .opMaj, .opMin] → 21 ≤ s.iLen.toNat → s.iLen.toNat ≤ 259 →
    ∃ t, exec .fval s = .next t ∧
      (∀ i, (t.vStat.getLsbD i = true ↔
        (i = 1 ∧ s.byte .ibuf 0 ≠ 0x02) ∨
        (i = 2 ∧ s.byte .ibuf 1 ≠ 0xFD) ∨
        (i = 3 ∧ (s.byte .ibuf 2).toNat ≠ s.iLen.toNat - 4) ∨
        (i = 4 ∧ s.memRead .ibuf 4 4 ≠ s.chan.toNat) ∨
        (i = 5 ∧ s.byte .ibuf 9 ≠ s.crcRange .ibuf 1 8) ∨
        (i = 6 ∧ s.byte .ibuf 10 ≠ 0x01) ∨
        (i = 7 ∧ s.byte .ibuf 11 ≠ 0xAF) ∨
        (i = 8 ∧ (s.memRead .ibuf 12 2 ≠ s.opMaj.toNat ∨ s.byte .ibuf 14 ≠ s.opMin)) ∨
        (i = 9 ∧ s.byte .ibuf 16 ≠ 0x00) ∨
        (i = 10 ∧ s.byte .ibuf (s.iLen.toNat - 2) ≠ s.crcRange .ibuf 1 (s.iLen.toNat - 3)) ∨
        (i = 11 ∧ s.byte .ibuf (s.iLen.toNat - 1) ≠ 0x03) ∨
        (i = 12 ∧ (s.byte .ibuf 3 ≠ 0x00 ∨ s.byte .ibuf 15 ≠ 0x00)) ∨
        (i = 13 ∧ 19 + s.memRead .ibuf 17 2 + 2 ≠ s.iLen.toNat) ∨
        (i = 31 ∧ ∀ j, j ≤ 11 → t.vStat.getLsbD j = false))) ∧
      extractionOf s t s.iLen.toNat ∧ t.flag .vV = true ∧ t.flag .fxV = true ∧
      (∀ b, b ≠ .vV → b ≠ .fxV → t.flag b = s.flag b) ∧ t.err = 0 ∧ t.errInfo = 0 ∧
      { t with
        vStat := s.vStat, fHdr0 := s.fHdr0, fChan := s.fChan, fHdr1 := s.fHdr1
        fOpc := s.fOpc, fRes := s.fRes, fTrl := s.fTrl, status := s.status, err := s.err
        errInfo := s.errInfo } = s

/-- R165, R69: PSLICE completes when ILEN is 21..259 and the declared payload of P bytes ends before the
trailer, whatever VSTAT says: PBUF[0 .. P-1] is IBUF[19 .. 18+P], PLEN is P, and nothing else changes. -/
def Obligations.PsliceCopiesThePayload : Prop :=
  ∀ s : State, 21 ≤ s.iLen.toNat → s.iLen.toNat ≤ 259 →
    19 + s.memRead .ibuf 17 2 ≤ s.iLen.toNat - 2 →
    ∃ t, exec .pslice s = .next t ∧ t.pLen.toNat = s.memRead .ibuf 17 2 ∧
      (∀ i, i < s.memRead .ibuf 17 2 → t.byte .pbuf i = s.byte .ibuf (19 + i)) ∧
      (∀ a, ¬ (Buf.pbuf.base + 0 ≤ a ∧ a < Buf.pbuf.base + 0 + s.memRead .ibuf 17 2) →
        t.readAddr a = s.readAddr a) ∧
      t.err = 0 ∧ t.errInfo = 0 ∧
      { t with mem := s.mem, pLen := s.pLen, err := s.err, errInfo := s.errInfo } = s

/-- R288: TRUNCATED_PAYLOAD is raised by PSLICE when 19 + P > ILEN - 2, with P the declared length. -/
def Obligations.TruncatedPayloadIsRaised : Prop :=
  ∀ s : State, 21 ≤ s.iLen.toNat → s.iLen.toNat ≤ 259 →
    s.iLen.toNat - 2 < 19 + s.memRead .ibuf 17 2 →
    exec .pslice s = .next (s.raise .truncatedPayload (BitVec.ofNat 32 (s.memRead .ibuf 17 2)))

/-! ### FLDENC -/

/-- R221 to R225: FLDENC completes when DSEL selects a descriptor whose request fields are all ready (present,
of a type that packs, in range) and take at most 255 bytes: PBUF starts with the fields' little-endian
bytes in list order, PLEN is their number, and nothing else changes. -/
def Obligations.FldencPacksTheFields : Prop :=
  ∀ (s : State) (desc : Descriptor), s.configured [.dSel] →
    s.params.schema[s.dSel.toNat]? = some desc → (∀ f ∈ desc.req, s.fieldReady f) →
    totalWidth desc.req ≤ 255 →
    ∃ t, exec .fldenc s = .next t ∧ t.pLen.toNat = totalWidth desc.req ∧
      t.bytes .pbuf 0 (totalWidth desc.req) = desc.req.flatMap s.fieldBytes ∧
      (∀ a, ¬ (Buf.pbuf.base + 0 ≤ a ∧ a < Buf.pbuf.base + 0 + totalWidth desc.req) →
        t.readAddr a = s.readAddr a) ∧
      t.err = 0 ∧ t.errInfo = 0 ∧
      { t with mem := s.mem, pLen := s.pLen, err := s.err, errInfo := s.errInfo } = s

/-- R221, R226, R290 to R292, R297: the first request field that is not ready decides FLDENC's error: absent,
MISSING_PARAMETER; present and out of its type's range, FIELD_RANGE; present and of a type that does not
pack, SCHEMA_ERROR with its index. -/
def Obligations.FldencReportsTheFirstBadField : Prop :=
  ∀ (s : State) (desc : Descriptor) (pre post : List Field) (f : Field), s.configured [.dSel] →
    s.params.schema[s.dSel.toNat]? = some desc → desc.req = pre ++ f :: post →
    (∀ g ∈ pre, s.fieldReady g) →
    ((s.paramAt f.name).present = false →
      exec .fldenc s = .next (s.raise .missingParameter (infoPair f.name.toNat s.dSel.toNat))) ∧
    ((s.paramAt f.name).present = true → packable f.tag →
      256 ^ wireWidth f.tag ≤ (s.paramAt f.name).value.toNat →
      exec .fldenc s = .next (s.raise .fieldRange (infoPair f.name.toNat s.dSel.toNat))) ∧
    ((s.paramAt f.name).present = true → ¬ packable f.tag →
      exec .fldenc s = .next (s.raise .schemaError (infoPair pre.length s.dSel.toNat)))

/-- R220, R221, R227, R283, R289, R294: the errors of FLDENC and FLDDEC that depend on DSEL: NOT_CONFIGURED(9)
when it is unwritten, UNKNOWN_COMMAND when it names no descriptor (for FLDDEC, with PLEN within PBUF); and
FLDENC's BUFFER_OVERFLOW when the ready request fields take more than 255 bytes. -/
def Obligations.FieldCommandsRaise : Prop :=
  ∀ s : State,
    (∀ i, i = .fldenc ∨ i = .flddec →
      (s.flag .dSelV = false → exec i s = .next (s.raise .notConfigured 9)) ∧
      (s.flag .dSelV = true → (i = .flddec → s.pLen.toNat ≤ 255) → s.params.ndesc ≤ s.dSel.toNat →
        exec i s = .next (s.raise .unknownCommand (s.dSel.setWidth 32)))) ∧
    (∀ desc, s.flag .dSelV = true → s.params.schema[s.dSel.toNat]? = some desc →
      (∀ f ∈ desc.req, s.fieldReady f) → 255 < totalWidth desc.req →
      exec .fldenc s = .next (s.raise .bufferOverflow (BitVec.ofNat 32 (totalWidth desc.req))))

/-! ### FLDDEC -/

/-- What a completed decode changes: DRES, FIELD, STRLEN, STRBUF[0 .. len-1], DV, ERR and ERRINFO. -/
def decodedOnly (s t : State) (len : Nat) : Prop :=
  t.flag .dV = true ∧ (∀ b, b ≠ .dV → t.flag b = s.flag b) ∧ t.err = 0 ∧ t.errInfo = 0 ∧
    { t with
      dRes := s.dRes, field := s.field, strLen := s.strLen, mem := s.mem, status := s.status
      err := s.err, errInfo := s.errInfo } = s ∧
    ∀ a, ¬ (Buf.strbuf.base + 0 ≤ a ∧ a < Buf.strbuf.base + 0 + len) → t.readAddr a = s.readAddr a

/-- FLDDEC is run on this response part, with DSEL written and PLEN within PBUF (R220, R227). -/
def decoding (s : State) (resp : Option (List Field)) : Prop :=
  s.configured [.dSel] ∧ s.pLen.toNat ≤ 255 ∧
    ∃ desc, s.params.schema[s.dSel.toNat]? = some desc ∧ desc.resp = resp

/-- R227, R234: a NONE response completes on an empty payload as UNIT, with no field and STRLEN 0, and is a
LENGTH_MISMATCH on any other. -/
def Obligations.FlddecOfNone : Prop :=
  ∀ s : State, decoding s none →
    (s.pLen.toNat = 0 → ∃ t, exec .flddec s = .next t ∧ t.dRes = 0 ∧ t.strLen = 0 ∧
      t.field = s.field ∧ decodedOnly s t 0) ∧
    (s.pLen.toNat ≠ 0 → exec .flddec s = .next (s.raise .lengthMismatch (infoPair 0 s.pLen.toNat)))

/-- R227 to R232, R234: FLDDEC of a list that passes the static checks, has no ASCII field and has exactly PLEN
as its total width completes: FIELD[k] holds the k-th field's name, type and value, read at the sum of the
widths before it; NFIELDS is the list's length, RESKIND SCALAR for one field and MAP for any other number,
STRLEN 0; later FIELD entries, every byte of memory and everything else stay. -/
def Obligations.FlddecUnpacksTheFields : Prop :=
  ∀ (s : State) (fs : List Field), decoding s (some fs) → staticClean s.params.maxFields fs →
    (∀ f ∈ fs, f.tag ≠ 4) → s.pLen.toNat = totalWidth fs →
    ∃ t, exec .flddec s = .next t ∧
      (∀ pre f post, fs = pre ++ f :: post →
        t.field[pre.length]? = some ⟨f.name, f.tag, s.unpacked f.tag (totalWidth pre)⟩) ∧
      (∀ k, fs.length ≤ k → t.field[k]? = s.field[k]?) ∧
      t.dRes.extractLsb' 0 2 = (if fs.length = 1 then 1 else 2) ∧ t.nFields = fs.length ∧
      t.strLen = 0 ∧ decodedOnly s t 0

/-- R233, R234: FLDDEC of a sole ASCII field, where e is the payload's length without its trailing NULs. The
lowest byte at or above 0x80 below e is a CHARSET_ERROR; else e above 238 is a BUFFER_OVERFLOW; else the
decode completes: STRBUF[0 .. e-1] is PBUF[0 .. e-1], STRLEN and the field's VALUE are e, RESKIND SCALAR. -/
def Obligations.FlddecOfAscii : Prop :=
  ∀ (s : State) (n : BitVec 8) (e : Nat), decoding s (some [⟨n, 4⟩]) → e ≤ s.pLen.toNat →
    (∀ i, e ≤ i → i < s.pLen.toNat → s.byte .pbuf i = 0) → (e = 0 ∨ s.byte .pbuf (e - 1) ≠ 0) →
    (∀ i, i < e → 0x80 ≤ (s.byte .pbuf i).toNat → (∀ j, j < i → (s.byte .pbuf j).toNat < 0x80) →
      exec .flddec s = .next (s.raise .charsetError (BitVec.ofNat 32 i))) ∧
    ((∀ i, i < e → (s.byte .pbuf i).toNat < 0x80) →
      (238 < e → exec .flddec s = .next (s.raise .bufferOverflow (BitVec.ofNat 32 e))) ∧
      (e ≤ 238 → ∃ t, exec .flddec s = .next t ∧
        (∀ i, i < e → t.byte .strbuf i = s.byte .pbuf i) ∧ t.strLen.toNat = e ∧
        t.field[0]? = some ⟨n, 4, BitVec.ofNat 32 e⟩ ∧ (∀ k, 1 ≤ k → t.field[k]? = s.field[k]?) ∧
        t.dRes = 0x00000101 ∧ decodedOnly s t e))

/-- R236: the strict length law. A list that passes the static checks and has no ASCII field, of total width W,
decodes exactly when PLEN = W; with fewer bytes it is LENGTH_MISMATCH with the end offset of the first field
that did not fit, with more LENGTH_MISMATCH(W | PLEN << 16). A sole ASCII field is never a LENGTH_MISMATCH. -/
def Obligations.StrictLengthLaw : Prop :=
  ∀ s : State,
    (∀ fs : List Field, decoding s (some fs) → staticClean s.params.maxFields fs →
      (∀ f ∈ fs, f.tag ≠ 4) →
      ((∃ t, exec .flddec s = .next t ∧ t.err = 0) ↔ s.pLen.toNat = totalWidth fs) ∧
      (∀ pre f post, fs = pre ++ f :: post → totalWidth pre ≤ s.pLen.toNat →
        s.pLen.toNat < totalWidth pre + wireWidth f.tag →
        exec .flddec s = .next
          (s.raise .lengthMismatch (infoPair (totalWidth pre + wireWidth f.tag) s.pLen.toNat))) ∧
      (totalWidth fs < s.pLen.toNat →
        exec .flddec s = .next (s.raise .lengthMismatch (infoPair (totalWidth fs) s.pLen.toNat)))) ∧
    ∀ n : BitVec 8, decoding s (some [⟨n, 4⟩]) → ∃ t, exec .flddec s = .next t ∧ t.err ≠ 12

/-- R227, R291: FLDDEC's static checks come before any byte is read: a list longer than MAX_FIELDS is
SCHEMA_ERROR with k = MAX_FIELDS; else the first field with a reserved tag, an ASCII tag in a longer list or
a name already seen is SCHEMA_ERROR with its index. -/
def Obligations.FlddecReportsSchemaErrors : Prop :=
  ∀ (s : State) (fs : List Field), decoding s (some fs) →
    (s.params.maxFields < fs.length →
      exec .flddec s = .next (s.raise .schemaError (infoPair s.params.maxFields s.dSel.toNat))) ∧
    (fs.length ≤ s.params.maxFields → ∀ pre f post, fs = pre ++ f :: post →
      (∀ g ∈ pre, g.tag.toNat ≤ 5 ∧ (g.tag = 4 → fs.length = 1)) → (pre.map Field.name).Nodup →
      (5 < f.tag.toNat ∨ (f.tag = 4 ∧ fs.length ≠ 1) ∨ f.name ∈ pre.map Field.name) →
      exec .flddec s = .next (s.raise .schemaError (infoPair pre.length s.dSel.toNat)))

/-- R235: the round-trip law. With a request list L of descriptor d1 that is the response list of descriptor d2,
distinct names, packable types, at most MAX_FIELDS fields of at most 255 bytes together, every parameter
present and in range: FLDENC under d1 and then FLDDEC under d2 both complete, and FIELD[k] is the k-th
field's name, type and parameter value. -/
def Obligations.RoundTripLaw : Prop :=
  ∀ (s : State) (l : List Field) (d2 : Half) (desc1 desc2 : Descriptor), s.configured [.dSel] →
    s.params.schema[s.dSel.toNat]? = some desc1 → desc1.req = l →
    s.params.schema[d2.toNat]? = some desc2 → desc2.resp = some l →
    (l.map Field.name).Nodup → l.length ≤ s.params.maxFields → (∀ f ∈ l, s.fieldReady f) →
    totalWidth l ≤ 255 →
    ∃ t u, exec .fldenc s = .next t ∧ t.err = 0 ∧ exec .flddec { t with dSel := d2 } = .next u ∧
      u.err = 0 ∧ u.nFields = l.length ∧
      ∀ k (h : k < l.length),
        u.field[k]? = some ⟨l[k].name, l[k].tag, (s.paramAt l[k].name).value⟩

/-! ### Element operations -/

/-- R222 to R225: each pack operation, run by itself on the walk's operands (name n, value v, descriptor d),
appends its little-endian bytes to the walk's output when v fits, and raises FIELD_RANGE(n | d << 16) when
it does not; nothing else changes. That an element operation stands alone on a walk held in the state is
the model's choice (log entry 8). -/
def Obligations.PackOperations : Prop :=
  ∀ s : State,
    (∀ (i : Instr) (width : Nat),
      (i, width) ∈ [(Instr.packU8, 1), (.packU16, 2), (.packU32, 4), (.packUnixtime, 4)] →
      (s.walk.value.toNat < 256 ^ width →
        exec i s = .next { s with
          walk := { s.walk with out := s.walk.out ++ leBytes width s.walk.value.toNat } }) ∧
      (256 ^ width ≤ s.walk.value.toNat →
        exec i s = .next (s.raise .fieldRange (infoPair s.walk.name.toNat s.walk.desc.toNat))))

/-- R228 to R232: each fixed-width unpack operation, run by itself at the walk's offset, puts the value it reads
in the walk and moves the offset by its width when PLEN allows, and else raises LENGTH_MISMATCH with the
offset it needed; nothing else changes. That an element operation stands alone on a walk held in the state
is the model's choice (log entry 8). -/
def Obligations.UnpackOperations : Prop :=
  ∀ s : State,
    (∀ (i : Instr) (tag : Tag),
      (i, tag) ∈ [(Instr.unpackU8, (0 : Tag)), (.unpackU16, 1), (.unpackU32, 2), (.unpackBool, 3),
        (.unpackUnixtime, 5)] →
      (s.walk.off + wireWidth tag ≤ s.pLen.toNat →
        exec i s = .next { s with walk := { s.walk with
          value := s.unpacked tag s.walk.off, off := s.walk.off + wireWidth tag } }) ∧
      (s.pLen.toNat < s.walk.off + wireWidth tag →
        exec i s = .next
          (s.raise .lengthMismatch (infoPair (s.walk.off + wireWidth tag) s.pLen.toNat))))

/-- R233: UNPACK_ASCII, run by itself at the walk's offset off, where e is the end of the payload without its
trailing NULs: a 7-bit string of at most 238 bytes completes with the string and its length in the walk and
the offset at PLEN; else CHARSET_ERROR at the lowest byte at or above 0x80, or BUFFER_OVERFLOW. That an
element operation stands alone on a walk held in the state is the model's choice (log entry 8). -/
def Obligations.UnpackAsciiOperation : Prop :=
  ∀ (s : State) (e : Nat), s.walk.off ≤ e → e ≤ s.pLen.toNat →
    (∀ i, e ≤ i → i < s.pLen.toNat → s.byte .pbuf i = 0) →
    (e = s.walk.off ∨ s.byte .pbuf (e - 1) ≠ 0) →
    (∀ i, s.walk.off ≤ i → i < e → 0x80 ≤ (s.byte .pbuf i).toNat →
      (∀ j, s.walk.off ≤ j → j < i → (s.byte .pbuf j).toNat < 0x80) →
      exec .unpackAscii s = .next (s.raise .charsetError (BitVec.ofNat 32 i))) ∧
    ((∀ i, s.walk.off ≤ i → i < e → (s.byte .pbuf i).toNat < 0x80) →
      (e - s.walk.off ≤ 238 → exec .unpackAscii s = .next { s with walk := { s.walk with
        value := BitVec.ofNat 32 (e - s.walk.off), off := s.pLen.toNat
        str := s.bytes .pbuf s.walk.off (e - s.walk.off) } }) ∧
      (238 < e - s.walk.off → exec .unpackAscii s = .next
        (s.raise .bufferOverflow (BitVec.ofNat 32 (e - s.walk.off)))))

/-- R221: a completed FLDENC is its pack operations run one by one from the walk's start: they all complete, and
the bytes they leave in the walk are PBUF[0 .. PLEN-1]. -/
def Obligations.FldencRunsItsPackOperations : Prop :=
  ∀ (s t : State) (desc : Descriptor), s.params.schema[s.dSel.toNat]? = some desc →
    exec .fldenc s = .next t → t.err = 0 →
    ∃ u, runRequest { s with walk := Walk.start s.dSel } desc.req = some u ∧
      u.walk.out.length = t.pLen.toNat ∧ u.walk.out = t.bytes .pbuf 0 t.pLen.toNat ∧
      { u with walk := s.walk } = s

/-- R227: a completed FLDDEC of a list is its unpack operations run one by one from the walk's start: they all
complete, they consume PLEN bytes, the entries they give are FIELD[0 .. NFIELDS-1] and the string they leave
is STRBUF[0 .. STRLEN-1]. -/
def Obligations.FlddecRunsItsUnpackOperations : Prop :=
  ∀ (s t : State) (desc : Descriptor) (fs : List Field), s.params.schema[s.dSel.toNat]? = some desc →
    desc.resp = some fs → exec .flddec s = .next t → t.err = 0 →
    ∃ u es, runResponse { s with walk := Walk.start s.dSel } fs = some (u, es) ∧
      u.walk.off = s.pLen.toNat ∧ es.length = t.nFields ∧ es = t.field.take t.nFields ∧
      u.walk.str = t.bytes .strbuf 0 t.strLen.toNat ∧ { u with walk := s.walk } = s

/-! ### All commands -/

/-- R298, R299: every command answers a next state, and it either completes, with ERR = ERRINFO = 0 and ESTICKY
unchanged, or raises one error of codes 1..14, with ERR, ERRINFO and ESTICKY changed and nothing else. -/
def Obligations.CommandCompletesOrRaisesOnce : Prop :=
  ∀ (i : Instr) (s : State), i.isCommand = true → ∃ t, exec i s = .next t ∧
    ((t.err = 0 ∧ t.errInfo = 0 ∧ t.flag .esticky = s.flag .esticky) ∨
      ∃ (code : Byte) (info : Word), 1 ≤ code.toNat ∧ code.toNat ≤ 14 ∧
        t = { s with err := code, errInfo := info, status := s.status ||| 0x00000001 })

/-- R60, R61, R62, R63, R64, R69: which state a command can write. No command writes CMD, an argument register,
ILEN, PARAM, IBUF or SCHEMA; only FENV and FENC write OLEN and OBUF; only PSLICE and FLDENC write PLEN and
PBUF; only FLDDEC writes DRES, STRLEN, FIELD and STRBUF; only FVAL writes VSTAT; only FEXT and FVAL write the
extraction registers; only CKSUM writes CKR. -/
def Obligations.CommandsWriteOnlyTheirResults : Prop :=
  ∀ (i : Instr) (s t : State), i.isCommand = true → exec i s = .next t →
    (t.params = s.params ∧ t.cmd = s.cmd ∧ t.chan = s.chan ∧ t.opMaj = s.opMaj ∧ t.opMin = s.opMin ∧
      t.eChan = s.eChan ∧ t.eLink = s.eLink ∧ t.dSel = s.dSel ∧ t.cksStart = s.cksStart ∧
      t.cksEnd = s.cksEnd ∧ t.iLen = s.iLen ∧ t.param = s.param ∧
      ∀ a, Buf.ibuf.holds a = true → t.readAddr a = s.readAddr a) ∧
    (i ≠ .fenv → i ≠ .fenc → t.oLen = s.oLen ∧
      ∀ a, Buf.obuf.holds a = true → t.readAddr a = s.readAddr a) ∧
    (i ≠ .pslice → i ≠ .fldenc → t.pLen = s.pLen ∧
      ∀ a, Buf.pbuf.holds a = true → t.readAddr a = s.readAddr a) ∧
    (i ≠ .flddec → t.dRes = s.dRes ∧ t.strLen = s.strLen ∧ t.field = s.field ∧
      ∀ a, Buf.strbuf.holds a = true → t.readAddr a = s.readAddr a) ∧
    (i ≠ .fval → t.vStat = s.vStat) ∧
    (i ≠ .fext → i ≠ .fval → t.fHdr0 = s.fHdr0 ∧ t.fChan = s.fChan ∧ t.fHdr1 = s.fHdr1 ∧
      t.fOpc = s.fOpc ∧ t.fRes = s.fRes ∧ t.fTrl = s.fTrl) ∧
    (i ≠ .cksumIbuf → i ≠ .cksumObuf → i ≠ .cksumPbuf → t.ckr = s.ckr)

/-- R300, R69: the next command runs normally whatever ERR and ERRINFO hold: its outcome does not depend on them.
No command reads VSTAT: with another VSTAT every command but FVAL does the same and keeps it, and FVAL does
the same whenever it completes. -/
def Obligations.CommandIgnoresErrorAndVstat : Prop :=
  ∀ (i : Instr) (s : State), i.isCommand = true →
    (∀ (e : Byte) (info : Word), exec i { s with err := e, errInfo := info } = exec i s) ∧
    ∀ (t u : State) (v : Word), exec i s = .next t → exec i { s with vStat := v } = .next u →
      { u with vStat := t.vStat } = t ∧ (i ≠ .fval → u.vStat = v) ∧ (i = .fval → t.err = 0 → u = t)

/-- R322: no instruction reads a byte at or above a buffer's valid length. Two states that agree in everything but
the bytes beyond ILEN, OLEN, PLEN and STRLEN go on agreeing in everything but those. -/
def Obligations.OnlyValidBytesMatter : Prop :=
  ∀ (i : Instr) (s s' t t' : State),
    { s' with mem := s.mem, epoch := s.epoch } = s →
    (∀ b k, k < s.lengthOf b → s'.byte b k = s.byte b k) →
    exec i s = .next t → exec i s' = .next t' →
    { t' with mem := t.mem, epoch := t.epoch } = t ∧
      ∀ b k, k < t.lengthOf b → t'.byte b k = t.byte b k
end

