-- ==== Sys2Proof/Laws/State.lean ====
section
/-!
SUPPORT. Sys2Proof/Laws/State.lean: one lemma for each field and each named update of the state, true by rfl.
-/
namespace Sys2Proof.Machine

variable (s : State)

/-! ### raising an error (R298) -/

@[simp] theorem State.raise_params (e : ErrorCode) (info : Word) :
    (s.raise e info).params = s.params := rfl
@[simp] theorem State.raise_cmd (e : ErrorCode) (info : Word) : (s.raise e info).cmd = s.cmd := rfl
@[simp] theorem State.raise_err (e : ErrorCode) (info : Word) : (s.raise e info).err = e.code := rfl
@[simp] theorem State.raise_errInfo (e : ErrorCode) (info : Word) :
    (s.raise e info).errInfo = info := rfl
@[simp] theorem State.raise_status (e : ErrorCode) (info : Word) :
    (s.raise e info).status = s.status ||| StatusBit.esticky.mask := rfl
@[simp] theorem State.raise_chan (e : ErrorCode) (info : Word) :
    (s.raise e info).chan = s.chan := rfl
@[simp] theorem State.raise_opMaj (e : ErrorCode) (info : Word) :
    (s.raise e info).opMaj = s.opMaj := rfl
@[simp] theorem State.raise_opMin (e : ErrorCode) (info : Word) :
    (s.raise e info).opMin = s.opMin := rfl
@[simp] theorem State.raise_eChan (e : ErrorCode) (info : Word) :
    (s.raise e info).eChan = s.eChan := rfl
@[simp] theorem State.raise_eLink (e : ErrorCode) (info : Word) :
    (s.raise e info).eLink = s.eLink := rfl
@[simp] theorem State.raise_dSel (e : ErrorCode) (info : Word) :
    (s.raise e info).dSel = s.dSel := rfl
@[simp] theorem State.raise_cksStart (e : ErrorCode) (info : Word) :
    (s.raise e info).cksStart = s.cksStart := rfl
@[simp] theorem State.raise_cksEnd (e : ErrorCode) (info : Word) :
    (s.raise e info).cksEnd = s.cksEnd := rfl
@[simp] theorem State.raise_ckr (e : ErrorCode) (info : Word) : (s.raise e info).ckr = s.ckr := rfl
@[simp] theorem State.raise_iLen (e : ErrorCode) (info : Word) :
    (s.raise e info).iLen = s.iLen := rfl
@[simp] theorem State.raise_oLen (e : ErrorCode) (info : Word) :
    (s.raise e info).oLen = s.oLen := rfl
@[simp] theorem State.raise_pLen (e : ErrorCode) (info : Word) :
    (s.raise e info).pLen = s.pLen := rfl
@[simp] theorem State.raise_vStat (e : ErrorCode) (info : Word) :
    (s.raise e info).vStat = s.vStat := rfl
@[simp] theorem State.raise_fHdr0 (e : ErrorCode) (info : Word) :
    (s.raise e info).fHdr0 = s.fHdr0 := rfl
@[simp] theorem State.raise_fChan (e : ErrorCode) (info : Word) :
    (s.raise e info).fChan = s.fChan := rfl
@[simp] theorem State.raise_fHdr1 (e : ErrorCode) (info : Word) :
    (s.raise e info).fHdr1 = s.fHdr1 := rfl
@[simp] theorem State.raise_fOpc (e : ErrorCode) (info : Word) :
    (s.raise e info).fOpc = s.fOpc := rfl
@[simp] theorem State.raise_fRes (e : ErrorCode) (info : Word) :
    (s.raise e info).fRes = s.fRes := rfl
@[simp] theorem State.raise_fTrl (e : ErrorCode) (info : Word) :
    (s.raise e info).fTrl = s.fTrl := rfl
@[simp] theorem State.raise_dRes (e : ErrorCode) (info : Word) :
    (s.raise e info).dRes = s.dRes := rfl
@[simp] theorem State.raise_strLen (e : ErrorCode) (info : Word) :
    (s.raise e info).strLen = s.strLen := rfl
@[simp] theorem State.raise_mem (e : ErrorCode) (info : Word) : (s.raise e info).mem = s.mem := rfl
@[simp] theorem State.raise_param (e : ErrorCode) (info : Word) :
    (s.raise e info).param = s.param := rfl
@[simp] theorem State.raise_field (e : ErrorCode) (info : Word) :
    (s.raise e info).field = s.field := rfl
@[simp] theorem State.raise_port (e : ErrorCode) (info : Word) :
    (s.raise e info).port = s.port := rfl
@[simp] theorem State.raise_readData (e : ErrorCode) (info : Word) :
    (s.raise e info).readData = s.readData := rfl
@[simp] theorem State.raise_walk (e : ErrorCode) (info : Word) :
    (s.raise e info).walk = s.walk := rfl
@[simp] theorem State.raise_epoch (e : ErrorCode) (info : Word) :
    (s.raise e info).epoch = s.epoch := rfl
@[simp] theorem State.raise_freeCount (e : ErrorCode) (info : Word) :
    (s.raise e info).freeCount = s.freeCount := rfl

/-! ### completing a command (R299) -/

@[simp] theorem State.complete_params : (s.complete).params = s.params := rfl
@[simp] theorem State.complete_cmd : (s.complete).cmd = s.cmd := rfl
@[simp] theorem State.complete_err : (s.complete).err = 0 := rfl
@[simp] theorem State.complete_errInfo : (s.complete).errInfo = 0 := rfl
@[simp] theorem State.complete_status : (s.complete).status = s.status := rfl
@[simp] theorem State.complete_chan : (s.complete).chan = s.chan := rfl
@[simp] theorem State.complete_opMaj : (s.complete).opMaj = s.opMaj := rfl
@[simp] theorem State.complete_opMin : (s.complete).opMin = s.opMin := rfl
@[simp] theorem State.complete_eChan : (s.complete).eChan = s.eChan := rfl
@[simp] theorem State.complete_eLink : (s.complete).eLink = s.eLink := rfl
@[simp] theorem State.complete_dSel : (s.complete).dSel = s.dSel := rfl
@[simp] theorem State.complete_cksStart : (s.complete).cksStart = s.cksStart := rfl
@[simp] theorem State.complete_cksEnd : (s.complete).cksEnd = s.cksEnd := rfl
@[simp] theorem State.complete_ckr : (s.complete).ckr = s.ckr := rfl
@[simp] theorem State.complete_iLen : (s.complete).iLen = s.iLen := rfl
@[simp] theorem State.complete_oLen : (s.complete).oLen = s.oLen := rfl
@[simp] theorem State.complete_pLen : (s.complete).pLen = s.pLen := rfl
@[simp] theorem State.complete_vStat : (s.complete).vStat = s.vStat := rfl
@[simp] theorem State.complete_fHdr0 : (s.complete).fHdr0 = s.fHdr0 := rfl
@[simp] theorem State.complete_fChan : (s.complete).fChan = s.fChan := rfl
@[simp] theorem State.complete_fHdr1 : (s.complete).fHdr1 = s.fHdr1 := rfl
@[simp] theorem State.complete_fOpc : (s.complete).fOpc = s.fOpc := rfl
@[simp] theorem State.complete_fRes : (s.complete).fRes = s.fRes := rfl
@[simp] theorem State.complete_fTrl : (s.complete).fTrl = s.fTrl := rfl
@[simp] theorem State.complete_dRes : (s.complete).dRes = s.dRes := rfl
@[simp] theorem State.complete_strLen : (s.complete).strLen = s.strLen := rfl
@[simp] theorem State.complete_mem : (s.complete).mem = s.mem := rfl
@[simp] theorem State.complete_param : (s.complete).param = s.param := rfl
@[simp] theorem State.complete_field : (s.complete).field = s.field := rfl
@[simp] theorem State.complete_port : (s.complete).port = s.port := rfl
@[simp] theorem State.complete_readData : (s.complete).readData = s.readData := rfl
@[simp] theorem State.complete_walk : (s.complete).walk = s.walk := rfl
@[simp] theorem State.complete_epoch : (s.complete).epoch = s.epoch := rfl
@[simp] theorem State.complete_freeCount : (s.complete).freeCount = s.freeCount := rfl

/-! ### setting a STATUS bit (R33) -/

@[simp] theorem State.setFlag_params (b : StatusBit) : (s.setFlag b).params = s.params := rfl
@[simp] theorem State.setFlag_cmd (b : StatusBit) : (s.setFlag b).cmd = s.cmd := rfl
@[simp] theorem State.setFlag_err (b : StatusBit) : (s.setFlag b).err = s.err := rfl
@[simp] theorem State.setFlag_errInfo (b : StatusBit) : (s.setFlag b).errInfo = s.errInfo := rfl
@[simp] theorem State.setFlag_status (b : StatusBit) :
    (s.setFlag b).status = s.status ||| b.mask := rfl
@[simp] theorem State.setFlag_chan (b : StatusBit) : (s.setFlag b).chan = s.chan := rfl
@[simp] theorem State.setFlag_opMaj (b : StatusBit) : (s.setFlag b).opMaj = s.opMaj := rfl
@[simp] theorem State.setFlag_opMin (b : StatusBit) : (s.setFlag b).opMin = s.opMin := rfl
@[simp] theorem State.setFlag_eChan (b : StatusBit) : (s.setFlag b).eChan = s.eChan := rfl
@[simp] theorem State.setFlag_eLink (b : StatusBit) : (s.setFlag b).eLink = s.eLink := rfl
@[simp] theorem State.setFlag_dSel (b : StatusBit) : (s.setFlag b).dSel = s.dSel := rfl
@[simp] theorem State.setFlag_cksStart (b : StatusBit) : (s.setFlag b).cksStart = s.cksStart := rfl
@[simp] theorem State.setFlag_cksEnd (b : StatusBit) : (s.setFlag b).cksEnd = s.cksEnd := rfl
@[simp] theorem State.setFlag_ckr (b : StatusBit) : (s.setFlag b).ckr = s.ckr := rfl
@[simp] theorem State.setFlag_iLen (b : StatusBit) : (s.setFlag b).iLen = s.iLen := rfl
@[simp] theorem State.setFlag_oLen (b : StatusBit) : (s.setFlag b).oLen = s.oLen := rfl
@[simp] theorem State.setFlag_pLen (b : StatusBit) : (s.setFlag b).pLen = s.pLen := rfl
@[simp] theorem State.setFlag_vStat (b : StatusBit) : (s.setFlag b).vStat = s.vStat := rfl
@[simp] theorem State.setFlag_fHdr0 (b : StatusBit) : (s.setFlag b).fHdr0 = s.fHdr0 := rfl
@[simp] theorem State.setFlag_fChan (b : StatusBit) : (s.setFlag b).fChan = s.fChan := rfl
@[simp] theorem State.setFlag_fHdr1 (b : StatusBit) : (s.setFlag b).fHdr1 = s.fHdr1 := rfl
@[simp] theorem State.setFlag_fOpc (b : StatusBit) : (s.setFlag b).fOpc = s.fOpc := rfl
@[simp] theorem State.setFlag_fRes (b : StatusBit) : (s.setFlag b).fRes = s.fRes := rfl
@[simp] theorem State.setFlag_fTrl (b : StatusBit) : (s.setFlag b).fTrl = s.fTrl := rfl
@[simp] theorem State.setFlag_dRes (b : StatusBit) : (s.setFlag b).dRes = s.dRes := rfl
@[simp] theorem State.setFlag_strLen (b : StatusBit) : (s.setFlag b).strLen = s.strLen := rfl
@[simp] theorem State.setFlag_mem (b : StatusBit) : (s.setFlag b).mem = s.mem := rfl
@[simp] theorem State.setFlag_param (b : StatusBit) : (s.setFlag b).param = s.param := rfl
@[simp] theorem State.setFlag_field (b : StatusBit) : (s.setFlag b).field = s.field := rfl
@[simp] theorem State.setFlag_port (b : StatusBit) : (s.setFlag b).port = s.port := rfl
@[simp] theorem State.setFlag_readData (b : StatusBit) : (s.setFlag b).readData = s.readData := rfl
@[simp] theorem State.setFlag_walk (b : StatusBit) : (s.setFlag b).walk = s.walk := rfl
@[simp] theorem State.setFlag_epoch (b : StatusBit) : (s.setFlag b).epoch = s.epoch := rfl
@[simp] theorem State.setFlag_freeCount (b : StatusBit) :
    (s.setFlag b).freeCount = s.freeCount := rfl

/-! ### clearing a STATUS bit (R33) -/

@[simp] theorem State.clearFlag_params (b : StatusBit) : (s.clearFlag b).params = s.params := rfl
@[simp] theorem State.clearFlag_cmd (b : StatusBit) : (s.clearFlag b).cmd = s.cmd := rfl
@[simp] theorem State.clearFlag_err (b : StatusBit) : (s.clearFlag b).err = s.err := rfl
@[simp] theorem State.clearFlag_errInfo (b : StatusBit) : (s.clearFlag b).errInfo = s.errInfo := rfl
@[simp] theorem State.clearFlag_status (b : StatusBit) :
    (s.clearFlag b).status = s.status &&& ~~~ b.mask := rfl
@[simp] theorem State.clearFlag_chan (b : StatusBit) : (s.clearFlag b).chan = s.chan := rfl
@[simp] theorem State.clearFlag_opMaj (b : StatusBit) : (s.clearFlag b).opMaj = s.opMaj := rfl
@[simp] theorem State.clearFlag_opMin (b : StatusBit) : (s.clearFlag b).opMin = s.opMin := rfl
@[simp] theorem State.clearFlag_eChan (b : StatusBit) : (s.clearFlag b).eChan = s.eChan := rfl
@[simp] theorem State.clearFlag_eLink (b : StatusBit) : (s.clearFlag b).eLink = s.eLink := rfl
@[simp] theorem State.clearFlag_dSel (b : StatusBit) : (s.clearFlag b).dSel = s.dSel := rfl
@[simp] theorem State.clearFlag_cksStart (b : StatusBit) :
    (s.clearFlag b).cksStart = s.cksStart := rfl
@[simp] theorem State.clearFlag_cksEnd (b : StatusBit) : (s.clearFlag b).cksEnd = s.cksEnd := rfl
@[simp] theorem State.clearFlag_ckr (b : StatusBit) : (s.clearFlag b).ckr = s.ckr := rfl
@[simp] theorem State.clearFlag_iLen (b : StatusBit) : (s.clearFlag b).iLen = s.iLen := rfl
@[simp] theorem State.clearFlag_oLen (b : StatusBit) : (s.clearFlag b).oLen = s.oLen := rfl
@[simp] theorem State.clearFlag_pLen (b : StatusBit) : (s.clearFlag b).pLen = s.pLen := rfl
@[simp] theorem State.clearFlag_vStat (b : StatusBit) : (s.clearFlag b).vStat = s.vStat := rfl
@[simp] theorem State.clearFlag_fHdr0 (b : StatusBit) : (s.clearFlag b).fHdr0 = s.fHdr0 := rfl
@[simp] theorem State.clearFlag_fChan (b : StatusBit) : (s.clearFlag b).fChan = s.fChan := rfl
@[simp] theorem State.clearFlag_fHdr1 (b : StatusBit) : (s.clearFlag b).fHdr1 = s.fHdr1 := rfl
@[simp] theorem State.clearFlag_fOpc (b : StatusBit) : (s.clearFlag b).fOpc = s.fOpc := rfl
@[simp] theorem State.clearFlag_fRes (b : StatusBit) : (s.clearFlag b).fRes = s.fRes := rfl
@[simp] theorem State.clearFlag_fTrl (b : StatusBit) : (s.clearFlag b).fTrl = s.fTrl := rfl
@[simp] theorem State.clearFlag_dRes (b : StatusBit) : (s.clearFlag b).dRes = s.dRes := rfl
@[simp] theorem State.clearFlag_strLen (b : StatusBit) : (s.clearFlag b).strLen = s.strLen := rfl
@[simp] theorem State.clearFlag_mem (b : StatusBit) : (s.clearFlag b).mem = s.mem := rfl
@[simp] theorem State.clearFlag_param (b : StatusBit) : (s.clearFlag b).param = s.param := rfl
@[simp] theorem State.clearFlag_field (b : StatusBit) : (s.clearFlag b).field = s.field := rfl
@[simp] theorem State.clearFlag_port (b : StatusBit) : (s.clearFlag b).port = s.port := rfl
@[simp] theorem State.clearFlag_readData (b : StatusBit) :
    (s.clearFlag b).readData = s.readData := rfl
@[simp] theorem State.clearFlag_walk (b : StatusBit) : (s.clearFlag b).walk = s.walk := rfl
@[simp] theorem State.clearFlag_epoch (b : StatusBit) : (s.clearFlag b).epoch = s.epoch := rfl
@[simp] theorem State.clearFlag_freeCount (b : StatusBit) :
    (s.clearFlag b).freeCount = s.freeCount := rfl

/-! ### storing bytes (R9) -/

@[simp] theorem State.store_params (b : Buf) (a : Nat) (bs : List Byte) :
    (s.store b a bs).params = s.params := rfl
@[simp] theorem State.store_cmd (b : Buf) (a : Nat) (bs : List Byte) :
    (s.store b a bs).cmd = s.cmd := rfl
@[simp] theorem State.store_err (b : Buf) (a : Nat) (bs : List Byte) :
    (s.store b a bs).err = s.err := rfl
@[simp] theorem State.store_errInfo (b : Buf) (a : Nat) (bs : List Byte) :
    (s.store b a bs).errInfo = s.errInfo := rfl
@[simp] theorem State.store_status (b : Buf) (a : Nat) (bs : List Byte) :
    (s.store b a bs).status = s.status := rfl
@[simp] theorem State.store_chan (b : Buf) (a : Nat) (bs : List Byte) :
    (s.store b a bs).chan = s.chan := rfl
@[simp] theorem State.store_opMaj (b : Buf) (a : Nat) (bs : List Byte) :
    (s.store b a bs).opMaj = s.opMaj := rfl
@[simp] theorem State.store_opMin (b : Buf) (a : Nat) (bs : List Byte) :
    (s.store b a bs).opMin = s.opMin := rfl
@[simp] theorem State.store_eChan (b : Buf) (a : Nat) (bs : List Byte) :
    (s.store b a bs).eChan = s.eChan := rfl
@[simp] theorem State.store_eLink (b : Buf) (a : Nat) (bs : List Byte) :
    (s.store b a bs).eLink = s.eLink := rfl
@[simp] theorem State.store_dSel (b : Buf) (a : Nat) (bs : List Byte) :
    (s.store b a bs).dSel = s.dSel := rfl
@[simp] theorem State.store_cksStart (b : Buf) (a : Nat) (bs : List Byte) :
    (s.store b a bs).cksStart = s.cksStart := rfl
@[simp] theorem State.store_cksEnd (b : Buf) (a : Nat) (bs : List Byte) :
    (s.store b a bs).cksEnd = s.cksEnd := rfl
@[simp] theorem State.store_ckr (b : Buf) (a : Nat) (bs : List Byte) :
    (s.store b a bs).ckr = s.ckr := rfl
@[simp] theorem State.store_iLen (b : Buf) (a : Nat) (bs : List Byte) :
    (s.store b a bs).iLen = s.iLen := rfl
@[simp] theorem State.store_oLen (b : Buf) (a : Nat) (bs : List Byte) :
    (s.store b a bs).oLen = s.oLen := rfl
@[simp] theorem State.store_pLen (b : Buf) (a : Nat) (bs : List Byte) :
    (s.store b a bs).pLen = s.pLen := rfl
@[simp] theorem State.store_vStat (b : Buf) (a : Nat) (bs : List Byte) :
    (s.store b a bs).vStat = s.vStat := rfl
@[simp] theorem State.store_fHdr0 (b : Buf) (a : Nat) (bs : List Byte) :
    (s.store b a bs).fHdr0 = s.fHdr0 := rfl
@[simp] theorem State.store_fChan (b : Buf) (a : Nat) (bs : List Byte) :
    (s.store b a bs).fChan = s.fChan := rfl
@[simp] theorem State.store_fHdr1 (b : Buf) (a : Nat) (bs : List Byte) :
    (s.store b a bs).fHdr1 = s.fHdr1 := rfl
@[simp] theorem State.store_fOpc (b : Buf) (a : Nat) (bs : List Byte) :
    (s.store b a bs).fOpc = s.fOpc := rfl
@[simp] theorem State.store_fRes (b : Buf) (a : Nat) (bs : List Byte) :
    (s.store b a bs).fRes = s.fRes := rfl
@[simp] theorem State.store_fTrl (b : Buf) (a : Nat) (bs : List Byte) :
    (s.store b a bs).fTrl = s.fTrl := rfl
@[simp] theorem State.store_dRes (b : Buf) (a : Nat) (bs : List Byte) :
    (s.store b a bs).dRes = s.dRes := rfl
@[simp] theorem State.store_strLen (b : Buf) (a : Nat) (bs : List Byte) :
    (s.store b a bs).strLen = s.strLen := rfl
@[simp] theorem State.store_mem (b : Buf) (a : Nat) (bs : List Byte) :
    (s.store b a bs).mem = Memory.putAll s.mem (b.base + a) bs := rfl
@[simp] theorem State.store_param (b : Buf) (a : Nat) (bs : List Byte) :
    (s.store b a bs).param = s.param := rfl
@[simp] theorem State.store_field (b : Buf) (a : Nat) (bs : List Byte) :
    (s.store b a bs).field = s.field := rfl
@[simp] theorem State.store_port (b : Buf) (a : Nat) (bs : List Byte) :
    (s.store b a bs).port = s.port := rfl
@[simp] theorem State.store_readData (b : Buf) (a : Nat) (bs : List Byte) :
    (s.store b a bs).readData = s.readData := rfl
@[simp] theorem State.store_walk (b : Buf) (a : Nat) (bs : List Byte) :
    (s.store b a bs).walk = s.walk := rfl
@[simp] theorem State.store_epoch (b : Buf) (a : Nat) (bs : List Byte) :
    (s.store b a bs).epoch = s.epoch := rfl
@[simp] theorem State.store_freeCount (b : Buf) (a : Nat) (bs : List Byte) :
    (s.store b a bs).freeCount = s.freeCount := rfl

/-! ### writing FIELD entries (R65) -/

@[simp] theorem State.storeFields_params (es : List FieldEntry) :
    (s.storeFields es).params = s.params := rfl
@[simp] theorem State.storeFields_cmd (es : List FieldEntry) : (s.storeFields es).cmd = s.cmd := rfl
@[simp] theorem State.storeFields_err (es : List FieldEntry) : (s.storeFields es).err = s.err := rfl
@[simp] theorem State.storeFields_errInfo (es : List FieldEntry) :
    (s.storeFields es).errInfo = s.errInfo := rfl
@[simp] theorem State.storeFields_status (es : List FieldEntry) :
    (s.storeFields es).status = s.status := rfl
@[simp] theorem State.storeFields_chan (es : List FieldEntry) :
    (s.storeFields es).chan = s.chan := rfl
@[simp] theorem State.storeFields_opMaj (es : List FieldEntry) :
    (s.storeFields es).opMaj = s.opMaj := rfl
@[simp] theorem State.storeFields_opMin (es : List FieldEntry) :
    (s.storeFields es).opMin = s.opMin := rfl
@[simp] theorem State.storeFields_eChan (es : List FieldEntry) :
    (s.storeFields es).eChan = s.eChan := rfl
@[simp] theorem State.storeFields_eLink (es : List FieldEntry) :
    (s.storeFields es).eLink = s.eLink := rfl
@[simp] theorem State.storeFields_dSel (es : List FieldEntry) :
    (s.storeFields es).dSel = s.dSel := rfl
@[simp] theorem State.storeFields_cksStart (es : List FieldEntry) :
    (s.storeFields es).cksStart = s.cksStart := rfl
@[simp] theorem State.storeFields_cksEnd (es : List FieldEntry) :
    (s.storeFields es).cksEnd = s.cksEnd := rfl
@[simp] theorem State.storeFields_ckr (es : List FieldEntry) : (s.storeFields es).ckr = s.ckr := rfl
@[simp] theorem State.storeFields_iLen (es : List FieldEntry) :
    (s.storeFields es).iLen = s.iLen := rfl
@[simp] theorem State.storeFields_oLen (es : List FieldEntry) :
    (s.storeFields es).oLen = s.oLen := rfl
@[simp] theorem State.storeFields_pLen (es : List FieldEntry) :
    (s.storeFields es).pLen = s.pLen := rfl
@[simp] theorem State.storeFields_vStat (es : List FieldEntry) :
    (s.storeFields es).vStat = s.vStat := rfl
@[simp] theorem State.storeFields_fHdr0 (es : List FieldEntry) :
    (s.storeFields es).fHdr0 = s.fHdr0 := rfl
@[simp] theorem State.storeFields_fChan (es : List FieldEntry) :
    (s.storeFields es).fChan = s.fChan := rfl
@[simp] theorem State.storeFields_fHdr1 (es : List FieldEntry) :
    (s.storeFields es).fHdr1 = s.fHdr1 := rfl
@[simp] theorem State.storeFields_fOpc (es : List FieldEntry) :
    (s.storeFields es).fOpc = s.fOpc := rfl
@[simp] theorem State.storeFields_fRes (es : List FieldEntry) :
    (s.storeFields es).fRes = s.fRes := rfl
@[simp] theorem State.storeFields_fTrl (es : List FieldEntry) :
    (s.storeFields es).fTrl = s.fTrl := rfl
@[simp] theorem State.storeFields_dRes (es : List FieldEntry) :
    (s.storeFields es).dRes = s.dRes := rfl
@[simp] theorem State.storeFields_strLen (es : List FieldEntry) :
    (s.storeFields es).strLen = s.strLen := rfl
@[simp] theorem State.storeFields_mem (es : List FieldEntry) : (s.storeFields es).mem = s.mem := rfl
@[simp] theorem State.storeFields_param (es : List FieldEntry) :
    (s.storeFields es).param = s.param := rfl
@[simp] theorem State.storeFields_field (es : List FieldEntry) :
    (s.storeFields es).field = es ++ s.field.drop es.length := rfl
@[simp] theorem State.storeFields_port (es : List FieldEntry) :
    (s.storeFields es).port = s.port := rfl
@[simp] theorem State.storeFields_readData (es : List FieldEntry) :
    (s.storeFields es).readData = s.readData := rfl
@[simp] theorem State.storeFields_walk (es : List FieldEntry) :
    (s.storeFields es).walk = s.walk := rfl
@[simp] theorem State.storeFields_epoch (es : List FieldEntry) :
    (s.storeFields es).epoch = s.epoch := rfl
@[simp] theorem State.storeFields_freeCount (es : List FieldEntry) :
    (s.storeFields es).freeCount = s.freeCount := rfl

/-! ### a PARAM VALUE write (R84) -/

@[simp] theorem State.setParam_params (n : BitVec 8) (v : Word) :
    (s.setParam n v).params = s.params := rfl
@[simp] theorem State.setParam_cmd (n : BitVec 8) (v : Word) : (s.setParam n v).cmd = s.cmd := rfl
@[simp] theorem State.setParam_err (n : BitVec 8) (v : Word) : (s.setParam n v).err = s.err := rfl
@[simp] theorem State.setParam_errInfo (n : BitVec 8) (v : Word) :
    (s.setParam n v).errInfo = s.errInfo := rfl
@[simp] theorem State.setParam_status (n : BitVec 8) (v : Word) :
    (s.setParam n v).status = s.status := rfl
@[simp] theorem State.setParam_chan (n : BitVec 8) (v : Word) :
    (s.setParam n v).chan = s.chan := rfl
@[simp] theorem State.setParam_opMaj (n : BitVec 8) (v : Word) :
    (s.setParam n v).opMaj = s.opMaj := rfl
@[simp] theorem State.setParam_opMin (n : BitVec 8) (v : Word) :
    (s.setParam n v).opMin = s.opMin := rfl
@[simp] theorem State.setParam_eChan (n : BitVec 8) (v : Word) :
    (s.setParam n v).eChan = s.eChan := rfl
@[simp] theorem State.setParam_eLink (n : BitVec 8) (v : Word) :
    (s.setParam n v).eLink = s.eLink := rfl
@[simp] theorem State.setParam_dSel (n : BitVec 8) (v : Word) :
    (s.setParam n v).dSel = s.dSel := rfl
@[simp] theorem State.setParam_cksStart (n : BitVec 8) (v : Word) :
    (s.setParam n v).cksStart = s.cksStart := rfl
@[simp] theorem State.setParam_cksEnd (n : BitVec 8) (v : Word) :
    (s.setParam n v).cksEnd = s.cksEnd := rfl
@[simp] theorem State.setParam_ckr (n : BitVec 8) (v : Word) : (s.setParam n v).ckr = s.ckr := rfl
@[simp] theorem State.setParam_iLen (n : BitVec 8) (v : Word) :
    (s.setParam n v).iLen = s.iLen := rfl
@[simp] theorem State.setParam_oLen (n : BitVec 8) (v : Word) :
    (s.setParam n v).oLen = s.oLen := rfl
@[simp] theorem State.setParam_pLen (n : BitVec 8) (v : Word) :
    (s.setParam n v).pLen = s.pLen := rfl
@[simp] theorem State.setParam_vStat (n : BitVec 8) (v : Word) :
    (s.setParam n v).vStat = s.vStat := rfl
@[simp] theorem State.setParam_fHdr0 (n : BitVec 8) (v : Word) :
    (s.setParam n v).fHdr0 = s.fHdr0 := rfl
@[simp] theorem State.setParam_fChan (n : BitVec 8) (v : Word) :
    (s.setParam n v).fChan = s.fChan := rfl
@[simp] theorem State.setParam_fHdr1 (n : BitVec 8) (v : Word) :
    (s.setParam n v).fHdr1 = s.fHdr1 := rfl
@[simp] theorem State.setParam_fOpc (n : BitVec 8) (v : Word) :
    (s.setParam n v).fOpc = s.fOpc := rfl
@[simp] theorem State.setParam_fRes (n : BitVec 8) (v : Word) :
    (s.setParam n v).fRes = s.fRes := rfl
@[simp] theorem State.setParam_fTrl (n : BitVec 8) (v : Word) :
    (s.setParam n v).fTrl = s.fTrl := rfl
@[simp] theorem State.setParam_dRes (n : BitVec 8) (v : Word) :
    (s.setParam n v).dRes = s.dRes := rfl
@[simp] theorem State.setParam_strLen (n : BitVec 8) (v : Word) :
    (s.setParam n v).strLen = s.strLen := rfl
@[simp] theorem State.setParam_mem (n : BitVec 8) (v : Word) : (s.setParam n v).mem = s.mem := rfl
@[simp] theorem State.setParam_param (n : BitVec 8) (v : Word) :
    (s.setParam n v).param = s.param.set n.toNat ⟨true, v⟩ n.isLt := rfl
@[simp] theorem State.setParam_field (n : BitVec 8) (v : Word) :
    (s.setParam n v).field = s.field := rfl
@[simp] theorem State.setParam_port (n : BitVec 8) (v : Word) :
    (s.setParam n v).port = s.port := rfl
@[simp] theorem State.setParam_readData (n : BitVec 8) (v : Word) :
    (s.setParam n v).readData = s.readData := rfl
@[simp] theorem State.setParam_walk (n : BitVec 8) (v : Word) :
    (s.setParam n v).walk = s.walk := rfl
@[simp] theorem State.setParam_epoch (n : BitVec 8) (v : Word) :
    (s.setParam n v).epoch = s.epoch := rfl
@[simp] theorem State.setParam_freeCount (n : BitVec 8) (v : Word) :
    (s.setParam n v).freeCount = s.freeCount := rfl

/-! ### answering a host read (R91) -/

@[simp] theorem State.answer_params (v : Word) : (s.answer v).params = s.params := rfl
@[simp] theorem State.answer_cmd (v : Word) : (s.answer v).cmd = s.cmd := rfl
@[simp] theorem State.answer_err (v : Word) : (s.answer v).err = s.err := rfl
@[simp] theorem State.answer_errInfo (v : Word) : (s.answer v).errInfo = s.errInfo := rfl
@[simp] theorem State.answer_status (v : Word) : (s.answer v).status = s.status := rfl
@[simp] theorem State.answer_chan (v : Word) : (s.answer v).chan = s.chan := rfl
@[simp] theorem State.answer_opMaj (v : Word) : (s.answer v).opMaj = s.opMaj := rfl
@[simp] theorem State.answer_opMin (v : Word) : (s.answer v).opMin = s.opMin := rfl
@[simp] theorem State.answer_eChan (v : Word) : (s.answer v).eChan = s.eChan := rfl
@[simp] theorem State.answer_eLink (v : Word) : (s.answer v).eLink = s.eLink := rfl
@[simp] theorem State.answer_dSel (v : Word) : (s.answer v).dSel = s.dSel := rfl
@[simp] theorem State.answer_cksStart (v : Word) : (s.answer v).cksStart = s.cksStart := rfl
@[simp] theorem State.answer_cksEnd (v : Word) : (s.answer v).cksEnd = s.cksEnd := rfl
@[simp] theorem State.answer_ckr (v : Word) : (s.answer v).ckr = s.ckr := rfl
@[simp] theorem State.answer_iLen (v : Word) : (s.answer v).iLen = s.iLen := rfl
@[simp] theorem State.answer_oLen (v : Word) : (s.answer v).oLen = s.oLen := rfl
@[simp] theorem State.answer_pLen (v : Word) : (s.answer v).pLen = s.pLen := rfl
@[simp] theorem State.answer_vStat (v : Word) : (s.answer v).vStat = s.vStat := rfl
@[simp] theorem State.answer_fHdr0 (v : Word) : (s.answer v).fHdr0 = s.fHdr0 := rfl
@[simp] theorem State.answer_fChan (v : Word) : (s.answer v).fChan = s.fChan := rfl
@[simp] theorem State.answer_fHdr1 (v : Word) : (s.answer v).fHdr1 = s.fHdr1 := rfl
@[simp] theorem State.answer_fOpc (v : Word) : (s.answer v).fOpc = s.fOpc := rfl
@[simp] theorem State.answer_fRes (v : Word) : (s.answer v).fRes = s.fRes := rfl
@[simp] theorem State.answer_fTrl (v : Word) : (s.answer v).fTrl = s.fTrl := rfl
@[simp] theorem State.answer_dRes (v : Word) : (s.answer v).dRes = s.dRes := rfl
@[simp] theorem State.answer_strLen (v : Word) : (s.answer v).strLen = s.strLen := rfl
@[simp] theorem State.answer_mem (v : Word) : (s.answer v).mem = s.mem := rfl
@[simp] theorem State.answer_param (v : Word) : (s.answer v).param = s.param := rfl
@[simp] theorem State.answer_field (v : Word) : (s.answer v).field = s.field := rfl
@[simp] theorem State.answer_port (v : Word) : (s.answer v).port = s.port := rfl
@[simp] theorem State.answer_readData (v : Word) : (s.answer v).readData = v := rfl
@[simp] theorem State.answer_walk (v : Word) : (s.answer v).walk = s.walk := rfl
@[simp] theorem State.answer_epoch (v : Word) : (s.answer v).epoch = s.epoch := rfl
@[simp] theorem State.answer_freeCount (v : Word) : (s.answer v).freeCount = s.freeCount := rfl

/-! ### answering a host read with a free value (R59) -/

@[simp] theorem State.answerFree_params (m : Word) : (s.answerFree m).params = s.params := rfl
@[simp] theorem State.answerFree_cmd (m : Word) : (s.answerFree m).cmd = s.cmd := rfl
@[simp] theorem State.answerFree_err (m : Word) : (s.answerFree m).err = s.err := rfl
@[simp] theorem State.answerFree_errInfo (m : Word) : (s.answerFree m).errInfo = s.errInfo := rfl
@[simp] theorem State.answerFree_status (m : Word) : (s.answerFree m).status = s.status := rfl
@[simp] theorem State.answerFree_chan (m : Word) : (s.answerFree m).chan = s.chan := rfl
@[simp] theorem State.answerFree_opMaj (m : Word) : (s.answerFree m).opMaj = s.opMaj := rfl
@[simp] theorem State.answerFree_opMin (m : Word) : (s.answerFree m).opMin = s.opMin := rfl
@[simp] theorem State.answerFree_eChan (m : Word) : (s.answerFree m).eChan = s.eChan := rfl
@[simp] theorem State.answerFree_eLink (m : Word) : (s.answerFree m).eLink = s.eLink := rfl
@[simp] theorem State.answerFree_dSel (m : Word) : (s.answerFree m).dSel = s.dSel := rfl
@[simp] theorem State.answerFree_cksStart (m : Word) : (s.answerFree m).cksStart = s.cksStart := rfl
@[simp] theorem State.answerFree_cksEnd (m : Word) : (s.answerFree m).cksEnd = s.cksEnd := rfl
@[simp] theorem State.answerFree_ckr (m : Word) : (s.answerFree m).ckr = s.ckr := rfl
@[simp] theorem State.answerFree_iLen (m : Word) : (s.answerFree m).iLen = s.iLen := rfl
@[simp] theorem State.answerFree_oLen (m : Word) : (s.answerFree m).oLen = s.oLen := rfl
@[simp] theorem State.answerFree_pLen (m : Word) : (s.answerFree m).pLen = s.pLen := rfl
@[simp] theorem State.answerFree_vStat (m : Word) : (s.answerFree m).vStat = s.vStat := rfl
@[simp] theorem State.answerFree_fHdr0 (m : Word) : (s.answerFree m).fHdr0 = s.fHdr0 := rfl
@[simp] theorem State.answerFree_fChan (m : Word) : (s.answerFree m).fChan = s.fChan := rfl
@[simp] theorem State.answerFree_fHdr1 (m : Word) : (s.answerFree m).fHdr1 = s.fHdr1 := rfl
@[simp] theorem State.answerFree_fOpc (m : Word) : (s.answerFree m).fOpc = s.fOpc := rfl
@[simp] theorem State.answerFree_fRes (m : Word) : (s.answerFree m).fRes = s.fRes := rfl
@[simp] theorem State.answerFree_fTrl (m : Word) : (s.answerFree m).fTrl = s.fTrl := rfl
@[simp] theorem State.answerFree_dRes (m : Word) : (s.answerFree m).dRes = s.dRes := rfl
@[simp] theorem State.answerFree_strLen (m : Word) : (s.answerFree m).strLen = s.strLen := rfl
@[simp] theorem State.answerFree_mem (m : Word) : (s.answerFree m).mem = s.mem := rfl
@[simp] theorem State.answerFree_param (m : Word) : (s.answerFree m).param = s.param := rfl
@[simp] theorem State.answerFree_field (m : Word) : (s.answerFree m).field = s.field := rfl
@[simp] theorem State.answerFree_port (m : Word) : (s.answerFree m).port = s.port := rfl
@[simp] theorem State.answerFree_readData (m : Word) :
    (s.answerFree m).readData = Config.freeWord s.freeCount &&& m := rfl
@[simp] theorem State.answerFree_walk (m : Word) : (s.answerFree m).walk = s.walk := rfl
@[simp] theorem State.answerFree_epoch (m : Word) : (s.answerFree m).epoch = s.epoch := rfl
@[simp] theorem State.answerFree_freeCount (m : Word) :
    (s.answerFree m).freeCount = s.freeCount + 1 := rfl

/-! ### CKR (R45) -/

@[simp] theorem State.setCkr_params (c : Byte) : (s.setCkr c).params = s.params := rfl
@[simp] theorem State.setCkr_cmd (c : Byte) : (s.setCkr c).cmd = s.cmd := rfl
@[simp] theorem State.setCkr_err (c : Byte) : (s.setCkr c).err = s.err := rfl
@[simp] theorem State.setCkr_errInfo (c : Byte) : (s.setCkr c).errInfo = s.errInfo := rfl
@[simp] theorem State.setCkr_status (c : Byte) : (s.setCkr c).status = s.status := rfl
@[simp] theorem State.setCkr_chan (c : Byte) : (s.setCkr c).chan = s.chan := rfl
@[simp] theorem State.setCkr_opMaj (c : Byte) : (s.setCkr c).opMaj = s.opMaj := rfl
@[simp] theorem State.setCkr_opMin (c : Byte) : (s.setCkr c).opMin = s.opMin := rfl
@[simp] theorem State.setCkr_eChan (c : Byte) : (s.setCkr c).eChan = s.eChan := rfl
@[simp] theorem State.setCkr_eLink (c : Byte) : (s.setCkr c).eLink = s.eLink := rfl
@[simp] theorem State.setCkr_dSel (c : Byte) : (s.setCkr c).dSel = s.dSel := rfl
@[simp] theorem State.setCkr_cksStart (c : Byte) : (s.setCkr c).cksStart = s.cksStart := rfl
@[simp] theorem State.setCkr_cksEnd (c : Byte) : (s.setCkr c).cksEnd = s.cksEnd := rfl
@[simp] theorem State.setCkr_ckr (c : Byte) : (s.setCkr c).ckr = c := rfl
@[simp] theorem State.setCkr_iLen (c : Byte) : (s.setCkr c).iLen = s.iLen := rfl
@[simp] theorem State.setCkr_oLen (c : Byte) : (s.setCkr c).oLen = s.oLen := rfl
@[simp] theorem State.setCkr_pLen (c : Byte) : (s.setCkr c).pLen = s.pLen := rfl
@[simp] theorem State.setCkr_vStat (c : Byte) : (s.setCkr c).vStat = s.vStat := rfl
@[simp] theorem State.setCkr_fHdr0 (c : Byte) : (s.setCkr c).fHdr0 = s.fHdr0 := rfl
@[simp] theorem State.setCkr_fChan (c : Byte) : (s.setCkr c).fChan = s.fChan := rfl
@[simp] theorem State.setCkr_fHdr1 (c : Byte) : (s.setCkr c).fHdr1 = s.fHdr1 := rfl
@[simp] theorem State.setCkr_fOpc (c : Byte) : (s.setCkr c).fOpc = s.fOpc := rfl
@[simp] theorem State.setCkr_fRes (c : Byte) : (s.setCkr c).fRes = s.fRes := rfl
@[simp] theorem State.setCkr_fTrl (c : Byte) : (s.setCkr c).fTrl = s.fTrl := rfl
@[simp] theorem State.setCkr_dRes (c : Byte) : (s.setCkr c).dRes = s.dRes := rfl
@[simp] theorem State.setCkr_strLen (c : Byte) : (s.setCkr c).strLen = s.strLen := rfl
@[simp] theorem State.setCkr_mem (c : Byte) : (s.setCkr c).mem = s.mem := rfl
@[simp] theorem State.setCkr_param (c : Byte) : (s.setCkr c).param = s.param := rfl
@[simp] theorem State.setCkr_field (c : Byte) : (s.setCkr c).field = s.field := rfl
@[simp] theorem State.setCkr_port (c : Byte) : (s.setCkr c).port = s.port := rfl
@[simp] theorem State.setCkr_readData (c : Byte) : (s.setCkr c).readData = s.readData := rfl
@[simp] theorem State.setCkr_walk (c : Byte) : (s.setCkr c).walk = s.walk := rfl
@[simp] theorem State.setCkr_epoch (c : Byte) : (s.setCkr c).epoch = s.epoch := rfl
@[simp] theorem State.setCkr_freeCount (c : Byte) : (s.setCkr c).freeCount = s.freeCount := rfl

/-! ### ILEN (R46) -/

@[simp] theorem State.setILen_params (n : Half) : (s.setILen n).params = s.params := rfl
@[simp] theorem State.setILen_cmd (n : Half) : (s.setILen n).cmd = s.cmd := rfl
@[simp] theorem State.setILen_err (n : Half) : (s.setILen n).err = s.err := rfl
@[simp] theorem State.setILen_errInfo (n : Half) : (s.setILen n).errInfo = s.errInfo := rfl
@[simp] theorem State.setILen_status (n : Half) : (s.setILen n).status = s.status := rfl
@[simp] theorem State.setILen_chan (n : Half) : (s.setILen n).chan = s.chan := rfl
@[simp] theorem State.setILen_opMaj (n : Half) : (s.setILen n).opMaj = s.opMaj := rfl
@[simp] theorem State.setILen_opMin (n : Half) : (s.setILen n).opMin = s.opMin := rfl
@[simp] theorem State.setILen_eChan (n : Half) : (s.setILen n).eChan = s.eChan := rfl
@[simp] theorem State.setILen_eLink (n : Half) : (s.setILen n).eLink = s.eLink := rfl
@[simp] theorem State.setILen_dSel (n : Half) : (s.setILen n).dSel = s.dSel := rfl
@[simp] theorem State.setILen_cksStart (n : Half) : (s.setILen n).cksStart = s.cksStart := rfl
@[simp] theorem State.setILen_cksEnd (n : Half) : (s.setILen n).cksEnd = s.cksEnd := rfl
@[simp] theorem State.setILen_ckr (n : Half) : (s.setILen n).ckr = s.ckr := rfl
@[simp] theorem State.setILen_iLen (n : Half) : (s.setILen n).iLen = n := rfl
@[simp] theorem State.setILen_oLen (n : Half) : (s.setILen n).oLen = s.oLen := rfl
@[simp] theorem State.setILen_pLen (n : Half) : (s.setILen n).pLen = s.pLen := rfl
@[simp] theorem State.setILen_vStat (n : Half) : (s.setILen n).vStat = s.vStat := rfl
@[simp] theorem State.setILen_fHdr0 (n : Half) : (s.setILen n).fHdr0 = s.fHdr0 := rfl
@[simp] theorem State.setILen_fChan (n : Half) : (s.setILen n).fChan = s.fChan := rfl
@[simp] theorem State.setILen_fHdr1 (n : Half) : (s.setILen n).fHdr1 = s.fHdr1 := rfl
@[simp] theorem State.setILen_fOpc (n : Half) : (s.setILen n).fOpc = s.fOpc := rfl
@[simp] theorem State.setILen_fRes (n : Half) : (s.setILen n).fRes = s.fRes := rfl
@[simp] theorem State.setILen_fTrl (n : Half) : (s.setILen n).fTrl = s.fTrl := rfl
@[simp] theorem State.setILen_dRes (n : Half) : (s.setILen n).dRes = s.dRes := rfl
@[simp] theorem State.setILen_strLen (n : Half) : (s.setILen n).strLen = s.strLen := rfl
@[simp] theorem State.setILen_mem (n : Half) : (s.setILen n).mem = s.mem := rfl
@[simp] theorem State.setILen_param (n : Half) : (s.setILen n).param = s.param := rfl
@[simp] theorem State.setILen_field (n : Half) : (s.setILen n).field = s.field := rfl
@[simp] theorem State.setILen_port (n : Half) : (s.setILen n).port = s.port := rfl
@[simp] theorem State.setILen_readData (n : Half) : (s.setILen n).readData = s.readData := rfl
@[simp] theorem State.setILen_walk (n : Half) : (s.setILen n).walk = s.walk := rfl
@[simp] theorem State.setILen_epoch (n : Half) : (s.setILen n).epoch = s.epoch := rfl
@[simp] theorem State.setILen_freeCount (n : Half) : (s.setILen n).freeCount = s.freeCount := rfl

/-! ### OLEN (R47) -/

@[simp] theorem State.setOLen_params (n : Nat) : (s.setOLen n).params = s.params := rfl
@[simp] theorem State.setOLen_cmd (n : Nat) : (s.setOLen n).cmd = s.cmd := rfl
@[simp] theorem State.setOLen_err (n : Nat) : (s.setOLen n).err = s.err := rfl
@[simp] theorem State.setOLen_errInfo (n : Nat) : (s.setOLen n).errInfo = s.errInfo := rfl
@[simp] theorem State.setOLen_status (n : Nat) : (s.setOLen n).status = s.status := rfl
@[simp] theorem State.setOLen_chan (n : Nat) : (s.setOLen n).chan = s.chan := rfl
@[simp] theorem State.setOLen_opMaj (n : Nat) : (s.setOLen n).opMaj = s.opMaj := rfl
@[simp] theorem State.setOLen_opMin (n : Nat) : (s.setOLen n).opMin = s.opMin := rfl
@[simp] theorem State.setOLen_eChan (n : Nat) : (s.setOLen n).eChan = s.eChan := rfl
@[simp] theorem State.setOLen_eLink (n : Nat) : (s.setOLen n).eLink = s.eLink := rfl
@[simp] theorem State.setOLen_dSel (n : Nat) : (s.setOLen n).dSel = s.dSel := rfl
@[simp] theorem State.setOLen_cksStart (n : Nat) : (s.setOLen n).cksStart = s.cksStart := rfl
@[simp] theorem State.setOLen_cksEnd (n : Nat) : (s.setOLen n).cksEnd = s.cksEnd := rfl
@[simp] theorem State.setOLen_ckr (n : Nat) : (s.setOLen n).ckr = s.ckr := rfl
@[simp] theorem State.setOLen_iLen (n : Nat) : (s.setOLen n).iLen = s.iLen := rfl
@[simp] theorem State.setOLen_oLen (n : Nat) : (s.setOLen n).oLen = BitVec.ofNat 16 n := rfl
@[simp] theorem State.setOLen_pLen (n : Nat) : (s.setOLen n).pLen = s.pLen := rfl
@[simp] theorem State.setOLen_vStat (n : Nat) : (s.setOLen n).vStat = s.vStat := rfl
@[simp] theorem State.setOLen_fHdr0 (n : Nat) : (s.setOLen n).fHdr0 = s.fHdr0 := rfl
@[simp] theorem State.setOLen_fChan (n : Nat) : (s.setOLen n).fChan = s.fChan := rfl
@[simp] theorem State.setOLen_fHdr1 (n : Nat) : (s.setOLen n).fHdr1 = s.fHdr1 := rfl
@[simp] theorem State.setOLen_fOpc (n : Nat) : (s.setOLen n).fOpc = s.fOpc := rfl
@[simp] theorem State.setOLen_fRes (n : Nat) : (s.setOLen n).fRes = s.fRes := rfl
@[simp] theorem State.setOLen_fTrl (n : Nat) : (s.setOLen n).fTrl = s.fTrl := rfl
@[simp] theorem State.setOLen_dRes (n : Nat) : (s.setOLen n).dRes = s.dRes := rfl
@[simp] theorem State.setOLen_strLen (n : Nat) : (s.setOLen n).strLen = s.strLen := rfl
@[simp] theorem State.setOLen_mem (n : Nat) : (s.setOLen n).mem = s.mem := rfl
@[simp] theorem State.setOLen_param (n : Nat) : (s.setOLen n).param = s.param := rfl
@[simp] theorem State.setOLen_field (n : Nat) : (s.setOLen n).field = s.field := rfl
@[simp] theorem State.setOLen_port (n : Nat) : (s.setOLen n).port = s.port := rfl
@[simp] theorem State.setOLen_readData (n : Nat) : (s.setOLen n).readData = s.readData := rfl
@[simp] theorem State.setOLen_walk (n : Nat) : (s.setOLen n).walk = s.walk := rfl
@[simp] theorem State.setOLen_epoch (n : Nat) : (s.setOLen n).epoch = s.epoch := rfl
@[simp] theorem State.setOLen_freeCount (n : Nat) : (s.setOLen n).freeCount = s.freeCount := rfl

/-! ### PLEN (R48) -/

@[simp] theorem State.setPLen_params (n : Half) : (s.setPLen n).params = s.params := rfl
@[simp] theorem State.setPLen_cmd (n : Half) : (s.setPLen n).cmd = s.cmd := rfl
@[simp] theorem State.setPLen_err (n : Half) : (s.setPLen n).err = s.err := rfl
@[simp] theorem State.setPLen_errInfo (n : Half) : (s.setPLen n).errInfo = s.errInfo := rfl
@[simp] theorem State.setPLen_status (n : Half) : (s.setPLen n).status = s.status := rfl
@[simp] theorem State.setPLen_chan (n : Half) : (s.setPLen n).chan = s.chan := rfl
@[simp] theorem State.setPLen_opMaj (n : Half) : (s.setPLen n).opMaj = s.opMaj := rfl
@[simp] theorem State.setPLen_opMin (n : Half) : (s.setPLen n).opMin = s.opMin := rfl
@[simp] theorem State.setPLen_eChan (n : Half) : (s.setPLen n).eChan = s.eChan := rfl
@[simp] theorem State.setPLen_eLink (n : Half) : (s.setPLen n).eLink = s.eLink := rfl
@[simp] theorem State.setPLen_dSel (n : Half) : (s.setPLen n).dSel = s.dSel := rfl
@[simp] theorem State.setPLen_cksStart (n : Half) : (s.setPLen n).cksStart = s.cksStart := rfl
@[simp] theorem State.setPLen_cksEnd (n : Half) : (s.setPLen n).cksEnd = s.cksEnd := rfl
@[simp] theorem State.setPLen_ckr (n : Half) : (s.setPLen n).ckr = s.ckr := rfl
@[simp] theorem State.setPLen_iLen (n : Half) : (s.setPLen n).iLen = s.iLen := rfl
@[simp] theorem State.setPLen_oLen (n : Half) : (s.setPLen n).oLen = s.oLen := rfl
@[simp] theorem State.setPLen_pLen (n : Half) : (s.setPLen n).pLen = n := rfl
@[simp] theorem State.setPLen_vStat (n : Half) : (s.setPLen n).vStat = s.vStat := rfl
@[simp] theorem State.setPLen_fHdr0 (n : Half) : (s.setPLen n).fHdr0 = s.fHdr0 := rfl
@[simp] theorem State.setPLen_fChan (n : Half) : (s.setPLen n).fChan = s.fChan := rfl
@[simp] theorem State.setPLen_fHdr1 (n : Half) : (s.setPLen n).fHdr1 = s.fHdr1 := rfl
@[simp] theorem State.setPLen_fOpc (n : Half) : (s.setPLen n).fOpc = s.fOpc := rfl
@[simp] theorem State.setPLen_fRes (n : Half) : (s.setPLen n).fRes = s.fRes := rfl
@[simp] theorem State.setPLen_fTrl (n : Half) : (s.setPLen n).fTrl = s.fTrl := rfl
@[simp] theorem State.setPLen_dRes (n : Half) : (s.setPLen n).dRes = s.dRes := rfl
@[simp] theorem State.setPLen_strLen (n : Half) : (s.setPLen n).strLen = s.strLen := rfl
@[simp] theorem State.setPLen_mem (n : Half) : (s.setPLen n).mem = s.mem := rfl
@[simp] theorem State.setPLen_param (n : Half) : (s.setPLen n).param = s.param := rfl
@[simp] theorem State.setPLen_field (n : Half) : (s.setPLen n).field = s.field := rfl
@[simp] theorem State.setPLen_port (n : Half) : (s.setPLen n).port = s.port := rfl
@[simp] theorem State.setPLen_readData (n : Half) : (s.setPLen n).readData = s.readData := rfl
@[simp] theorem State.setPLen_walk (n : Half) : (s.setPLen n).walk = s.walk := rfl
@[simp] theorem State.setPLen_epoch (n : Half) : (s.setPLen n).epoch = s.epoch := rfl
@[simp] theorem State.setPLen_freeCount (n : Half) : (s.setPLen n).freeCount = s.freeCount := rfl

/-! ### VSTAT (R49) -/

@[simp] theorem State.setVStat_params (v : Word) : (s.setVStat v).params = s.params := rfl
@[simp] theorem State.setVStat_cmd (v : Word) : (s.setVStat v).cmd = s.cmd := rfl
@[simp] theorem State.setVStat_err (v : Word) : (s.setVStat v).err = s.err := rfl
@[simp] theorem State.setVStat_errInfo (v : Word) : (s.setVStat v).errInfo = s.errInfo := rfl
@[simp] theorem State.setVStat_status (v : Word) : (s.setVStat v).status = s.status := rfl
@[simp] theorem State.setVStat_chan (v : Word) : (s.setVStat v).chan = s.chan := rfl
@[simp] theorem State.setVStat_opMaj (v : Word) : (s.setVStat v).opMaj = s.opMaj := rfl
@[simp] theorem State.setVStat_opMin (v : Word) : (s.setVStat v).opMin = s.opMin := rfl
@[simp] theorem State.setVStat_eChan (v : Word) : (s.setVStat v).eChan = s.eChan := rfl
@[simp] theorem State.setVStat_eLink (v : Word) : (s.setVStat v).eLink = s.eLink := rfl
@[simp] theorem State.setVStat_dSel (v : Word) : (s.setVStat v).dSel = s.dSel := rfl
@[simp] theorem State.setVStat_cksStart (v : Word) : (s.setVStat v).cksStart = s.cksStart := rfl
@[simp] theorem State.setVStat_cksEnd (v : Word) : (s.setVStat v).cksEnd = s.cksEnd := rfl
@[simp] theorem State.setVStat_ckr (v : Word) : (s.setVStat v).ckr = s.ckr := rfl
@[simp] theorem State.setVStat_iLen (v : Word) : (s.setVStat v).iLen = s.iLen := rfl
@[simp] theorem State.setVStat_oLen (v : Word) : (s.setVStat v).oLen = s.oLen := rfl
@[simp] theorem State.setVStat_pLen (v : Word) : (s.setVStat v).pLen = s.pLen := rfl
@[simp] theorem State.setVStat_vStat (v : Word) : (s.setVStat v).vStat = v := rfl
@[simp] theorem State.setVStat_fHdr0 (v : Word) : (s.setVStat v).fHdr0 = s.fHdr0 := rfl
@[simp] theorem State.setVStat_fChan (v : Word) : (s.setVStat v).fChan = s.fChan := rfl
@[simp] theorem State.setVStat_fHdr1 (v : Word) : (s.setVStat v).fHdr1 = s.fHdr1 := rfl
@[simp] theorem State.setVStat_fOpc (v : Word) : (s.setVStat v).fOpc = s.fOpc := rfl
@[simp] theorem State.setVStat_fRes (v : Word) : (s.setVStat v).fRes = s.fRes := rfl
@[simp] theorem State.setVStat_fTrl (v : Word) : (s.setVStat v).fTrl = s.fTrl := rfl
@[simp] theorem State.setVStat_dRes (v : Word) : (s.setVStat v).dRes = s.dRes := rfl
@[simp] theorem State.setVStat_strLen (v : Word) : (s.setVStat v).strLen = s.strLen := rfl
@[simp] theorem State.setVStat_mem (v : Word) : (s.setVStat v).mem = s.mem := rfl
@[simp] theorem State.setVStat_param (v : Word) : (s.setVStat v).param = s.param := rfl
@[simp] theorem State.setVStat_field (v : Word) : (s.setVStat v).field = s.field := rfl
@[simp] theorem State.setVStat_port (v : Word) : (s.setVStat v).port = s.port := rfl
@[simp] theorem State.setVStat_readData (v : Word) : (s.setVStat v).readData = s.readData := rfl
@[simp] theorem State.setVStat_walk (v : Word) : (s.setVStat v).walk = s.walk := rfl
@[simp] theorem State.setVStat_epoch (v : Word) : (s.setVStat v).epoch = s.epoch := rfl
@[simp] theorem State.setVStat_freeCount (v : Word) : (s.setVStat v).freeCount = s.freeCount := rfl

/-! ### DRES and STRLEN (R56, R57) -/

@[simp] theorem State.setResult_params (w : Word) (n : Nat) :
    (s.setResult w n).params = s.params := rfl
@[simp] theorem State.setResult_cmd (w : Word) (n : Nat) : (s.setResult w n).cmd = s.cmd := rfl
@[simp] theorem State.setResult_err (w : Word) (n : Nat) : (s.setResult w n).err = s.err := rfl
@[simp] theorem State.setResult_errInfo (w : Word) (n : Nat) :
    (s.setResult w n).errInfo = s.errInfo := rfl
@[simp] theorem State.setResult_status (w : Word) (n : Nat) :
    (s.setResult w n).status = s.status := rfl
@[simp] theorem State.setResult_chan (w : Word) (n : Nat) : (s.setResult w n).chan = s.chan := rfl
@[simp] theorem State.setResult_opMaj (w : Word) (n : Nat) :
    (s.setResult w n).opMaj = s.opMaj := rfl
@[simp] theorem State.setResult_opMin (w : Word) (n : Nat) :
    (s.setResult w n).opMin = s.opMin := rfl
@[simp] theorem State.setResult_eChan (w : Word) (n : Nat) :
    (s.setResult w n).eChan = s.eChan := rfl
@[simp] theorem State.setResult_eLink (w : Word) (n : Nat) :
    (s.setResult w n).eLink = s.eLink := rfl
@[simp] theorem State.setResult_dSel (w : Word) (n : Nat) : (s.setResult w n).dSel = s.dSel := rfl
@[simp] theorem State.setResult_cksStart (w : Word) (n : Nat) :
    (s.setResult w n).cksStart = s.cksStart := rfl
@[simp] theorem State.setResult_cksEnd (w : Word) (n : Nat) :
    (s.setResult w n).cksEnd = s.cksEnd := rfl
@[simp] theorem State.setResult_ckr (w : Word) (n : Nat) : (s.setResult w n).ckr = s.ckr := rfl
@[simp] theorem State.setResult_iLen (w : Word) (n : Nat) : (s.setResult w n).iLen = s.iLen := rfl
@[simp] theorem State.setResult_oLen (w : Word) (n : Nat) : (s.setResult w n).oLen = s.oLen := rfl
@[simp] theorem State.setResult_pLen (w : Word) (n : Nat) : (s.setResult w n).pLen = s.pLen := rfl
@[simp] theorem State.setResult_vStat (w : Word) (n : Nat) :
    (s.setResult w n).vStat = s.vStat := rfl
@[simp] theorem State.setResult_fHdr0 (w : Word) (n : Nat) :
    (s.setResult w n).fHdr0 = s.fHdr0 := rfl
@[simp] theorem State.setResult_fChan (w : Word) (n : Nat) :
    (s.setResult w n).fChan = s.fChan := rfl
@[simp] theorem State.setResult_fHdr1 (w : Word) (n : Nat) :
    (s.setResult w n).fHdr1 = s.fHdr1 := rfl
@[simp] theorem State.setResult_fOpc (w : Word) (n : Nat) : (s.setResult w n).fOpc = s.fOpc := rfl
@[simp] theorem State.setResult_fRes (w : Word) (n : Nat) : (s.setResult w n).fRes = s.fRes := rfl
@[simp] theorem State.setResult_fTrl (w : Word) (n : Nat) : (s.setResult w n).fTrl = s.fTrl := rfl
@[simp] theorem State.setResult_dRes (w : Word) (n : Nat) : (s.setResult w n).dRes = w := rfl
@[simp] theorem State.setResult_strLen (w : Word) (n : Nat) :
    (s.setResult w n).strLen = BitVec.ofNat 16 n := rfl
@[simp] theorem State.setResult_mem (w : Word) (n : Nat) : (s.setResult w n).mem = s.mem := rfl
@[simp] theorem State.setResult_param (w : Word) (n : Nat) :
    (s.setResult w n).param = s.param := rfl
@[simp] theorem State.setResult_field (w : Word) (n : Nat) :
    (s.setResult w n).field = s.field := rfl
@[simp] theorem State.setResult_port (w : Word) (n : Nat) : (s.setResult w n).port = s.port := rfl
@[simp] theorem State.setResult_readData (w : Word) (n : Nat) :
    (s.setResult w n).readData = s.readData := rfl
@[simp] theorem State.setResult_walk (w : Word) (n : Nat) : (s.setResult w n).walk = s.walk := rfl
@[simp] theorem State.setResult_epoch (w : Word) (n : Nat) :
    (s.setResult w n).epoch = s.epoch := rfl
@[simp] theorem State.setResult_freeCount (w : Word) (n : Nat) :
    (s.setResult w n).freeCount = s.freeCount := rfl

/-! ### EXTRACT (R162) -/

@[simp] theorem State.extract_params (n : Nat) : (s.extract n).params = s.params := rfl
@[simp] theorem State.extract_cmd (n : Nat) : (s.extract n).cmd = s.cmd := rfl
@[simp] theorem State.extract_err (n : Nat) : (s.extract n).err = s.err := rfl
@[simp] theorem State.extract_errInfo (n : Nat) : (s.extract n).errInfo = s.errInfo := rfl
@[simp] theorem State.extract_status (n : Nat) : (s.extract n).status = s.status := rfl
@[simp] theorem State.extract_chan (n : Nat) : (s.extract n).chan = s.chan := rfl
@[simp] theorem State.extract_opMaj (n : Nat) : (s.extract n).opMaj = s.opMaj := rfl
@[simp] theorem State.extract_opMin (n : Nat) : (s.extract n).opMin = s.opMin := rfl
@[simp] theorem State.extract_eChan (n : Nat) : (s.extract n).eChan = s.eChan := rfl
@[simp] theorem State.extract_eLink (n : Nat) : (s.extract n).eLink = s.eLink := rfl
@[simp] theorem State.extract_dSel (n : Nat) : (s.extract n).dSel = s.dSel := rfl
@[simp] theorem State.extract_cksStart (n : Nat) : (s.extract n).cksStart = s.cksStart := rfl
@[simp] theorem State.extract_cksEnd (n : Nat) : (s.extract n).cksEnd = s.cksEnd := rfl
@[simp] theorem State.extract_ckr (n : Nat) : (s.extract n).ckr = s.ckr := rfl
@[simp] theorem State.extract_iLen (n : Nat) : (s.extract n).iLen = s.iLen := rfl
@[simp] theorem State.extract_oLen (n : Nat) : (s.extract n).oLen = s.oLen := rfl
@[simp] theorem State.extract_pLen (n : Nat) : (s.extract n).pLen = s.pLen := rfl
@[simp] theorem State.extract_vStat (n : Nat) : (s.extract n).vStat = s.vStat := rfl
@[simp] theorem State.extract_dRes (n : Nat) : (s.extract n).dRes = s.dRes := rfl
@[simp] theorem State.extract_strLen (n : Nat) : (s.extract n).strLen = s.strLen := rfl
@[simp] theorem State.extract_mem (n : Nat) : (s.extract n).mem = s.mem := rfl
@[simp] theorem State.extract_param (n : Nat) : (s.extract n).param = s.param := rfl
@[simp] theorem State.extract_field (n : Nat) : (s.extract n).field = s.field := rfl
@[simp] theorem State.extract_port (n : Nat) : (s.extract n).port = s.port := rfl
@[simp] theorem State.extract_readData (n : Nat) : (s.extract n).readData = s.readData := rfl
@[simp] theorem State.extract_walk (n : Nat) : (s.extract n).walk = s.walk := rfl
@[simp] theorem State.extract_epoch (n : Nat) : (s.extract n).epoch = s.epoch := rfl
@[simp] theorem State.extract_freeCount (n : Nat) : (s.extract n).freeCount = s.freeCount := rfl

/-! ### emitting a frame (R160, R161) -/

@[simp] theorem State.emitFrame_params (fr : List Byte) : (s.emitFrame fr).params = s.params := rfl
@[simp] theorem State.emitFrame_cmd (fr : List Byte) : (s.emitFrame fr).cmd = s.cmd := rfl
@[simp] theorem State.emitFrame_err (fr : List Byte) : (s.emitFrame fr).err = 0 := rfl
@[simp] theorem State.emitFrame_errInfo (fr : List Byte) : (s.emitFrame fr).errInfo = 0 := rfl
@[simp] theorem State.emitFrame_status (fr : List Byte) : (s.emitFrame fr).status = s.status := rfl
@[simp] theorem State.emitFrame_chan (fr : List Byte) : (s.emitFrame fr).chan = s.chan := rfl
@[simp] theorem State.emitFrame_opMaj (fr : List Byte) : (s.emitFrame fr).opMaj = s.opMaj := rfl
@[simp] theorem State.emitFrame_opMin (fr : List Byte) : (s.emitFrame fr).opMin = s.opMin := rfl
@[simp] theorem State.emitFrame_eChan (fr : List Byte) : (s.emitFrame fr).eChan = s.eChan := rfl
@[simp] theorem State.emitFrame_eLink (fr : List Byte) : (s.emitFrame fr).eLink = s.eLink := rfl
@[simp] theorem State.emitFrame_dSel (fr : List Byte) : (s.emitFrame fr).dSel = s.dSel := rfl
@[simp] theorem State.emitFrame_cksStart (fr : List Byte) :
    (s.emitFrame fr).cksStart = s.cksStart := rfl
@[simp] theorem State.emitFrame_cksEnd (fr : List Byte) : (s.emitFrame fr).cksEnd = s.cksEnd := rfl
@[simp] theorem State.emitFrame_ckr (fr : List Byte) : (s.emitFrame fr).ckr = s.ckr := rfl
@[simp] theorem State.emitFrame_iLen (fr : List Byte) : (s.emitFrame fr).iLen = s.iLen := rfl
@[simp] theorem State.emitFrame_oLen (fr : List Byte) :
    (s.emitFrame fr).oLen = BitVec.ofNat 16 fr.length := rfl
@[simp] theorem State.emitFrame_pLen (fr : List Byte) : (s.emitFrame fr).pLen = s.pLen := rfl
@[simp] theorem State.emitFrame_vStat (fr : List Byte) : (s.emitFrame fr).vStat = s.vStat := rfl
@[simp] theorem State.emitFrame_fHdr0 (fr : List Byte) : (s.emitFrame fr).fHdr0 = s.fHdr0 := rfl
@[simp] theorem State.emitFrame_fChan (fr : List Byte) : (s.emitFrame fr).fChan = s.fChan := rfl
@[simp] theorem State.emitFrame_fHdr1 (fr : List Byte) : (s.emitFrame fr).fHdr1 = s.fHdr1 := rfl
@[simp] theorem State.emitFrame_fOpc (fr : List Byte) : (s.emitFrame fr).fOpc = s.fOpc := rfl
@[simp] theorem State.emitFrame_fRes (fr : List Byte) : (s.emitFrame fr).fRes = s.fRes := rfl
@[simp] theorem State.emitFrame_fTrl (fr : List Byte) : (s.emitFrame fr).fTrl = s.fTrl := rfl
@[simp] theorem State.emitFrame_dRes (fr : List Byte) : (s.emitFrame fr).dRes = s.dRes := rfl
@[simp] theorem State.emitFrame_strLen (fr : List Byte) : (s.emitFrame fr).strLen = s.strLen := rfl
@[simp] theorem State.emitFrame_mem (fr : List Byte) :
    (s.emitFrame fr).mem = Memory.putAll s.mem (Buf.obuf.base + 0) fr := rfl
@[simp] theorem State.emitFrame_param (fr : List Byte) : (s.emitFrame fr).param = s.param := rfl
@[simp] theorem State.emitFrame_field (fr : List Byte) : (s.emitFrame fr).field = s.field := rfl
@[simp] theorem State.emitFrame_port (fr : List Byte) : (s.emitFrame fr).port = s.port := rfl
@[simp] theorem State.emitFrame_readData (fr : List Byte) :
    (s.emitFrame fr).readData = s.readData := rfl
@[simp] theorem State.emitFrame_walk (fr : List Byte) : (s.emitFrame fr).walk = s.walk := rfl
@[simp] theorem State.emitFrame_epoch (fr : List Byte) : (s.emitFrame fr).epoch = s.epoch := rfl
@[simp] theorem State.emitFrame_freeCount (fr : List Byte) :
    (s.emitFrame fr).freeCount = s.freeCount := rfl

/-! ### committing a decode (R227) -/

@[simp] theorem State.commitDecode_params (k : ResKind) (es : List FieldEntry) (str : List Byte) :
    (s.commitDecode k es str).params = s.params := by simp [State.commitDecode]
@[simp] theorem State.commitDecode_cmd (k : ResKind) (es : List FieldEntry) (str : List Byte) :
    (s.commitDecode k es str).cmd = s.cmd := by simp [State.commitDecode]
@[simp] theorem State.commitDecode_err (k : ResKind) (es : List FieldEntry) (str : List Byte) :
    (s.commitDecode k es str).err = 0 := by simp [State.commitDecode]
@[simp] theorem State.commitDecode_errInfo (k : ResKind) (es : List FieldEntry) (str : List Byte) :
    (s.commitDecode k es str).errInfo = 0 := by simp [State.commitDecode]
@[simp] theorem State.commitDecode_status (k : ResKind) (es : List FieldEntry) (str : List Byte) :
    (s.commitDecode k es str).status = s.status ||| StatusBit.dV.mask := by simp [State.commitDecode]
@[simp] theorem State.commitDecode_chan (k : ResKind) (es : List FieldEntry) (str : List Byte) :
    (s.commitDecode k es str).chan = s.chan := by simp [State.commitDecode]
@[simp] theorem State.commitDecode_opMaj (k : ResKind) (es : List FieldEntry) (str : List Byte) :
    (s.commitDecode k es str).opMaj = s.opMaj := by simp [State.commitDecode]
@[simp] theorem State.commitDecode_opMin (k : ResKind) (es : List FieldEntry) (str : List Byte) :
    (s.commitDecode k es str).opMin = s.opMin := by simp [State.commitDecode]
@[simp] theorem State.commitDecode_eChan (k : ResKind) (es : List FieldEntry) (str : List Byte) :
    (s.commitDecode k es str).eChan = s.eChan := by simp [State.commitDecode]
@[simp] theorem State.commitDecode_eLink (k : ResKind) (es : List FieldEntry) (str : List Byte) :
    (s.commitDecode k es str).eLink = s.eLink := by simp [State.commitDecode]
@[simp] theorem State.commitDecode_dSel (k : ResKind) (es : List FieldEntry) (str : List Byte) :
    (s.commitDecode k es str).dSel = s.dSel := by simp [State.commitDecode]
@[simp] theorem State.commitDecode_cksStart (k : ResKind) (es : List FieldEntry) (str : List Byte) :
    (s.commitDecode k es str).cksStart = s.cksStart := by simp [State.commitDecode]
@[simp] theorem State.commitDecode_cksEnd (k : ResKind) (es : List FieldEntry) (str : List Byte) :
    (s.commitDecode k es str).cksEnd = s.cksEnd := by simp [State.commitDecode]
@[simp] theorem State.commitDecode_ckr (k : ResKind) (es : List FieldEntry) (str : List Byte) :
    (s.commitDecode k es str).ckr = s.ckr := by simp [State.commitDecode]
@[simp] theorem State.commitDecode_iLen (k : ResKind) (es : List FieldEntry) (str : List Byte) :
    (s.commitDecode k es str).iLen = s.iLen := by simp [State.commitDecode]
@[simp] theorem State.commitDecode_oLen (k : ResKind) (es : List FieldEntry) (str : List Byte) :
    (s.commitDecode k es str).oLen = s.oLen := by simp [State.commitDecode]
@[simp] theorem State.commitDecode_pLen (k : ResKind) (es : List FieldEntry) (str : List Byte) :
    (s.commitDecode k es str).pLen = s.pLen := by simp [State.commitDecode]
@[simp] theorem State.commitDecode_vStat (k : ResKind) (es : List FieldEntry) (str : List Byte) :
    (s.commitDecode k es str).vStat = s.vStat := by simp [State.commitDecode]
@[simp] theorem State.commitDecode_fHdr0 (k : ResKind) (es : List FieldEntry) (str : List Byte) :
    (s.commitDecode k es str).fHdr0 = s.fHdr0 := by simp [State.commitDecode]
@[simp] theorem State.commitDecode_fChan (k : ResKind) (es : List FieldEntry) (str : List Byte) :
    (s.commitDecode k es str).fChan = s.fChan := by simp [State.commitDecode]
@[simp] theorem State.commitDecode_fHdr1 (k : ResKind) (es : List FieldEntry) (str : List Byte) :
    (s.commitDecode k es str).fHdr1 = s.fHdr1 := by simp [State.commitDecode]
@[simp] theorem State.commitDecode_fOpc (k : ResKind) (es : List FieldEntry) (str : List Byte) :
    (s.commitDecode k es str).fOpc = s.fOpc := by simp [State.commitDecode]
@[simp] theorem State.commitDecode_fRes (k : ResKind) (es : List FieldEntry) (str : List Byte) :
    (s.commitDecode k es str).fRes = s.fRes := by simp [State.commitDecode]
@[simp] theorem State.commitDecode_fTrl (k : ResKind) (es : List FieldEntry) (str : List Byte) :
    (s.commitDecode k es str).fTrl = s.fTrl := by simp [State.commitDecode]
@[simp] theorem State.commitDecode_dRes (k : ResKind) (es : List FieldEntry) (str : List Byte) :
    (s.commitDecode k es str).dRes = dresWord k es.length := by simp [State.commitDecode]
@[simp] theorem State.commitDecode_strLen (k : ResKind) (es : List FieldEntry) (str : List Byte) :
    (s.commitDecode k es str).strLen = BitVec.ofNat 16 str.length := by simp [State.commitDecode]
@[simp] theorem State.commitDecode_mem (k : ResKind) (es : List FieldEntry) (str : List Byte) :
    (s.commitDecode k es str).mem = Memory.putAll s.mem (Buf.strbuf.base + 0) str := by
  simp [State.commitDecode]
@[simp] theorem State.commitDecode_param (k : ResKind) (es : List FieldEntry) (str : List Byte) :
    (s.commitDecode k es str).param = s.param := by simp [State.commitDecode]
@[simp] theorem State.commitDecode_field (k : ResKind) (es : List FieldEntry) (str : List Byte) :
    (s.commitDecode k es str).field = es ++ s.field.drop es.length := by simp [State.commitDecode]
@[simp] theorem State.commitDecode_port (k : ResKind) (es : List FieldEntry) (str : List Byte) :
    (s.commitDecode k es str).port = s.port := by simp [State.commitDecode]
@[simp] theorem State.commitDecode_readData (k : ResKind) (es : List FieldEntry) (str : List Byte) :
    (s.commitDecode k es str).readData = s.readData := by simp [State.commitDecode]
@[simp] theorem State.commitDecode_walk (k : ResKind) (es : List FieldEntry) (str : List Byte) :
    (s.commitDecode k es str).walk = s.walk := by simp [State.commitDecode]
@[simp] theorem State.commitDecode_epoch (k : ResKind) (es : List FieldEntry) (str : List Byte) :
    (s.commitDecode k es str).epoch = s.epoch := by simp [State.commitDecode]
@[simp] theorem State.commitDecode_freeCount (k : ResKind) (es : List FieldEntry) (str : List Byte) :
    (s.commitDecode k es str).freeCount = s.freeCount := by simp [State.commitDecode]

end Sys2Proof.Machine
end

