-- ==== Sys2Proof/Laws/Memory.lean ====
section
/-!
SUPPORT. Sys2Proof/Laws/Memory.lean: reading after writing, and the canonical form of memory, kept by
every memory operation.
-/
namespace Sys2Proof.Machine

/-! ### Reading after writing -/

theorem Memory.get?_put (m : List Host.Cell) (a : Nat) (v : Byte) (x : Nat) :
    Memory.get? (Memory.put m a v) x = if a = x then some v else Memory.get? m x := by
  induction m with
  | nil => rfl
  | cons c m ih =>
    obtain ⟨k, b⟩ := c
    simp only [Memory.put]
    split
    · rfl
    · split
      · subst_vars
        simp only [Memory.get?]
        split <;> rfl
      · simp only [Memory.get?, ih]
        split
        · subst_vars
          rw [if_neg (by assumption)]
        · rfl

/-- What a block write leaves at every address. -/
theorem Memory.get?_putAll (bs : List Byte) : ∀ (m : List Host.Cell) (a x : Nat),
    Memory.get? (Memory.putAll m a bs) x
      = if a ≤ x ∧ x < a + bs.length then bs[x - a]? else Memory.get? m x := by
  induction bs with
  | nil =>
    intro m a x
    rw [if_neg (by simp)]
    rfl
  | cons b bs ih =>
    intro m a x
    rw [Memory.putAll, ih, Memory.get?_put, List.length_cons]
    by_cases h1 : a = x
    · subst h1
      simp
    · by_cases h2 : a + 1 ≤ x ∧ x < a + 1 + bs.length
      · have h3 : x - a = (x - (a + 1)) + 1 := by omega
        rw [if_pos h2, if_pos (by omega), h3, List.getElem?_cons_succ]
      · rw [if_neg h2, if_neg h1, if_neg (by omega)]

/-- Every address after a store: inside the stored bytes, the byte stored; outside, as before. -/
theorem State.readAddr_store (s : State) (b : Buf) (a : Nat) (bs : List Byte) (x : Nat) :
    (s.store b a bs).readAddr x
      = if h : b.base + a ≤ x ∧ x < b.base + a + bs.length
        then bs[x - (b.base + a)]'(by omega) else s.readAddr x := by
  simp only [State.readAddr, State.store_mem, State.store_epoch, Memory.get?_putAll]
  by_cases h : b.base + a ≤ x ∧ x < b.base + a + bs.length
  · rw [if_pos h, dif_pos h, List.getElem?_eq_getElem (by omega)]
    rfl
  · rw [if_neg h, dif_neg h]

/-- Outside the stored bytes nothing changes. -/
theorem State.readAddr_store_outside (s : State) (b : Buf) (a : Nat) (bs : List Byte) (x : Nat)
    (h : ¬ (b.base + a ≤ x ∧ x < b.base + a + bs.length)) :
    (s.store b a bs).readAddr x = s.readAddr x := by
  rw [State.readAddr_store, dif_neg h]

/-- Inside, the byte stored is read back. -/
theorem State.byte_store_same (s : State) (b : Buf) (a : Nat) (bs : List Byte) (i : Nat)
    (h : i < bs.length) : (s.store b a bs).byte b (a + i) = bs[i] := by
  have hx : b.base + (a + i) - (b.base + a) = i := by omega
  rw [State.byte, State.readAddr_store, dif_pos (by omega)]
  simp [hx]

/-- A store that starts at index 0 of the buffer. -/
theorem State.byte_store_zero (s : State) (b : Buf) (bs : List Byte) (i : Nat)
    (h : i < bs.length) : (s.store b 0 bs).byte b i = bs[i] := by
  have := State.byte_store_same s b 0 bs i h
  rwa [Nat.zero_add] at this

/-! ### Byte strings of a buffer -/

@[simp] theorem State.length_bytes (s : State) (b : Buf) (a n : Nat) : (s.bytes b a n).length = n := by
  simp [State.bytes]

@[simp] theorem State.getElem_bytes (s : State) (b : Buf) (a n i : Nat) (h : i < (s.bytes b a n).length) :
    (s.bytes b a n)[i] = s.byte b (a + i) := by
  simp [State.bytes]

/-- A byte string is its beginning and its end. -/
theorem State.bytes_append (s : State) (b : Buf) (a m n : Nat) :
    s.bytes b a (m + n) = s.bytes b a m ++ s.bytes b (a + m) n := by
  apply List.ext_getElem
  · simp
  · intro i h1 h2
    by_cases hi : i < m
    · rw [List.getElem_append_left (by simpa using hi)]
      simp
    · rw [List.getElem_append_right (by simpa using hi)]
      simp only [State.getElem_bytes, State.length_bytes]
      congr 1
      omega

theorem State.bytes_zero (s : State) (b : Buf) (a : Nat) : s.bytes b a 0 = [] := rfl

theorem State.bytes_succ (s : State) (b : Buf) (a n : Nat) :
    s.bytes b a (n + 1) = s.byte b a :: s.bytes b (a + 1) n := by
  rw [Nat.add_comm n 1, State.bytes_append]
  rfl

/-- Byte strings agree when their bytes do. -/
theorem State.bytes_congr (s t : State) (b : Buf) (a n : Nat)
    (h : ∀ i, i < n → s.byte b (a + i) = t.byte b (a + i)) : s.bytes b a n = t.bytes b a n := by
  apply List.map_congr_left
  intro k hk
  exact h k (List.mem_range.mp hk)

/-- The bytes just stored are read back. -/
theorem State.bytes_store_same (s : State) (b : Buf) (a : Nat) (bs : List Byte) :
    (s.store b a bs).bytes b a bs.length = bs := by
  apply List.ext_getElem
  · simp
  · intro i h1 h2
    rw [State.getElem_bytes, State.byte_store_same s b a bs i h2]

/-! ### The canonical form -/

/-- An address of a buffer's window (R81). -/
theorem Buf.holds_iff (b : Buf) (a : Nat) : b.holds a = true ↔ b.base ≤ a ∧ a < b.base + b.size := by
  simp [Buf.holds]

/-- A buffer's bytes are mapped addresses. -/
theorem bufferAt_base (b : Buf) (i : Nat) (h : i < b.size) : (bufferAt (b.base + i)).isSome = true := by
  have hb : b.holds (b.base + i) = true := by simp [Buf.holds, h]
  unfold bufferAt
  cases b <;> repeat' (split; rfl)
  all_goals simp_all

/-- A mapped byte address lies in the window it is said to lie in. -/
theorem bufferAt_eq_some (a : Nat) (b : Buf) (h : bufferAt a = some b) :
    b.base ≤ a ∧ a < b.base + b.size := by
  unfold bufferAt at h
  (repeat' split at h) <;> simp_all [Buf.holds]

/-- Every address of a written memory was there before or is the one written. -/
theorem Memory.mem_put (m : List Host.Cell) (a : Nat) (v : Byte) (c : Host.Cell)
    (h : c ∈ Memory.put m a v) : c ∈ m ∨ c = (a, v) := by
  induction m with
  | nil => simpa [Memory.put] using h
  | cons x m ih =>
    obtain ⟨k, b⟩ := x
    simp only [Memory.put] at h
    split at h
    · rcases List.mem_cons.mp h with h | h
      · exact .inr h
      · exact .inl h
    · split at h
      · rcases List.mem_cons.mp h with h | h
        · exact .inr h
        · exact .inl (List.mem_cons_of_mem _ h)
      · rcases List.mem_cons.mp h with h | h
        · exact .inl (h ▸ List.mem_cons_self)
        · exact (ih h).imp (List.mem_cons_of_mem _) id

/-- One write keeps the addresses strictly rising. -/
theorem Memory.pairwise_put (m : List Host.Cell) (a : Nat) (v : Byte)
    (h : m.Pairwise (fun x y => x.1 < y.1)) :
    (Memory.put m a v).Pairwise (fun x y => x.1 < y.1) := by
  induction m with
  | nil => simp [Memory.put]
  | cons x m ih =>
    obtain ⟨k, b⟩ := x
    obtain ⟨hk, hm⟩ := List.pairwise_cons.mp h
    simp only [Memory.put]
    split
    · rename_i hlt
      refine List.pairwise_cons.mpr ⟨fun y hy => ?_, h⟩
      rcases List.mem_cons.mp hy with rfl | hy
      · exact hlt
      · exact Nat.lt_trans hlt (hk y hy)
    · split
      · rename_i heq
        exact List.pairwise_cons.mpr ⟨fun y hy => heq ▸ hk y hy, hm⟩
      · refine List.pairwise_cons.mpr ⟨fun y hy => ?_, ih hm⟩
        rcases Memory.mem_put m a v y hy with hy | rfl
        · exact hk y hy
        · show k < a
          omega

/-- One write to a mapped address keeps the canonical form. -/
theorem Memory.wf_put (m : List Host.Cell) (a : Nat) (v : Byte) (h : Memory.wf m)
    (ha : (bufferAt a).isSome = true) : Memory.wf (Memory.put m a v) := by
  refine ⟨Memory.pairwise_put m a v h.1, fun c hc => ?_⟩
  rcases Memory.mem_put m a v c hc with hc | rfl
  · exact h.2 c hc
  · exact ha

/-- A block write to mapped addresses keeps the canonical form. -/
theorem Memory.wf_putAll (bs : List Byte) : ∀ (m : List Host.Cell) (a : Nat), Memory.wf m →
    (∀ i, i < bs.length → (bufferAt (a + i)).isSome = true) → Memory.wf (Memory.putAll m a bs) := by
  induction bs with
  | nil => exact fun m a h _ => h
  | cons b bs ih =>
    intro m a h ha
    refine ih _ _ (Memory.wf_put m a b h (ha 0 (by simp))) fun i hi => ?_
    have := ha (i + 1) (by simpa using hi)
    rwa [Nat.add_assoc, Nat.add_comm 1 i]

/-- A store inside a buffer keeps the canonical form. -/
theorem State.wf_store (s : State) (b : Buf) (a : Nat) (bs : List Byte) (h : Memory.wf s.mem)
    (hb : a + bs.length ≤ b.size) : Memory.wf (s.store b a bs).mem := by
  refine Memory.wf_putAll bs _ _ h fun i hi => ?_
  have := bufferAt_base b (a + i) (by omega)
  rwa [← Nat.add_assoc] at this

/-- The memory after reset has the canonical form. -/
theorem State.reset_mem_wf : Memory.wf State.reset.mem := by decide

end Sys2Proof.Machine
end

