-- ==== Sys2Proof/Laws/Codec.lean ====
section
/-!
SUPPORT. Sys2Proof/Laws/Codec.lean: little-endian strings (R10), the checksum as a fold (R140) and the
shape of built frames (R110).
-/
namespace Sys2Proof.Machine

/-! ### Little-endian strings -/

@[simp] theorem length_leBytes (n v : Nat) : (leBytes n v).length = n := by
  induction n generalizing v with
  | zero => rfl
  | succ n ih => simp [leBytes, ih]

/-- The value of the little-endian bytes of a value that fits them. -/
theorem leNat_leBytes (n v : Nat) (h : v < 256 ^ n) : leNat (leBytes n v) = v := by
  induction n generalizing v with
  | zero =>
    simp [leBytes, leNat] at *
    omega
  | succ n ih =>
    have := ih (v / 256) (by rw [Nat.pow_succ] at h; omega)
    simp [leBytes, leNat, this]
    omega

/-- A string of n bytes is below 256^n. -/
theorem leNat_lt (bs : List Byte) : leNat bs < 256 ^ bs.length := by
  induction bs with
  | nil => decide
  | cons b bs ih =>
    have hb : b.toNat < 256 := b.isLt
    rw [leNat, List.length_cons, Nat.pow_succ]
    omega

@[simp] theorem leNat_append (xs ys : List Byte) :
    leNat (xs ++ ys) = leNat xs + 256 ^ xs.length * leNat ys := by
  induction xs with
  | nil => simp [leNat]
  | cons x xs ih =>
    simp only [List.cons_append, leNat, ih, List.length_cons, Nat.pow_succ]
    ring

/-- The bounds of a field read. -/
theorem State.memRead_lt (s : State) (b : Buf) (a n : Nat) : s.memRead b a n < 256 ^ n := by
  have := leNat_lt (s.bytes b a n)
  rwa [State.length_bytes] at this

/-- Reads agree when the bytes read do. -/
theorem State.memRead_congr (s t : State) (b : Buf) (a n : Nat)
    (h : ∀ i, i < n → s.byte b (a + i) = t.byte b (a + i)) : s.memRead b a n = t.memRead b a n := by
  rw [State.memRead, State.bytes_congr s t b a n h, State.memRead]

/-! ### The checksum -/

@[simp] theorem crc8_nil : crc8 [] = 0 := rfl

/-- The checksum of a string goes on from the checksum of its beginning. -/
theorem crc8_append (xs ys : List Byte) : crc8 (xs ++ ys) = ys.foldl crcByte (crc8 xs) := by
  simp [crc8]

@[simp] theorem crcShift_zero : crcShift 0#8 = 0#8 := by decide

@[simp] theorem crcShift8_zero : crcShift8 0#8 = 0#8 := by decide

/-- The register's own value sends it to zero. -/
@[simp] theorem crcByte_self (c : Byte) : crcByte c c = 0 := by simp [crcByte]

/-- A checksum range one byte longer. -/
theorem State.crcRange_succ (s : State) (buf : Buf) (a b : Nat) (h : a ≤ b) :
    s.crcRange buf a (b + 1) = crcByte (s.crcRange buf a b) (s.byte buf (b + 1)) := by
  have hn : b + 1 + 1 - a = (b + 1 - a) + 1 := by omega
  have hb : a + (b + 1 - a) = b + 1 := by omega
  rw [State.crcRange, hn, State.bytes_append, crc8_append, hb]
  rfl

/-- Checksum ranges agree when the bytes do. -/
theorem State.crcRange_congr (s t : State) (buf : Buf) (a b : Nat)
    (h : ∀ i, a ≤ i → i ≤ b → s.byte buf i = t.byte buf i) :
    s.crcRange buf a b = t.crcRange buf a b := by
  rw [State.crcRange, State.bytes_congr s t buf a _ fun i hi => h _ (by omega) (by omega), State.crcRange]

/-! ### Frames -/

@[simp] theorem length_frameHead (len : Byte) (chan : Word) (link : Byte) :
    (frameHead len chan link).length = 9 := by simp [frameHead]

@[simp] theorem length_frameFront (len : Byte) (chan : Word) (link : Byte) (body : List Byte) :
    (frameFront len chan link body).length = 10 + body.length := by simp [frameFront]; omega

/-- A frame is twelve bytes longer than its body (R110). -/
@[simp] theorem length_buildFrame (len : Byte) (chan : Word) (link : Byte) (body : List Byte) :
    (buildFrame len chan link body).length = body.length + 12 := by simp [buildFrame]; omega

@[simp] theorem length_requestHeader (major : Half) (minor : Byte) (p : Nat) :
    (requestHeader major minor p).length = 8 := by simp [requestHeader]

end Sys2Proof.Machine
end

