-- ==== Sys2Proof/Laws/Flags.lean ====
section
/-!
SUPPORT. Sys2Proof/Laws/Flags.lean: STATUS bits under every update, and the bits of the words Flags.lean
puts together.
-/
namespace Sys2Proof.Machine

/-! ### STATUS -/

theorem StatusBit.pos_lt (b : StatusBit) : b.pos < 13 := by cases b <;> decide

theorem StatusBit.pos_inj {b c : StatusBit} : b.pos = c.pos ↔ b = c := by
  cases b <;> cases c <;> decide

/-- The bits of a STATUS mask. -/
theorem StatusBit.getLsbD_mask (b : StatusBit) (i : Nat) : b.mask.getLsbD i = decide (i = b.pos) := by
  have hb := b.pos_lt
  simp only [StatusBit.mask, BitVec.getLsbD_shiftLeft, BitVec.getLsbD_one]
  by_cases h : i = b.pos
  · subst h
    simp
    omega
  · simp only [h, decide_false]
    simp
    omega

/-- Setting a bit sets it and no other. -/
@[simp] theorem State.flag_setFlag (s : State) (b c : StatusBit) :
    (s.setFlag b).flag c = (s.flag c || decide (c = b)) := by
  simp [State.flag, BitVec.getLsbD_or, StatusBit.getLsbD_mask, StatusBit.pos_inj]

/-- Clearing a bit clears it and no other. -/
@[simp] theorem State.flag_clearFlag (s : State) (b c : StatusBit) :
    (s.clearFlag b).flag c = (s.flag c && !decide (c = b)) := by
  have hc : c.pos < 32 := Nat.lt_trans c.pos_lt (by decide)
  simp only [State.flag, State.clearFlag_status, BitVec.getLsbD_and, BitVec.getLsbD_not,
    StatusBit.getLsbD_mask, StatusBit.pos_inj, decide_eq_true hc, Bool.true_and]

/-- Raising an error sets ESTICKY and no other bit (R298). -/
@[simp] theorem State.flag_raise (s : State) (e : ErrorCode) (info : Word) (c : StatusBit) :
    (s.raise e info).flag c = (s.flag c || decide (c = .esticky)) :=
  State.flag_setFlag s .esticky c

/-- Completing changes no STATUS bit (R299). -/
@[simp] theorem State.flag_complete (s : State) (c : StatusBit) : s.complete.flag c = s.flag c := rfl

/-- Storing bytes changes no STATUS bit. -/
@[simp] theorem State.flag_store (s : State) (b : Buf) (a : Nat) (bs : List Byte) (c : StatusBit) :
    (s.store b a bs).flag c = s.flag c := rfl

/-- Extracting changes no STATUS bit. -/
@[simp] theorem State.flag_extract (s : State) (n : Nat) (c : StatusBit) :
    (s.extract n).flag c = s.flag c := rfl

@[simp] theorem State.flag_setCkr (s : State) (v : Byte) (c : StatusBit) :
    (s.setCkr v).flag c = s.flag c := rfl

@[simp] theorem State.flag_setOLen (s : State) (n : Nat) (c : StatusBit) :
    (s.setOLen n).flag c = s.flag c := rfl

@[simp] theorem State.flag_setPLen (s : State) (n : Half) (c : StatusBit) :
    (s.setPLen n).flag c = s.flag c := rfl

@[simp] theorem State.flag_setVStat (s : State) (v : Word) (c : StatusBit) :
    (s.setVStat v).flag c = s.flag c := rfl

@[simp] theorem State.flag_setResult (s : State) (w : Word) (n : Nat) (c : StatusBit) :
    (s.setResult w n).flag c = s.flag c := rfl

@[simp] theorem State.flag_storeFields (s : State) (es : List FieldEntry) (c : StatusBit) :
    (s.storeFields es).flag c = s.flag c := rfl

/-- Emitting a frame changes no STATUS bit (R160, R161). -/
@[simp] theorem State.flag_emitFrame (s : State) (fr : List Byte) (c : StatusBit) :
    (s.emitFrame fr).flag c = s.flag c := rfl

/-- Committing a decode sets DV and no other bit (R227). -/
@[simp] theorem State.flag_commitDecode (s : State) (k : ResKind) (es : List FieldEntry)
    (str : List Byte) (c : StatusBit) :
    (s.commitDecode k es str).flag c = (s.flag c || decide (c = .dV)) :=
  State.flag_setFlag s .dV c

/-- Writing an argument register sets its validity bit and no other (R59). -/
@[simp] theorem State.flag_writeArg (s : State) (r : ArgReg) (v : Word) (c : StatusBit) :
    (s.writeArg r v).flag c = (s.flag c || decide (c = r.validBit)) := by
  rw [← State.flag_setFlag]
  cases r <;> rfl

/-- The STATUS word after an argument register is written (R59). -/
@[simp] theorem State.writeArg_status (s : State) (r : ArgReg) (v : Word) :
    (s.writeArg r v).status = s.status ||| r.validBit.mask := by cases r <;> rfl

@[simp] theorem State.writeArg_params (s : State) (r : ArgReg) (v : Word) :
    (s.writeArg r v).params = s.params := by cases r <;> rfl

@[simp] theorem State.writeArg_cmd (s : State) (r : ArgReg) (v : Word) :
    (s.writeArg r v).cmd = s.cmd := by cases r <;> rfl

@[simp] theorem State.writeArg_err (s : State) (r : ArgReg) (v : Word) :
    (s.writeArg r v).err = s.err := by cases r <;> rfl

@[simp] theorem State.writeArg_errInfo (s : State) (r : ArgReg) (v : Word) :
    (s.writeArg r v).errInfo = s.errInfo := by cases r <;> rfl

@[simp] theorem State.writeArg_ckr (s : State) (r : ArgReg) (v : Word) :
    (s.writeArg r v).ckr = s.ckr := by cases r <;> rfl

@[simp] theorem State.writeArg_iLen (s : State) (r : ArgReg) (v : Word) :
    (s.writeArg r v).iLen = s.iLen := by cases r <;> rfl

@[simp] theorem State.writeArg_oLen (s : State) (r : ArgReg) (v : Word) :
    (s.writeArg r v).oLen = s.oLen := by cases r <;> rfl

@[simp] theorem State.writeArg_pLen (s : State) (r : ArgReg) (v : Word) :
    (s.writeArg r v).pLen = s.pLen := by cases r <;> rfl

@[simp] theorem State.writeArg_vStat (s : State) (r : ArgReg) (v : Word) :
    (s.writeArg r v).vStat = s.vStat := by cases r <;> rfl

@[simp] theorem State.writeArg_fHdr0 (s : State) (r : ArgReg) (v : Word) :
    (s.writeArg r v).fHdr0 = s.fHdr0 := by cases r <;> rfl

@[simp] theorem State.writeArg_fChan (s : State) (r : ArgReg) (v : Word) :
    (s.writeArg r v).fChan = s.fChan := by cases r <;> rfl

@[simp] theorem State.writeArg_fHdr1 (s : State) (r : ArgReg) (v : Word) :
    (s.writeArg r v).fHdr1 = s.fHdr1 := by cases r <;> rfl

@[simp] theorem State.writeArg_fOpc (s : State) (r : ArgReg) (v : Word) :
    (s.writeArg r v).fOpc = s.fOpc := by cases r <;> rfl

@[simp] theorem State.writeArg_fRes (s : State) (r : ArgReg) (v : Word) :
    (s.writeArg r v).fRes = s.fRes := by cases r <;> rfl

@[simp] theorem State.writeArg_fTrl (s : State) (r : ArgReg) (v : Word) :
    (s.writeArg r v).fTrl = s.fTrl := by cases r <;> rfl

@[simp] theorem State.writeArg_dRes (s : State) (r : ArgReg) (v : Word) :
    (s.writeArg r v).dRes = s.dRes := by cases r <;> rfl

@[simp] theorem State.writeArg_strLen (s : State) (r : ArgReg) (v : Word) :
    (s.writeArg r v).strLen = s.strLen := by cases r <;> rfl

@[simp] theorem State.writeArg_mem (s : State) (r : ArgReg) (v : Word) :
    (s.writeArg r v).mem = s.mem := by cases r <;> rfl

@[simp] theorem State.writeArg_param (s : State) (r : ArgReg) (v : Word) :
    (s.writeArg r v).param = s.param := by cases r <;> rfl

@[simp] theorem State.writeArg_field (s : State) (r : ArgReg) (v : Word) :
    (s.writeArg r v).field = s.field := by cases r <;> rfl

@[simp] theorem State.writeArg_port (s : State) (r : ArgReg) (v : Word) :
    (s.writeArg r v).port = s.port := by cases r <;> rfl

@[simp] theorem State.writeArg_readData (s : State) (r : ArgReg) (v : Word) :
    (s.writeArg r v).readData = s.readData := by cases r <;> rfl

@[simp] theorem State.writeArg_walk (s : State) (r : ArgReg) (v : Word) :
    (s.writeArg r v).walk = s.walk := by cases r <;> rfl

@[simp] theorem State.writeArg_epoch (s : State) (r : ArgReg) (v : Word) :
    (s.writeArg r v).epoch = s.epoch := by cases r <;> rfl

@[simp] theorem State.writeArg_freeCount (s : State) (r : ArgReg) (v : Word) :
    (s.writeArg r v).freeCount = s.freeCount := by cases r <;> rfl

/-- Every bit is clear after reset (R71). -/
@[simp] theorem State.flag_reset (c : StatusBit) : State.reset.flag c = false := by
  cases c <;> decide

/-- The reserved STATUS bits stay 0 when a bit is set. -/
theorem State.reserved_setFlag (s : State) (b : StatusBit) (h : s.status &&& 0xFFFFE000 = 0) :
    (s.setFlag b).status &&& 0xFFFFE000 = 0 := by
  rw [State.setFlag_status, BitVec.and_comm, BitVec.and_or_distrib_left, BitVec.and_comm, h]
  cases b <;> decide

/-- The reserved STATUS bits stay 0 when a bit is cleared. -/
theorem State.reserved_clearFlag (s : State) (b : StatusBit) (h : s.status &&& 0xFFFFE000 = 0) :
    (s.clearFlag b).status &&& 0xFFFFE000 = 0 := by
  rw [State.clearFlag_status, BitVec.and_assoc, BitVec.and_comm (~~~ b.mask), ← BitVec.and_assoc, h]
  simp

/-! ### Error codes (R281) -/

theorem ErrorCode.code_ne_zero (e : ErrorCode) : e.code ≠ 0 := by cases e <;> decide

theorem ErrorCode.code_le (e : ErrorCode) : e.code.toNat ≤ 14 := by cases e <;> decide

/-! ### VSTAT and DRES -/

/-- The bits of `bitAt`. -/
theorem getLsbD_bitAt (i j : Nat) (b : Bool) (hi : i < 32) :
    (bitAt i b).getLsbD j = (b && decide (j = i)) := by
  cases b
  · simp [bitAt]
  · simp only [bitAt, if_true, BitVec.getLsbD_shiftLeft, BitVec.getLsbD_one, Bool.true_and]
    by_cases h : j = i
    · subst h
      simp [hi]
    · simp only [h, decide_false]
      simp
      omega

/-- The bits of a VSTAT word: each check's own, and VALID (R49, R163). -/
theorem Checks.getLsbD_word (c : Checks) (i : Nat) :
    c.word.getLsbD i = ((c.start && decide (i = 1)) || (c.ltype && decide (i = 2))
      || (c.len && decide (i = 3)) || (c.chan && decide (i = 4)) || (c.hcrc && decide (i = 5))
      || (c.ptype && decide (i = 6)) || (c.mark && decide (i = 7)) || (c.opcode && decide (i = 8))
      || (c.result && decide (i = 9)) || (c.tcrc && decide (i = 10)) || (c.endMark && decide (i = 11))
      || (c.rsvd && decide (i = 12)) || (c.plenx && decide (i = 13)) || (c.valid && decide (i = 31))) := by
  simp only [Checks.word, BitVec.getLsbD_or]
  rw [getLsbD_bitAt 1 i c.start (by omega), getLsbD_bitAt 2 i c.ltype (by omega),
    getLsbD_bitAt 3 i c.len (by omega), getLsbD_bitAt 4 i c.chan (by omega),
    getLsbD_bitAt 5 i c.hcrc (by omega), getLsbD_bitAt 6 i c.ptype (by omega),
    getLsbD_bitAt 7 i c.mark (by omega), getLsbD_bitAt 8 i c.opcode (by omega),
    getLsbD_bitAt 9 i c.result (by omega), getLsbD_bitAt 10 i c.tcrc (by omega),
    getLsbD_bitAt 11 i c.endMark (by omega), getLsbD_bitAt 12 i c.rsvd (by omega),
    getLsbD_bitAt 13 i c.plenx (by omega), getLsbD_bitAt 31 i c.valid (by omega)]

/-- A masked word is 0 exactly when no bit of the mask is set in it. -/
theorem and_eq_zero_iff (v m : Word) :
    v &&& m = 0 ↔ ∀ i, i < 32 → m.getLsbD i = true → v.getLsbD i = false := by
  constructor
  · intro h i _ hm
    have := congrArg (fun x => BitVec.getLsbD x i) h
    simpa [hm] using this
  · intro h
    apply BitVec.eq_of_getLsbD_eq
    intro i hi
    have := h i hi
    cases hm : m.getLsbD i <;> simp_all

/-- NFIELDS of a DRES word (R56). -/
theorem nFields_dresWord (k : ResKind) (n : Nat) (h : n < 65536) :
    ((dresWord k n).extractLsb' 8 16).toNat = n := by
  have : (dresWord k n).extractLsb' 8 16 = BitVec.ofNat 16 n := by
    apply BitVec.eq_of_getLsbD_eq
    intro i hi
    simp only [dresWord, BitVec.getLsbD_extractLsb', BitVec.getLsbD_append]
    simp [hi, show ¬ (8 + i < 8) by omega]
  rw [this, BitVec.toNat_ofNat]
  omega

end Sys2Proof.Machine
end

