-- ==== Sys2Proof/Laws/Commands.lean ====
section
/-!
SUPPORT. Sys2Proof/Laws/Commands.lean: for each command and each shared operation, once, everything it can
do: the cases of its rule, each with its result.
-/
namespace Sys2Proof.Machine

/-! ### Argument registers (R283) -/

/-- No register of a list is unwritten exactly when all are configured. -/
theorem State.unwritten_eq_none (s : State) (rs : List ArgReg) :
    s.unwritten rs = none ↔ s.configured rs := by
  simp [State.unwritten, State.configured]

/-- The unwritten register that is reported is one of the list, and its validity bit is 0. -/
theorem State.unwritten_eq_some (s : State) (rs : List ArgReg) (r : ArgReg)
    (h : s.unwritten rs = some r) : r ∈ rs ∧ s.flag r.validBit = false := by
  refine ⟨List.mem_of_find?_eq_some h, ?_⟩
  simpa using List.find?_some h

/-! ### CKSUM (R142) -/

/-- What CKSUM can do. -/
theorem cksum_cases (buf : Buf) (s : State) :
    (∃ r, s.unwritten [.cksStart, .cksEnd] = some r ∧ cksum buf s = s.raise .notConfigured r.number) ∨
    (s.configured [.cksStart, .cksEnd] ∧ buf.size < s.lengthOf buf ∧
      cksum buf s = s.raise .badLength buf.lengthReg) ∨
    (s.configured [.cksStart, .cksEnd] ∧ s.lengthOf buf ≤ buf.size ∧
      ¬ (s.cksStart.toNat ≤ s.cksEnd.toNat ∧ s.cksEnd.toNat < s.lengthOf buf) ∧
      cksum buf s = s.raise .badRange (infoPair s.cksStart.toNat s.cksEnd.toNat)) ∨
    (s.configured [.cksStart, .cksEnd] ∧ s.lengthOf buf ≤ buf.size ∧
      s.cksStart.toNat ≤ s.cksEnd.toNat ∧ s.cksEnd.toNat < s.lengthOf buf ∧
      cksum buf s = ((s.setCkr
        (s.crcRange buf s.cksStart.toNat s.cksEnd.toNat)).setFlag .ckrV).complete) := by
  unfold cksum
  cases hu : s.unwritten [.cksStart, .cksEnd] with
  | some r => exact .inl ⟨r, rfl, rfl⟩
  | none =>
    have hc := (s.unwritten_eq_none _).mp hu
    refine .inr ?_
    simp only
    split
    · exact .inl ⟨hc, by assumption, rfl⟩
    · rename_i hl
      refine .inr ?_
      split
      · rename_i hr
        exact .inr ⟨hc, Nat.le_of_not_lt hl, hr.1, hr.2, rfl⟩
      · rename_i hr
        exact .inl ⟨hc, Nat.le_of_not_lt hl, hr, rfl⟩

/-! ### Building frames (R160, R161) -/

/-- What FENV can do. -/
theorem fenv_cases (s : State) :
    (∃ r, s.unwritten [.eChan, .eLink] = some r ∧ fenv s = s.raise .notConfigured r.number) ∨
    (s.configured [.eChan, .eLink] ∧ 255 < s.pLen.toNat ∧ fenv s = s.raise .badLength 15) ∨
    (s.configured [.eChan, .eLink] ∧ 247 < s.pLen.toNat ∧ s.pLen.toNat ≤ 255 ∧
      fenv s = s.raise .encodingError (BitVec.ofNat 32 s.pLen.toNat)) ∨
    (s.configured [.eChan, .eLink] ∧ s.pLen.toNat ≤ 247 ∧
      fenv s = s.emitFrame (buildFrame (BitVec.ofNat 8 (s.pLen.toNat + 8)) s.eChan s.eLink
        (s.bytes .pbuf 0 s.pLen.toNat))) := by
  unfold fenv
  cases hu : s.unwritten [.eChan, .eLink] with
  | some r => exact .inl ⟨r, rfl, rfl⟩
  | none =>
    have hc := (s.unwritten_eq_none _).mp hu
    refine .inr ?_
    simp only
    split
    · exact .inl ⟨hc, by assumption, rfl⟩
    · split
      · exact .inr (.inl ⟨hc, by assumption, by omega, rfl⟩)
      · exact .inr (.inr ⟨hc, by omega, rfl⟩)

/-- What FENC can do. -/
theorem fenc_cases (s : State) :
    (∃ r, s.unwritten [.chan, .opMaj, .opMin] = some r ∧ fenc s = s.raise .notConfigured r.number) ∨
    (s.configured [.chan, .opMaj, .opMin] ∧ 255 < s.pLen.toNat ∧ fenc s = s.raise .badLength 15) ∨
    (s.configured [.chan, .opMaj, .opMin] ∧ 239 < s.pLen.toNat ∧ s.pLen.toNat ≤ 255 ∧
      fenc s = s.raise .encodingError (BitVec.ofNat 32 s.pLen.toNat)) ∨
    (s.configured [.chan, .opMaj, .opMin] ∧ s.pLen.toNat ≤ 239 ∧
      fenc s = s.emitFrame (buildFrame (BitVec.ofNat 8 (s.pLen.toNat + 16)) s.chan 0x01
        (requestHeader s.opMaj s.opMin s.pLen.toNat ++ s.bytes .pbuf 0 s.pLen.toNat))) := by
  unfold fenc
  cases hu : s.unwritten [.chan, .opMaj, .opMin] with
  | some r => exact .inl ⟨r, rfl, rfl⟩
  | none =>
    have hc := (s.unwritten_eq_none _).mp hu
    refine .inr ?_
    simp only
    split
    · exact .inl ⟨hc, by assumption, rfl⟩
    · split
      · exact .inr (.inl ⟨hc, by assumption, by omega, rfl⟩)
      · exact .inr (.inr ⟨hc, by omega, rfl⟩)

/-! ### Parsing (R162, R163, R165) -/

/-- What FEXT can do. -/
theorem fext_cases (s : State) :
    (259 < s.iLen.toNat ∧ fext s = s.raise .badLength 13) ∨
    (s.iLen.toNat < 21 ∧ fext s = s.raise .shortFrame (BitVec.ofNat 32 s.iLen.toNat)) ∨
    (21 ≤ s.iLen.toNat ∧ s.iLen.toNat ≤ 259 ∧
      fext s = ((s.extract s.iLen.toNat).setFlag .fxV).complete) := by
  unfold fext
  simp only
  split
  · exact .inl ⟨by assumption, rfl⟩
  · split
    · exact .inr (.inl ⟨by assumption, rfl⟩)
    · exact .inr (.inr ⟨by omega, by omega, rfl⟩)

/-- What FVAL can do. -/
theorem fval_cases (s : State) :
    (∃ r, s.unwritten [.chan, .opMaj, .opMin] = some r ∧ fval s = s.raise .notConfigured r.number) ∨
    (s.configured [.chan, .opMaj, .opMin] ∧ 259 < s.iLen.toNat ∧ fval s = s.raise .badLength 13) ∨
    (s.configured [.chan, .opMaj, .opMin] ∧ s.iLen.toNat < 21 ∧
      fval s = (((s.setVStat vstatShort).setFlag .vV).clearFlag .fxV).complete) ∨
    (s.configured [.chan, .opMaj, .opMin] ∧ 21 ≤ s.iLen.toNat ∧ s.iLen.toNat ≤ 259 ∧
      fval s = ((((s.extract s.iLen.toNat).setFlag .fxV).setVStat
        (s.frameChecks s.iLen.toNat).word).setFlag .vV).complete) := by
  unfold fval
  cases hu : s.unwritten [.chan, .opMaj, .opMin] with
  | some r => exact .inl ⟨r, rfl, rfl⟩
  | none =>
    have hc := (s.unwritten_eq_none _).mp hu
    refine .inr ?_
    simp only
    split
    · exact .inl ⟨hc, by assumption, rfl⟩
    · split
      · exact .inr (.inl ⟨hc, by assumption, rfl⟩)
      · exact .inr (.inr ⟨hc, by omega, by omega, rfl⟩)

/-- What PSLICE can do. -/
theorem pslice_cases (s : State) :
    (259 < s.iLen.toNat ∧ pslice s = s.raise .badLength 13) ∨
    (s.iLen.toNat < 21 ∧ pslice s = s.raise .shortFrame (BitVec.ofNat 32 s.iLen.toNat)) ∨
    (21 ≤ s.iLen.toNat ∧ s.iLen.toNat ≤ 259 ∧ s.iLen.toNat - 2 < 19 + s.memRead .ibuf 17 2 ∧
      pslice s = s.raise .truncatedPayload (BitVec.ofNat 32 (s.memRead .ibuf 17 2))) ∨
    (21 ≤ s.iLen.toNat ∧ s.iLen.toNat ≤ 259 ∧ 19 + s.memRead .ibuf 17 2 ≤ s.iLen.toNat - 2 ∧
      pslice s = ((s.store .pbuf 0 (s.bytes .ibuf 19 (s.memRead .ibuf 17 2))).setPLen
        (BitVec.ofNat 16 (s.memRead .ibuf 17 2))).complete) := by
  unfold pslice
  simp only
  split
  · exact .inl ⟨by assumption, rfl⟩
  · split
    · exact .inr (.inl ⟨by assumption, rfl⟩)
    · split
      · exact .inr (.inr (.inr ⟨by omega, by omega, by assumption, rfl⟩))
      · exact .inr (.inr (.inl ⟨by omega, by omega, by omega, rfl⟩))

/-! ### The field walks (R221, R227) -/

/-- What FLDENC can do. -/
theorem fldenc_cases (s : State) :
    (s.flag .dSelV = false ∧ fldenc s = s.raise .notConfigured 9) ∨
    (s.flag .dSelV = true ∧ s.params.schema[s.dSel.toNat]? = none ∧
      fldenc s = s.raise .unknownCommand (s.dSel.setWidth 32)) ∨
    (∃ desc r, s.flag .dSelV = true ∧ s.params.schema[s.dSel.toNat]? = some desc ∧
      s.encodeList 0 desc.req (Walk.start s.dSel) = .error r ∧ fldenc s = s.raise r.error r.info) ∨
    (∃ desc w, s.flag .dSelV = true ∧ s.params.schema[s.dSel.toNat]? = some desc ∧
      s.encodeList 0 desc.req (Walk.start s.dSel) = .ok w ∧ 255 < w.out.length ∧
      fldenc s = s.raise .bufferOverflow (BitVec.ofNat 32 w.out.length)) ∨
    (∃ desc w, s.flag .dSelV = true ∧ s.params.schema[s.dSel.toNat]? = some desc ∧
      s.encodeList 0 desc.req (Walk.start s.dSel) = .ok w ∧ w.out.length ≤ 255 ∧
      fldenc s = ((s.store .pbuf 0 w.out).setPLen (BitVec.ofNat 16 w.out.length)).complete) := by
  unfold fldenc
  cases hu : s.unwritten [.dSel] with
  | some r =>
    obtain ⟨hm, hf⟩ := s.unwritten_eq_some _ r hu
    obtain rfl : r = .dSel := by simpa using hm
    exact .inl ⟨hf, rfl⟩
  | none =>
    have hc : s.flag .dSelV = true := (s.unwritten_eq_none _).mp hu .dSel (by simp)
    refine .inr ?_
    cases hd : s.params.schema[s.dSel.toNat]? with
    | none => exact .inl ⟨hc, rfl, rfl⟩
    | some desc =>
      refine .inr ?_
      cases hw : s.encodeList 0 desc.req (Walk.start s.dSel) with
      | error r => exact .inl ⟨desc, r, hc, rfl, hw, by simp [hw]⟩
      | ok w =>
        by_cases hl : w.out.length ≤ 255
        · exact .inr (.inr ⟨desc, w, hc, rfl, hw, hl, by simp [hw, Buf.size, hl]⟩)
        · exact .inr (.inl ⟨desc, w, hc, rfl, hw, by omega, by simp [hw, Buf.size, hl]⟩)

/-- What FLDDEC of a list can do. -/
theorem decodeResponse_cases (s : State) (fs : List Field) :
    (∃ k, staticCheck s.params.maxFields fs = some k ∧
      s.decodeResponse fs = s.raise .schemaError (infoPair k s.dSel.toNat)) ∨
    (∃ r, staticCheck s.params.maxFields fs = none ∧
      s.decodeList 0 fs (Walk.start s.dSel) = .error r ∧
      s.decodeResponse fs = s.raise r.error r.info) ∨
    (∃ w es, staticCheck s.params.maxFields fs = none ∧
      s.decodeList 0 fs (Walk.start s.dSel) = .ok (w, es) ∧ w.off ≠ s.pLen.toNat ∧
      s.decodeResponse fs = s.raise .lengthMismatch (infoPair w.off s.pLen.toNat)) ∨
    (∃ w es, staticCheck s.params.maxFields fs = none ∧
      s.decodeList 0 fs (Walk.start s.dSel) = .ok (w, es) ∧ w.off = s.pLen.toNat ∧
      s.decodeResponse fs = s.commitDecode (listKind fs.length) es w.str) := by
  unfold State.decodeResponse
  cases hs : staticCheck s.params.maxFields fs with
  | some k => exact .inl ⟨k, rfl, rfl⟩
  | none =>
    refine .inr ?_
    cases hw : s.decodeList 0 fs (Walk.start s.dSel) with
    | error r => exact .inl ⟨r, rfl, rfl, rfl⟩
    | ok p =>
      obtain ⟨w, es⟩ := p
      by_cases ho : w.off = s.pLen.toNat
      · exact .inr (.inr ⟨w, es, rfl, rfl, ho, by simp [ho]⟩)
      · exact .inr (.inl ⟨w, es, rfl, rfl, ho, by simp [ho]⟩)

/-- What FLDDEC can do. -/
theorem flddec_cases (s : State) :
    (s.flag .dSelV = false ∧ flddec s = s.raise .notConfigured 9) ∨
    (s.flag .dSelV = true ∧ 255 < s.pLen.toNat ∧ flddec s = s.raise .badLength 15) ∨
    (s.flag .dSelV = true ∧ s.pLen.toNat ≤ 255 ∧ s.params.schema[s.dSel.toNat]? = none ∧
      flddec s = s.raise .unknownCommand (s.dSel.setWidth 32)) ∨
    (∃ desc, s.flag .dSelV = true ∧ s.pLen.toNat ≤ 255 ∧ s.params.schema[s.dSel.toNat]? = some desc ∧
      desc.resp = none ∧ s.pLen.toNat = 0 ∧ flddec s = s.commitDecode .unit [] []) ∨
    (∃ desc, s.flag .dSelV = true ∧ s.pLen.toNat ≤ 255 ∧ s.params.schema[s.dSel.toNat]? = some desc ∧
      desc.resp = none ∧ s.pLen.toNat ≠ 0 ∧
      flddec s = s.raise .lengthMismatch (infoPair 0 s.pLen.toNat)) ∨
    (∃ desc fs, s.flag .dSelV = true ∧ s.pLen.toNat ≤ 255 ∧
      s.params.schema[s.dSel.toNat]? = some desc ∧ desc.resp = some fs ∧
      flddec s = s.decodeResponse fs) := by
  unfold flddec
  cases hu : s.unwritten [.dSel] with
  | some r =>
    obtain ⟨hm, hf⟩ := s.unwritten_eq_some _ r hu
    obtain rfl : r = .dSel := by simpa using hm
    exact .inl ⟨hf, rfl⟩
  | none =>
    have hc : s.flag .dSelV = true := (s.unwritten_eq_none _).mp hu .dSel (by simp)
    refine .inr ?_
    simp only
    by_cases hp : s.pLen.toNat > Buf.pbuf.size
    · exact .inl ⟨hc, hp, by rw [if_pos hp]⟩
    · have hle : s.pLen.toNat ≤ 255 := Nat.le_of_not_lt hp
      rw [if_neg hp]
      refine .inr ?_
      cases hd : s.params.schema[s.dSel.toNat]? with
      | none => exact .inl ⟨hc, hle, rfl, rfl⟩
      | some desc =>
        refine .inr ?_
        cases hr : desc.resp with
        | some fs => exact .inr (.inr ⟨desc, fs, hc, hle, rfl, hr, by simp [hr]⟩)
        | none =>
          by_cases h0 : s.pLen.toNat = 0
          · exact .inl ⟨desc, hc, hle, rfl, hr, h0, by simp [hr, h0]⟩
          · exact .inr (.inl ⟨desc, hc, hle, rfl, hr, h0, by simp [hr, h0]⟩)

end Sys2Proof.Machine
end

