-- ==== Sys2Proof/Laws/Walk.lean ====
section
/-!
SUPPORT. Sys2Proof/Laws/Walk.lean: what the element operations and the field walks can do (R221 to R233).
-/
namespace Sys2Proof.Machine

/-! ### Tags -/

/-- The eight tags. -/
theorem Tag.cases (t : Tag) : t = 0 ∨ t = 1 ∨ t = 2 ∨ t = 3 ∨ t = 4 ∨ t = 5 ∨ t = 6 ∨ t = 7 := by
  revert t
  decide

/-- The tags up to 5 are the assigned ones. -/
theorem Tag.le_five (t : Tag) (h : t.toNat ≤ 5) : t = 0 ∨ t = 1 ∨ t = 2 ∨ t = 3 ∨ t = 4 ∨ t = 5 := by
  revert t
  decide

/-! ### Packing -/

/-- What packing one field can do (R222 to R226). -/
theorem packElement_cases (t : Tag) (k : Nat) (w : Walk) :
    (packable t ∧ w.value.toNat < 256 ^ wireWidth t ∧ packElement t k w = .ok (w.emit (wireWidth t))) ∨
    (packable t ∧ 256 ^ wireWidth t ≤ w.value.toNat ∧
      packElement t k w = .error ⟨.fieldRange, infoPair w.name.toNat w.desc.toNat⟩) ∨
    (¬ packable t ∧ packElement t k w = .error ⟨.schemaError, infoPair k w.desc.toNat⟩) := by
  have hv : w.value.toNat < 4294967296 := w.value.isLt
  rcases Tag.cases t with rfl | rfl | rfl | rfl | rfl | rfl | rfl | rfl
  · by_cases h : w.value.toNat ≤ 0xFF
    · exact .inl ⟨by decide, by simp [wireWidth]; omega, by simp [packElement, decodeElement, packU8, h, wireWidth]⟩
    · exact .inr (.inl ⟨by decide, by simp [wireWidth]; omega, by
        simp [packElement, decodeElement, packU8]; omega⟩)
  · by_cases h : w.value.toNat ≤ 0xFFFF
    · exact .inl ⟨by decide, by simp [wireWidth]; omega, by simp [packElement, decodeElement, packU16, h, wireWidth]⟩
    · exact .inr (.inl ⟨by decide, by simp [wireWidth]; omega, by
        simp [packElement, decodeElement, packU16]; omega⟩)
  · exact .inl ⟨by decide, by simpa [wireWidth] using hv, rfl⟩
  · exact .inr (.inr ⟨by decide, rfl⟩)
  · exact .inr (.inr ⟨by decide, rfl⟩)
  · exact .inl ⟨by decide, by simpa [wireWidth] using hv, rfl⟩
  · exact .inr (.inr ⟨by decide, rfl⟩)
  · exact .inr (.inr ⟨by decide, rfl⟩)

/-- A ready field packs its bytes. -/
theorem State.encodeField_ready (s : State) (k : Nat) (f : Field) (w : Walk) (h : s.fieldReady f) :
    s.encodeField k f w = .ok { w with
      name := f.name, value := (s.paramAt f.name).value, out := w.out ++ s.fieldBytes f } := by
  obtain ⟨hp, ht, hv⟩ := h
  simp only [State.encodeField, hp, if_true]
  rcases packElement_cases f.tag k { w with name := f.name, value := (s.paramAt f.name).value } with
    ⟨_, _, he⟩ | ⟨_, hlt, _⟩ | ⟨hn, _⟩
  · exact he
  · exact absurd hv (Nat.not_lt.mpr hlt)
  · exact absurd ht hn

/-- A field that packs was ready. -/
theorem State.encodeField_ok (s : State) (k : Nat) (f : Field) (w w' : Walk)
    (h : s.encodeField k f w = .ok w') : s.fieldReady f := by
  simp only [State.encodeField] at h
  split at h
  · rename_i hp
    rcases packElement_cases f.tag k { w with name := f.name, value := (s.paramAt f.name).value } with
      ⟨ht, hv, _⟩ | ⟨_, _, he⟩ | ⟨_, he⟩
    · exact ⟨hp, ht, hv⟩
    · rw [he] at h
      nomatch h
    · rw [he] at h
      nomatch h
  · nomatch h

/-- What an unready field raises (R221, R297): absent, then out of range, then a type that does not pack. -/
theorem State.encodeField_error (s : State) (k : Nat) (f : Field) (w : Walk) :
    ((s.paramAt f.name).present = false →
      s.encodeField k f w = .error ⟨.missingParameter, infoPair f.name.toNat w.desc.toNat⟩) ∧
    ((s.paramAt f.name).present = true → packable f.tag →
      256 ^ wireWidth f.tag ≤ (s.paramAt f.name).value.toNat →
      s.encodeField k f w = .error ⟨.fieldRange, infoPair f.name.toNat w.desc.toNat⟩) ∧
    ((s.paramAt f.name).present = true → ¬ packable f.tag →
      s.encodeField k f w = .error ⟨.schemaError, infoPair k w.desc.toNat⟩) := by
  refine ⟨fun h => by simp [State.encodeField, h], fun h ht hv => ?_, fun h ht => ?_⟩
  · simp only [State.encodeField, h, if_true]
    rcases packElement_cases f.tag k { w with name := f.name, value := (s.paramAt f.name).value } with
      ⟨_, hlt, _⟩ | ⟨_, _, he⟩ | ⟨hn, _⟩
    · exact absurd hlt (Nat.not_lt.mpr hv)
    · exact he
    · exact absurd ht hn
  · simp only [State.encodeField, h, if_true]
    rcases packElement_cases f.tag k { w with name := f.name, value := (s.paramAt f.name).value } with
      ⟨hp, _, _⟩ | ⟨hp, _, _⟩ | ⟨_, he⟩
    · exact absurd hp ht
    · exact absurd hp ht
    · exact he

/-- A walk over ready fields appends their bytes and goes on with the rest of the list. -/
theorem State.encodeList_append (s : State) (pre post : List Field) : ∀ (k : Nat) (w : Walk),
    (∀ f ∈ pre, s.fieldReady f) →
    ∃ w', s.encodeList k (pre ++ post) w = s.encodeList (k + pre.length) post w' ∧
      w'.out = w.out ++ pre.flatMap s.fieldBytes ∧ w'.desc = w.desc := by
  induction pre with
  | nil => exact fun k w _ => ⟨w, rfl, by simp, rfl⟩
  | cons f pre ih =>
    intro k w h
    rw [List.forall_mem_cons] at h
    obtain ⟨w', he, ho, hd⟩ := ih (k + 1) { w with
      name := f.name, value := (s.paramAt f.name).value, out := w.out ++ s.fieldBytes f } h.2
    refine ⟨w', ?_, by simp [ho], hd⟩
    rw [List.cons_append, State.encodeList, s.encodeField_ready k f w h.1]
    rw [List.length_cons, show k + (pre.length + 1) = k + 1 + pre.length by omega]
    exact he

/-- A walk over ready fields only. -/
theorem State.encodeList_ready (s : State) (fs : List Field) (k : Nat) (w : Walk)
    (h : ∀ f ∈ fs, s.fieldReady f) :
    ∃ w', s.encodeList k fs w = .ok w' ∧ w'.out = w.out ++ fs.flatMap s.fieldBytes ∧
      w'.desc = w.desc := by
  obtain ⟨w', he, ho, hd⟩ := s.encodeList_append fs [] k w h
  exact ⟨w', by simpa [State.encodeList] using he, ho, hd⟩

/-- A walk that completes met ready fields only. -/
theorem State.encodeList_ok (s : State) (fs : List Field) : ∀ (k : Nat) (w w' : Walk),
    s.encodeList k fs w = .ok w' → ∀ f ∈ fs, s.fieldReady f := by
  induction fs with
  | nil => simp
  | cons f fs ih =>
    intro k w w' h
    simp only [State.encodeList] at h
    split at h
    · rename_i w1 h1
      exact List.forall_mem_cons.mpr ⟨s.encodeField_ok k f w w1 h1, ih _ _ _ h⟩
    · nomatch h

/-- The fields' bytes take the list's total width. -/
theorem State.length_fieldBytes (s : State) (fs : List Field) :
    (fs.flatMap s.fieldBytes).length = totalWidth fs := by
  induction fs with
  | nil => rfl
  | cons f fs ih =>
    rw [List.flatMap_cons, List.length_append, ih]
    simp [totalWidth, State.fieldBytes]

theorem totalWidth_append (xs ys : List Field) :
    totalWidth (xs ++ ys) = totalWidth xs + totalWidth ys := by simp [totalWidth]

@[simp] theorem totalWidth_nil : totalWidth [] = 0 := rfl

@[simp] theorem totalWidth_cons (f : Field) (fs : List Field) :
    totalWidth (f :: fs) = wireWidth f.tag + totalWidth fs := by simp [totalWidth]

/-! ### Unpacking -/

/-- What unpacking a field of a fixed width can do (R228 to R232). -/
theorem unpackElement_fixed (s : State) (t : Tag) (k : Nat) (w : Walk) (h5 : t.toNat ≤ 5) (h4 : t ≠ 4) :
    unpackElement s t k w
      = if w.off + wireWidth t ≤ s.pLen.toNat then
          .ok { w with value := s.unpacked t w.off, off := w.off + wireWidth t }
        else .error ⟨.lengthMismatch, infoPair (w.off + wireWidth t) s.pLen.toNat⟩ := by
  rcases Tag.le_five t h5 with rfl | rfl | rfl | rfl | rfl | rfl
  · rfl
  · rfl
  · rfl
  · have : (if s.byte .pbuf w.off ≠ 0 then (1 : Word) else 0)
        = if s.byte .pbuf w.off = 0 then 0 else 1 := by
      split <;> simp_all
    simp only [unpackElement, decodeElement, unpackBool, State.unpacked, wireWidth, this]
    rfl
  · exact absurd rfl h4
  · rfl

/-- The value a fixed-width unpack reads fits its type (R65). -/
theorem State.unpacked_fits (s : State) (n : BitVec 8) (t : Tag) (off : Nat) (h5 : t.toNat ≤ 5)
    (h4 : t ≠ 4) : FieldEntry.fits ⟨n, t, s.unpacked t off⟩ := by
  rcases Tag.le_five t h5 with rfl | rfl | rfl | rfl | rfl | rfl
  · have := s.memRead_lt .pbuf off 1
    simp [FieldEntry.fits, State.unpacked, wireWidth]
    omega
  · have := s.memRead_lt .pbuf off 2
    simp [FieldEntry.fits, State.unpacked, wireWidth]
    omega
  · trivial
  · simp only [FieldEntry.fits, State.unpacked]
    simp
    split <;> decide
  · exact absurd rfl h4
  · trivial

/-- What UNPACK_ASCII can do (R233). -/
theorem unpackAscii_cases (s : State) (w : Walk) :
    (∃ i, unpackAscii s w = .error ⟨.charsetError, BitVec.ofNat 32 i⟩) ∨
    (∃ n, 238 < n ∧ unpackAscii s w = .error ⟨.bufferOverflow, BitVec.ofNat 32 n⟩) ∨
    (∃ str : List Byte, str.length ≤ 238 ∧ unpackAscii s w
      = .ok { w with value := BitVec.ofNat 32 str.length, off := s.pLen.toNat, str := str }) := by
  unfold unpackAscii
  simp only
  split
  · exact .inl ⟨_, rfl⟩
  · split
    · exact .inr (.inr ⟨_, by assumption, rfl⟩)
    · rename_i h
      exact .inr (.inl ⟨_, Nat.lt_of_not_le h, rfl⟩)

/-- A completed unpack of an assigned type gives a value that fits it, and a string that fits STRBUF. -/
theorem unpackElement_ok (s : State) (n : BitVec 8) (t : Tag) (k : Nat) (w w' : Walk)
    (h5 : t.toNat ≤ 5) (hw : w.str.length ≤ 238) (h : unpackElement s t k w = .ok w') :
    FieldEntry.fits ⟨n, t, w'.value⟩ ∧ w'.str.length ≤ 238 := by
  by_cases h4 : t = 4
  · subst h4
    have hu : unpackElement s 4 k w = unpackAscii s w := rfl
    rw [hu] at h
    rcases unpackAscii_cases s w with ⟨_, he⟩ | ⟨_, _, he⟩ | ⟨str, hl, he⟩
    · rw [he] at h
      nomatch h
    · rw [he] at h
      nomatch h
    · rw [he] at h
      obtain rfl := Except.ok.inj h
      refine ⟨?_, hl⟩
      simp [FieldEntry.fits]
      omega
  · rw [unpackElement_fixed s t k w h5 h4] at h
    split at h
    · obtain rfl := Except.ok.inj h
      exact ⟨s.unpacked_fits n t w.off h5 h4, hw⟩
    · nomatch h

/-- A completed response walk gives one entry a field, each fitting its type, and a string that fits. -/
theorem State.decodeList_ok (s : State) (fs : List Field) : ∀ (k : Nat) (w w' : Walk)
    (es : List FieldEntry), (∀ f ∈ fs, f.tag.toNat ≤ 5) → w.str.length ≤ 238 →
    s.decodeList k fs w = .ok (w', es) →
    es.length = fs.length ∧ (∀ e ∈ es, e.fits) ∧ w'.str.length ≤ 238 := by
  induction fs with
  | nil =>
    intro k w w' es _ hw h
    simp only [State.decodeList, Except.ok.injEq, Prod.mk.injEq] at h
    obtain ⟨rfl, rfl⟩ := h
    simp [hw]
  | cons f fs ih =>
    intro k w w' es ht hw h
    rw [List.forall_mem_cons] at ht
    simp only [State.decodeList] at h
    split at h
    · nomatch h
    · rename_i w1 h1
      obtain ⟨hf, hs⟩ := unpackElement_ok s f.name f.tag k { w with name := f.name } _ ht.1 hw h1
      split at h
      · nomatch h
      · rename_i w2 es2 h2
        simp only [Except.ok.injEq, Prod.mk.injEq] at h
        obtain ⟨rfl, rfl⟩ := h
        obtain ⟨hl, hfit, hstr⟩ := ih _ _ _ _ ht.2 hs h2
        exact ⟨by simp [hl], List.forall_mem_cons.mpr ⟨hf, hfit⟩, hstr⟩

/-- The static check of one field. -/
theorem staticOk_iff (total : Nat) (seen : List (BitVec 8)) (f : Field) :
    staticOk total seen f = true ↔
      f.tag.toNat ≤ 5 ∧ (f.tag = 4 → total = 1) ∧ f.name ∉ seen := by
  by_cases h4 : f.tag = 4#3 <;> simp [staticOk, h4]

/-- The static scan passes exactly the lists without a bad field. -/
theorem staticScan_eq_none (total : Nat) (fs : List Field) : ∀ (k : Nat) (seen : List (BitVec 8)),
    staticScan total k seen fs = none ↔
      (∀ f ∈ fs, f.tag.toNat ≤ 5 ∧ (f.tag = 4 → total = 1)) ∧ (fs.map Field.name).Nodup ∧
        ∀ f ∈ fs, f.name ∉ seen := by
  induction fs with
  | nil => simp [staticScan]
  | cons f fs ih =>
    intro k seen
    simp only [staticScan]
    split
    · rename_i h
      rw [staticOk_iff] at h
      rw [ih]
      rw [List.forall_mem_cons, List.forall_mem_cons]
      simp only [List.map_cons, List.nodup_cons, List.mem_cons, List.mem_map, not_or, not_exists,
        not_and]
      constructor
      · rintro ⟨h1, h2, h3⟩
        exact ⟨⟨⟨h.1, h.2.1⟩, h1⟩, ⟨fun g hg he => (h3 g hg).1 he, h2⟩, h.2.2, fun g hg => (h3 g hg).2⟩
      · rintro ⟨⟨_, h1⟩, ⟨h2, h3⟩, _, h4⟩
        exact ⟨h1, h3, fun g hg => ⟨fun he => h2 g hg he, h4 g hg⟩⟩
    · rename_i h
      rw [staticOk_iff] at h
      simp only [reduceCtorEq, false_iff, List.forall_mem_cons]
      rintro ⟨⟨⟨h1, h2⟩, _⟩, _, h3, _⟩
      exact h ⟨h1, h2, h3⟩

/-- The static checks pass exactly the clean lists (R227). -/
theorem staticCheck_eq_none (m : Nat) (fs : List Field) :
    staticCheck m fs = none ↔ staticClean m fs := by
  simp only [staticCheck, staticClean]
  split
  · rename_i h
    rw [staticScan_eq_none]
    simp [h]
  · rename_i h
    simp [h]

/-- A scan over good fields goes on with the rest of the list. -/
theorem staticScan_append (total : Nat) (pre post : List Field) : ∀ (k : Nat) (seen : List (BitVec 8)),
    (∀ f ∈ pre, f.tag.toNat ≤ 5 ∧ (f.tag = 4 → total = 1)) → (pre.map Field.name).Nodup →
    (∀ f ∈ pre, f.name ∉ seen) →
    staticScan total k seen (pre ++ post)
      = staticScan total (k + pre.length) ((pre.map Field.name).reverse ++ seen) post := by
  induction pre with
  | nil => simp
  | cons f pre ih =>
    intro k seen h1 h2 h3
    rw [List.forall_mem_cons] at h1 h3
    rw [List.map_cons, List.nodup_cons] at h2
    have hok : staticOk total seen f = true := (staticOk_iff _ _ _).mpr ⟨h1.1.1, h1.1.2, h3.1⟩
    rw [List.cons_append, staticScan, if_pos hok, ih (k + 1) _ h1.2 h2.2 ?_]
    · rw [List.length_cons, show k + (pre.length + 1) = k + 1 + pre.length by omega]
      simp
    · intro g hg
      simp only [List.mem_cons, not_or]
      refine ⟨fun he => h2.1 (he ▸ List.mem_map_of_mem hg), h3.2 g hg⟩

/-! ### Element operations by themselves -/

/-- A pack operation run by itself is its tag's element on the walk field. -/
theorem exec_packElement (s : State) (i : Instr) (t : Tag) (k : Nat)
    (h : decodeElement .request t = .ok i) :
    exec i s = .next (s.runElement (packElement t k s.walk)) := by
  unfold packElement
  rw [h]
  rcases Tag.cases t with rfl | rfl | rfl | rfl | rfl | rfl | rfl | rfl <;> cases h <;> rfl

/-- An unpack operation run by itself is its tag's element on the walk field. -/
theorem exec_unpackElement (s : State) (i : Instr) (t : Tag) (k : Nat)
    (h : decodeElement .response t = .ok i) :
    exec i s = .next (s.runElement (unpackElement s t k s.walk)) := by
  unfold unpackElement
  rw [h]
  rcases Tag.cases t with rfl | rfl | rfl | rfl | rfl | rfl | rfl | rfl <;> cases h <;> rfl

/-! ### Trailing NULs (R233) -/

/-- Trailing NULs do not count. -/
theorem stripNuls_append_zeros (bs : List Byte) (k : Nat) :
    stripNuls (bs ++ List.replicate k 0) = stripNuls bs := by
  induction k with
  | zero => simp
  | succ k ih =>
    rw [List.replicate_succ', ← List.append_assoc]
    unfold stripNuls at *
    rw [List.reverse_append]
    simp at ih ⊢

/-- A string without a trailing NUL is kept whole. -/
theorem stripNuls_append_ne (bs : List Byte) (b : Byte) (h : b ≠ 0) :
    stripNuls (bs ++ [b]) = bs ++ [b] := by
  unfold stripNuls
  rw [List.reverse_append]
  simp [List.dropWhile_cons]
  exact fun h0 => absurd h0 h

/-- A walk over fixed-width fields that fit in PLEN reads each at the sum of the widths before it, and goes
on with the rest of the list. -/
theorem State.decodeList_append (s : State) (pre post : List Field) : ∀ (k : Nat) (w : Walk),
    (∀ f ∈ pre, f.tag.toNat ≤ 5 ∧ f.tag ≠ 4) → w.off + totalWidth pre ≤ s.pLen.toNat →
    ∃ w' es,
      (s.decodeList k (pre ++ post) w = match s.decodeList (k + pre.length) post w' with
        | .error r => .error r
        | .ok (w'', es') => .ok (w'', es ++ es')) ∧
      w'.off = w.off + totalWidth pre ∧ w'.str = w.str ∧ w'.desc = w.desc ∧ es.length = pre.length ∧
      ∀ p f q, pre = p ++ f :: q →
        es[p.length]? = some ⟨f.name, f.tag, s.unpacked f.tag (w.off + totalWidth p)⟩ := by
  induction pre with
  | nil =>
    intro k w _ _
    refine ⟨w, [], ?_, by simp, rfl, rfl, rfl, fun p f q h => by simp at h⟩
    simp
    cases s.decodeList k post w <;> rfl
  | cons g pre ih =>
    intro k w ht hw
    rw [List.forall_mem_cons] at ht
    rw [totalWidth_cons] at hw
    have hu := unpackElement_fixed s g.tag k { w with name := g.name } ht.1.1 ht.1.2
    rw [if_pos (by simp only; omega)] at hu
    obtain ⟨w', es, h1, h2, h3, h4, h5, h6⟩ := ih (k + 1)
      { w with name := g.name, value := s.unpacked g.tag w.off, off := w.off + wireWidth g.tag } ht.2
      (by simp only; omega)
    refine ⟨w', ⟨g.name, g.tag, s.unpacked g.tag w.off⟩ :: es, ?_, ?_, h3, h4, by simp [h5], ?_⟩
    · rw [List.cons_append, State.decodeList, hu]
      simp only [h1]
      rw [List.length_cons, show k + (pre.length + 1) = k + 1 + pre.length by omega]
      cases s.decodeList (k + 1 + pre.length) post w' <;> simp
    · rw [h2, totalWidth_cons]
      simp only
      omega
    · intro p f q hp
      cases p with
      | nil =>
        simp at hp
        obtain ⟨rfl, rfl⟩ := hp
        simp
      | cons a p =>
        simp at hp
        obtain ⟨rfl, hp⟩ := hp
        have := h6 p f q hp
        simp only [List.length_cons, totalWidth_cons, ← Nat.add_assoc, List.getElem?_cons_succ]
        exact this

end Sys2Proof.Machine
end

