-- ==== Sys2Proof/Laws/Outcomes.lean ====
section
/-!
SUPPORT. Sys2Proof/Laws/Outcomes.lean: said once for all commands, what a command can do to the state, and
said once for all host actions, what a step can do to it.
-/
namespace Sys2Proof.Machine

/-- Everything a command can do: it raises one error, or it completes with its own results. -/
inductive CommandOutcome (s : State) : Instr → State → Prop
  /-- Any command (R298). -/
  | raised (i : Instr) (e : ErrorCode) (info : Word) : CommandOutcome s i (s.raise e info)
  /-- CKSUM (R142). -/
  | checksum (i : Instr) (buf : Buf) :
      (i = .cksumIbuf ∧ buf = .ibuf) ∨ (i = .cksumObuf ∧ buf = .obuf) ∨ (i = .cksumPbuf ∧ buf = .pbuf) →
      s.configured [.cksStart, .cksEnd] → s.lengthOf buf ≤ buf.size →
      s.cksStart.toNat ≤ s.cksEnd.toNat → s.cksEnd.toNat < s.lengthOf buf →
      CommandOutcome s i ((s.setCkr
        (s.crcRange buf s.cksStart.toNat s.cksEnd.toNat)).setFlag .ckrV).complete
  /-- FENV and FENC (R160, R161). -/
  | built (i : Instr) (frame : List Byte) : i = .fenv ∨ i = .fenc → 12 ≤ frame.length →
      frame.length ≤ 259 → CommandOutcome s i (s.emitFrame frame)
  /-- FEXT (R162). -/
  | extracted : 21 ≤ s.iLen.toNat → s.iLen.toNat ≤ 259 →
      CommandOutcome s .fext ((s.extract s.iLen.toNat).setFlag .fxV).complete
  /-- FVAL of a short frame (R163). -/
  | short : s.iLen.toNat < 21 →
      CommandOutcome s .fval (((s.setVStat vstatShort).setFlag .vV).clearFlag .fxV).complete
  /-- FVAL of a frame that is not short (R163). -/
  | validated : 21 ≤ s.iLen.toNat → s.iLen.toNat ≤ 259 →
      CommandOutcome s .fval ((((s.extract s.iLen.toNat).setFlag .fxV).setVStat
        (s.frameChecks s.iLen.toNat).word).setFlag .vV).complete
  /-- PSLICE and FLDENC (R165, R221). -/
  | payload (i : Instr) (bytes : List Byte) : i = .pslice ∨ i = .fldenc → bytes.length ≤ 255 →
      CommandOutcome s i ((s.store .pbuf 0 bytes).setPLen (BitVec.ofNat 16 bytes.length)).complete
  /-- FLDDEC (R227). -/
  | decoded (k : ResKind) (entries : List FieldEntry) (str : List Byte) :
      entries.length ≤ s.params.maxFields → (∀ e ∈ entries, e.fits) → str.length ≤ 238 →
      (k = .unit ∧ entries.length = 0 ∨ k = listKind entries.length) →
      CommandOutcome s .flddec (s.commitDecode k entries str)

/-- Each CKSUM row has a command's outcome. -/
theorem cksum_outcome (s : State) (i : Instr) (buf : Buf)
    (hi : (i = .cksumIbuf ∧ buf = .ibuf) ∨ (i = .cksumObuf ∧ buf = .obuf) ∨
      (i = .cksumPbuf ∧ buf = .pbuf)) : CommandOutcome s i (cksum buf s) := by
  rcases cksum_cases buf s with ⟨r, _, he⟩ | ⟨_, _, he⟩ | ⟨_, _, _, he⟩ | ⟨h0, h1, h2, h3, he⟩ <;> rw [he]
  · exact .raised ..
  · exact .raised ..
  · exact .raised ..
  · exact .checksum i buf hi h0 h1 h2 h3

/-- FLDDEC has a command's outcome. -/
theorem flddec_outcome (s : State) : CommandOutcome s .flddec (flddec s) := by
  rcases flddec_cases s with ⟨_, he⟩ | ⟨_, _, he⟩ | ⟨_, _, _, he⟩ | ⟨_, _, _, _, _, _, he⟩ |
    ⟨_, _, _, _, _, _, he⟩ | ⟨_, fs, _, _, _, _, he⟩ <;> rw [he]
  · exact .raised ..
  · exact .raised ..
  · exact .raised ..
  · exact .decoded _ _ _ (by simp) (by simp) (by simp) (by simp)
  · exact .raised ..
  · rcases decodeResponse_cases s fs with ⟨_, _, he⟩ | ⟨_, _, _, he⟩ | ⟨_, _, _, _, _, he⟩ |
      ⟨w, es, hs, hd, _, he⟩ <;> rw [he]
    · exact .raised ..
    · exact .raised ..
    · exact .raised ..
    · rw [staticCheck_eq_none] at hs
      obtain ⟨h1, h2, h3⟩ := s.decodeList_ok fs 0 _ w es (fun f hf => (hs.2.1 f hf).1)
        (by simp [Walk.start]) hd
      exact .decoded _ _ _ (by rw [h1]; exact hs.1) h2 h3 (.inr (by rw [h1]))

/-- A command's next state is one of its outcomes. -/
theorem exec_outcome (i : Instr) (s t : State) (hi : i.isCommand = true) (h : exec i s = .next t) :
    CommandOutcome s i t := by
  cases i <;> first | (exfalso; revert hi; decide) | skip
  all_goals (cases h)
  · exact cksum_outcome s _ .ibuf (by simp)
  · exact cksum_outcome s _ .obuf (by simp)
  · exact cksum_outcome s _ .pbuf (by simp)
  · rcases fenv_cases s with ⟨r, _, he⟩ | ⟨_, _, he⟩ | ⟨_, _, _, he⟩ | ⟨_, h2, he⟩ <;> rw [he]
    · exact .raised ..
    · exact .raised ..
    · exact .raised ..
    · exact .built _ _ (.inl rfl) (by simp) (by simp; omega)
  · rcases fenc_cases s with ⟨r, _, he⟩ | ⟨_, _, he⟩ | ⟨_, _, _, he⟩ | ⟨_, h2, he⟩ <;> rw [he]
    · exact .raised ..
    · exact .raised ..
    · exact .raised ..
    · exact .built _ _ (.inr rfl) (by simp) (by simp; omega)
  · rcases fext_cases s with ⟨_, he⟩ | ⟨_, he⟩ | ⟨h1, h2, he⟩ <;> rw [he]
    · exact .raised ..
    · exact .raised ..
    · exact .extracted h1 h2
  · rcases fval_cases s with ⟨r, _, he⟩ | ⟨_, _, he⟩ | ⟨_, h1, he⟩ | ⟨_, h1, h2, he⟩ <;> rw [he]
    · exact .raised ..
    · exact .raised ..
    · exact .short h1
    · exact .validated h1 h2
  · rcases pslice_cases s with ⟨_, he⟩ | ⟨_, he⟩ | ⟨_, _, _, he⟩ | ⟨h1, h2, h3, he⟩ <;> rw [he]
    · exact .raised ..
    · exact .raised ..
    · exact .raised ..
    · have := CommandOutcome.payload (s := s) .pslice (s.bytes .ibuf 19 (s.memRead .ibuf 17 2)) (.inl rfl)
        (by simp; omega)
      simpa using this
  · rcases fldenc_cases s with ⟨_, he⟩ | ⟨_, _, he⟩ | ⟨_, _, _, _, _, he⟩ | ⟨_, _, _, _, _, _, he⟩ |
      ⟨_, w, _, _, _, hl, he⟩ <;> rw [he]
    · exact .raised ..
    · exact .raised ..
    · exact .raised ..
    · exact .raised ..
    · exact .payload _ _ (.inr rfl) hl
  · exact flddec_outcome s

/-! ### One step (R306) -/

/-- An accepted word is the encoding of the command it decodes to; the commands are the rows without a
tag. -/
theorem isCommand_of_decodeCommand (w : Word) (i : Instr) (h : decodeCommand w = .ok i) :
    i.isCommand = true := by
  unfold decodeCommand decodeFields at h
  split at h
  · nomatch h
  · split at h
    case h_1 =>
      unfold decodeCksum at h
      (repeat' split at h) <;> cases h <;> rfl
    case h_9 => nomatch h
    all_goals
      unfold plainCommand at h
      split at h
      · cases h
        rfl
      · nomatch h

/-- Everything serving a host action can do to the state, when it answers a next state. -/
inductive ServeOutcome (s : State) : HostAction → State → Prop
  /-- Reset (R320). -/
  | reset : ServeOutcome s .reset s.resetFrom
  /-- A legal word written to CMD: the command's execution (R34). -/
  | command (w : Word) (i : Instr) (t : State) : decodeCommand w = .ok i →
      exec i { s with cmd := w } = .next t → ServeOutcome s (.writeWord 0 w) t
  /-- Any other word written to CMD (R105, R282). -/
  | illegal (w : Word) (r : DecodeReject) : decodeCommand w = .error r →
      ServeOutcome s (.writeWord 0 w) (({ s with cmd := w } : State).raise .illegalCmd w)
  /-- An argument register written (R59). -/
  | argument (a : Half) (r : ArgReg) (v : Word) : a.toNat / 4 = r.number.toNat → a.toNat % 4 = 0 →
      a.toNat < 256 → ServeOutcome s (.writeWord a v) (s.writeArg r v)
  /-- ILEN written (R46). -/
  | inLength (a : Half) (v : Word) : a.toNat / 4 = 13 → a.toNat % 4 = 0 →
      ServeOutcome s (.writeWord a v) (s.setILen (v.setWidth 16))
  /-- PLEN written (R48). -/
  | payLength (a : Half) (v : Word) : a.toNat / 4 = 15 → a.toNat % 4 = 0 →
      ServeOutcome s (.writeWord a v) (s.setPLen (v.setWidth 16))
  /-- A PARAM word written (R84). -/
  | parameter (a : Half) (v : Word) : 0x4000 ≤ a.toNat → a.toNat < 0x4800 → a.toNat % 4 = 0 →
      ServeOutcome s (.writeWord a v) (s.writeParam a.toNat v)
  /-- A write that is ignored (R58, R59, R81). -/
  | ignored (act : HostAction) : (∃ a v, act = .writeWord a v ∧ a ≠ 0) ∨ (∃ a v, act = .writeByte a v) →
      ServeOutcome s act s
  /-- A byte of IBUF or PBUF written (R83). -/
  | byteStored (a : Half) (v : Byte) (b : Buf) : b = .ibuf ∨ b = .pbuf → b.base ≤ a.toNat →
      a.toNat < b.base + b.size →
      ServeOutcome s (.writeByte a v) (s.store b (a.toNat - b.base) [v])
  /-- A read of a specified value (R91). -/
  | answered (act : HostAction) (v : Word) : (∃ a, act = .readWord a ∨ act = .readByte a) →
      ServeOutcome s act (s.answer v)
  /-- A read of an unspecified value (R59, R84, R85). -/
  | answeredFree (act : HostAction) (mask : Word) : (∃ a, act = .readWord a) →
      ServeOutcome s act (s.answerFree mask)

/-- A write of a register other than CMD is an argument's, a length's or ignored. -/
theorem writeReg_outcome (s t : State) (a : Half) (v : Word) (ha : a.toNat < 256)
    (hm : a.toNat % 4 = 0) (h : s.writeReg (a.toNat / 4) v = .next t) :
    ServeOutcome s (.writeWord a v) t := by
  unfold State.writeReg at h
  split at h
  case h_1 h0 =>
    obtain rfl : a = 0 := by apply BitVec.eq_of_toNat_eq; simp; omega
    unfold State.issue at h
    simp only at h
    split at h
    · rename_i i hd
      exact .command v i t hd h
    · rename_i r hd
      obtain rfl := Host.Outcome.next.inj h
      exact .illegal v r hd
  case h_10 h0 => obtain rfl := Host.Outcome.next.inj h; exact .inLength a v h0 hm
  case h_11 h0 => obtain rfl := Host.Outcome.next.inj h; exact .payLength a v h0 hm
  case h_12 h0 _ _ _ _ _ _ _ _ _ _ =>
    obtain rfl := Host.Outcome.next.inj h
    exact .ignored _ (.inl ⟨a, v, rfl, fun he => h0 (by rw [he]; rfl)⟩)
  all_goals
    rename_i h0
    obtain rfl := Host.Outcome.next.inj h
    exact .argument a _ v h0 hm ha

/-- The word windows: what lies where (R81). -/
theorem State.window_cases (s : State) (a : Half) (w : Window) (h : s.window a = some w) :
    (w = .reg ∧ a.toNat < 256) ∨ (w = .param ∧ 0x4000 ≤ a.toNat ∧ a.toNat < 0x4800) ∨
    (∃ b : Buf, w = .buffer b ∧ b.base ≤ a.toNat ∧ a.toNat < b.base + b.size) ∨
    (w = .field ∧ 0x5000 ≤ a.toNat ∧ a.toNat < 0x5000 + 8 * s.params.maxFields) := by
  unfold State.window windowOf at h
  split at h
  · exact .inl ⟨(Option.some.inj h).symm, by assumption⟩
  · split at h
    · exact .inr (.inl ⟨(Option.some.inj h).symm, by assumption⟩)
    · split at h
      · rename_i b hb
        exact .inr (.inr (.inl ⟨b, (Option.some.inj h).symm, bufferAt_eq_some _ _ hb⟩))
      · split at h
        · exact .inr (.inr (.inr ⟨(Option.some.inj h).symm, by assumption⟩))
        · nomatch h

/-- Serving an action that answers a next state has one of the outcomes. -/
theorem serve_outcome (s t : State) (act : HostAction) (h : s.serve act = .next t) :
    ServeOutcome s act t := by
  cases act with
  | reset =>
    obtain rfl := Host.Outcome.next.inj h
    exact .reset
  | writeWord a v =>
    simp only [State.serve, State.hostWriteWord] at h
    split at h
    · nomatch h
    · nomatch h
    · rename_i w hb hw
      split at h
      · nomatch h
      · rename_i hm
        have hm : a.toNat % 4 = 0 := by omega
        rcases s.window_cases a w hw with ⟨rfl, ha⟩ | ⟨rfl, ha, hb'⟩ | ⟨b, rfl, _⟩ | ⟨rfl, ha, _⟩
        · exact writeReg_outcome s t a v ha hm h
        · obtain rfl := Host.Outcome.next.inj h
          exact .parameter a v ha hb' hm
        · exact absurd rfl (hb b)
        · obtain rfl := Host.Outcome.next.inj h
          refine .ignored _ (.inl ⟨a, v, rfl, fun he => ?_⟩)
          rw [he] at ha
          exact absurd ha (by decide)
  | readWord a =>
    have hans : ∀ u, State.answer s u = t → ServeOutcome s (.readWord a) t :=
      fun u hu => hu ▸ .answered _ u ⟨a, .inl rfl⟩
    have hfree : ∀ m, State.answerFree s m = t → ServeOutcome s (.readWord a) t :=
      fun m hu => hu ▸ .answeredFree _ m ⟨a, rfl⟩
    simp only [State.serve, State.hostReadWord] at h
    split at h
    · nomatch h
    · nomatch h
    · split at h
      · nomatch h
      · split at h
        · have := Host.Outcome.next.inj h
          unfold State.readReg at this
          split at this
          · exact hans _ this
          · exact hfree _ this
        · have := Host.Outcome.next.inj h
          unfold State.readParam at this
          simp only at this
          split at this
          · split at this
            · exact hans _ this
            · exact hfree _ this
          · exact hans _ this
        · have := Host.Outcome.next.inj h
          unfold State.readField at this
          simp only at this
          split at this
          · exact hans _ this
          · exact hfree _ this
  | writeByte a v =>
    simp only [State.serve, State.hostWriteByte] at h
    split at h
    · nomatch h
    · rename_i b hb
      have ht := Host.Outcome.next.inj h
      rcases s.window_cases a _ hb with ⟨hw, _⟩ | ⟨hw, _⟩ | ⟨c, hw, h1, h2⟩ | ⟨hw, _⟩
      · nomatch hw
      · nomatch hw
      · obtain rfl := Window.buffer.inj hw
        cases b with
        | ibuf =>
          rw [Buf.hostWritable, if_pos rfl] at ht
          exact ht ▸ .byteStored a v .ibuf (.inl rfl) h1 h2
        | pbuf =>
          rw [Buf.hostWritable, if_pos rfl] at ht
          exact ht ▸ .byteStored a v .pbuf (.inr rfl) h1 h2
        | obuf => exact ht ▸ .ignored _ (.inr ⟨a, v, rfl⟩)
        | strbuf => exact ht ▸ .ignored _ (.inr ⟨a, v, rfl⟩)
      · nomatch hw
    · nomatch h
  | readByte a =>
    simp only [State.serve, State.hostReadByte] at h
    split at h
    · nomatch h
    · exact Host.Outcome.next.inj h ▸ .answered _ _ ⟨a, .inr rfl⟩
    · nomatch h
  | otherWidth a =>
    simp only [State.serve, State.hostOtherWidth] at h
    split at h <;> nomatch h

/-- A step with a host action pending serves it. -/
theorem step_eq_serve (s : State) (act : HostAction) (rest : List HostAction)
    (h : s.port = act :: rest) : step s = ({ s with port := rest } : State).serve act := by
  simp [step, State.serveNext, h]

/-- Everything a step can do: it waits, or it serves the oldest pending host action. -/
theorem step_outcome (s t : State) (h : step s = .next t) :
    (s.port = [] ∧ t = s) ∨ ∃ act rest, s.port = act :: rest ∧
      ServeOutcome { s with port := rest } act t := by
  cases hp : s.port with
  | nil =>
    simp only [step, State.serveNext, hp] at h
    exact .inl ⟨rfl, (Host.Outcome.next.inj h).symm⟩
  | cons act rest =>
    rw [step_eq_serve s act rest hp] at h
    exact .inr ⟨act, rest, rfl, serve_outcome _ _ _ h⟩

end Sys2Proof.Machine
end

