-- ==== Sys2Proof/Laws/PerInstr.lean ====
section
/-!
SUPPORT. Sys2Proof/Laws/PerInstr.lean: a statement about every instruction as syntax, one lemma for each
constructor.
-/
namespace Sys2Proof.Laws

/-- An instruction is well formed, its encoding decodes to it, and the encoding is one of R104's command
words for the command rows and a tag of R118 for the element rows. -/
def Encodes.Statement (i : Instr) : Prop :=
  i.wellFormed = true ∧ decode (encode i) = .ok i ∧
    if i.isCommand then ∃ w ∈ Machine.legalWords, encode i = .command w
    else ∃ side tag, encode i = .element side tag ∧ tag.toNat ≤ 5

theorem Encodes.cksumIbuf : Encodes.Statement .cksumIbuf := ⟨rfl, rfl, by
  refine ⟨_, ?_, rfl⟩
  decide⟩

theorem Encodes.cksumObuf : Encodes.Statement .cksumObuf := ⟨rfl, rfl, by
  refine ⟨_, ?_, rfl⟩
  decide⟩

theorem Encodes.cksumPbuf : Encodes.Statement .cksumPbuf := ⟨rfl, rfl, by
  refine ⟨_, ?_, rfl⟩
  decide⟩

theorem Encodes.fenv : Encodes.Statement .fenv := ⟨rfl, rfl, by
  refine ⟨_, ?_, rfl⟩
  decide⟩

theorem Encodes.fenc : Encodes.Statement .fenc := ⟨rfl, rfl, by
  refine ⟨_, ?_, rfl⟩
  decide⟩

theorem Encodes.fext : Encodes.Statement .fext := ⟨rfl, rfl, by
  refine ⟨_, ?_, rfl⟩
  decide⟩

theorem Encodes.fval : Encodes.Statement .fval := ⟨rfl, rfl, by
  refine ⟨_, ?_, rfl⟩
  decide⟩

theorem Encodes.pslice : Encodes.Statement .pslice := ⟨rfl, rfl, by
  refine ⟨_, ?_, rfl⟩
  decide⟩

theorem Encodes.fldenc : Encodes.Statement .fldenc := ⟨rfl, rfl, by
  refine ⟨_, ?_, rfl⟩
  decide⟩

theorem Encodes.flddec : Encodes.Statement .flddec := ⟨rfl, rfl, by
  refine ⟨_, ?_, rfl⟩
  decide⟩

theorem Encodes.packU8 : Encodes.Statement .packU8 := ⟨rfl, rfl, _, _, rfl, by decide⟩

theorem Encodes.packU16 : Encodes.Statement .packU16 := ⟨rfl, rfl, _, _, rfl, by decide⟩

theorem Encodes.packU32 : Encodes.Statement .packU32 := ⟨rfl, rfl, _, _, rfl, by decide⟩

theorem Encodes.packUnixtime : Encodes.Statement .packUnixtime := ⟨rfl, rfl, _, _, rfl, by decide⟩

theorem Encodes.unpackU8 : Encodes.Statement .unpackU8 := ⟨rfl, rfl, _, _, rfl, by decide⟩

theorem Encodes.unpackU16 : Encodes.Statement .unpackU16 := ⟨rfl, rfl, _, _, rfl, by decide⟩

theorem Encodes.unpackU32 : Encodes.Statement .unpackU32 := ⟨rfl, rfl, _, _, rfl, by decide⟩

theorem Encodes.unpackBool : Encodes.Statement .unpackBool := ⟨rfl, rfl, _, _, rfl, by decide⟩

theorem Encodes.unpackAscii : Encodes.Statement .unpackAscii := ⟨rfl, rfl, _, _, rfl, by decide⟩

theorem Encodes.unpackUnixtime : Encodes.Statement .unpackUnixtime := ⟨rfl, rfl, _, _, rfl, by decide⟩

end Sys2Proof.Laws
end

