-- ==== Sys2Proof/Machine/HostProgram.lean ====
section
/-!
DEFINITION. Sys2Proof/Machine/HostProgram.lean: host programs as the spec writes them (R108, R109), the
bodies of the two fixed frames (R115, R116), and the names of the values a host reads back (R124, R125).
No rule of FCV depends on it.
-/
namespace Sys2Proof.Machine

/-! ### The host syntax -/

/-- The registers by name (R33 to R57). -/
inductive RegName where
  | cmd | err | errInfo | status | chan | opMaj | opMin | eChan | eLink | dSel | cksStart | cksEnd | ckr
  | iLen | oLen | pLen | vStat | fHdr0 | fChan | fHdr1 | fOpc | fRes | fTrl | dRes | strLen
deriving DecidableEq, Repr

/-- The register's number (R33 to R57). -/
def RegName.number : RegName → Nat
  | .cmd => 0
  | .err => 1
  | .errInfo => 2
  | .status => 3
  | .chan => 4
  | .opMaj => 5
  | .opMin => 6
  | .eChan => 7
  | .eLink => 8
  | .dSel => 9
  | .cksStart => 10
  | .cksEnd => 11
  | .ckr => 12
  | .iLen => 13
  | .oLen => 14
  | .pLen => 15
  | .vStat => 16
  | .fHdr0 => 17
  | .fChan => 18
  | .fHdr1 => 19
  | .fOpc => 20
  | .fRes => 21
  | .fTrl => 22
  | .dRes => 23
  | .strLen => 24

/-- The register's host address, 4 * n (R81). -/
def RegName.address (r : RegName) : Half := BitVec.ofNat 16 (4 * r.number)

/-- One line of a host program (R108, R109). -/
inductive HostLine where
  /-- `wr REG, v`. -/
  | wr (r : RegName) (v : Word)
  /-- `rd REG`. -/
  | rd (r : RegName)
  /-- `wb BUF, i, bytes`; BUF is IBUF or PBUF. -/
  | wb (b : Buf) (i : Nat) (bytes : List Byte)
  /-- `wp n, v`. -/
  | wp (n : BitVec 8) (v : Word)
  /-- `cp n`. -/
  | cp (n : BitVec 8)
  /-- `cmd MNEMONIC`. -/
  | cmd (i : Instr)
  /-- `reset`. -/
  | reset
  /-- `ldframe s` (R109). -/
  | ldframe (s : List Byte)
  /-- `ldpayload s` (R109). -/
  | ldpayload (s : List Byte)
deriving DecidableEq, Repr

/-- Byte writes at consecutive addresses. -/
def writeBytes : Nat → List Byte → List HostAction
  | _, [] => []
  | a, b :: bs => .writeByte (BitVec.ofNat 16 a) b :: writeBytes (a + 1) bs

/-- The host actions of one line (R108, R109). No line issues an element operation by itself: it has no
command word. -/
def HostLine.actions : HostLine → List HostAction
  | .wr r v => [.writeWord r.address v]
  | .rd r => [.readWord r.address]
  | .wb b i bytes => writeBytes (b.base + i) bytes
  | .wp n v => [.writeWord (0x4000 + 8 * n.setWidth 16) v]
  | .cp n => [.writeWord (0x4004 + 8 * n.setWidth 16) 0]
  | .cmd i =>
    match encode i with
    | .command w => [issueAction w]
    | .element _ _ => []
  | .reset => [.reset]
  | .ldframe s => writeBytes Buf.ibuf.base s ++ [.writeWord RegName.iLen.address (BitVec.ofNat 32 s.length)]
  | .ldpayload s => writeBytes Buf.pbuf.base s ++ [.writeWord RegName.pLen.address (BitVec.ofNat 32 s.length)]

/-- Load a host program: its actions follow those already pending (log entry 1). -/
def State.loadProgram (s : State) (lines : List HostLine) : State :=
  { s with port := s.port ++ lines.flatMap HostLine.actions }

/-! ### The fixed frames -/

/-- The body of the setup-channel frame for channel id c (R115). -/
def setupBody (c : Word) : List Byte :=
  [0x14] ++ leBytes 4 c.toNat ++ [0x00, 0x00, 0x00, 0x00, 0x4D, 0x61, 0x69, 0x6E, 0x00]

/-- The body of the handshake frame (R116). -/
def handshakeBody : List Byte := [0x08, 0x01]

/-! ### Values a host reads back -/

/-- The result codes at response byte 16, in F_RES.RESULT (R124). -/
inductive ResultCode where
  | ok | unknownError | invalidValue | outOfRange | notAvailable | notAllowed | invalidGroup | invalidId
  | deviceBusy | invalidPin | mowerBlocked
  /-- 11..255, accepted and reported as is (`93_implementation_defined.md`, section 3). -/
  | unknown (code : Byte)
deriving DecidableEq, Repr

/-- The name of a result code (R124). -/
def ResultCode.ofByte (b : Byte) : ResultCode :=
  match b.toNat with
  | 0 => .ok
  | 1 => .unknownError
  | 2 => .invalidValue
  | 3 => .outOfRange
  | 4 => .notAvailable
  | 5 => .notAllowed
  | 6 => .invalidGroup
  | 7 => .invalidId
  | 8 => .deviceBusy
  | 9 => .invalidPin
  | 10 => .mowerBlocked
  | _ => .unknown b

/-- The packet types at byte 10 of a command frame, in F_HDR1.PTYPE (R125). -/
inductive PacketType where
  | request | response | event
  /-- 3..255, reported as is. -/
  | unknown (type : Byte)
deriving DecidableEq, Repr

/-- The name of a packet type (R125). -/
def PacketType.ofByte (b : Byte) : PacketType :=
  match b.toNat with
  | 0 => .request
  | 1 => .response
  | 2 => .event
  | _ => .unknown b

end Sys2Proof.Machine
end

