-- ==== Sys2Proof/Tests/Slice0.lean ====
section
/-!
SUPPORT. Sys2Proof/Tests/Slice0.lean: the vectors of `95_test_vectors.md` on small states, the checks of
WellFormed, the decoder on words written out from the encoding tables, and a witness for the hypotheses of
every statement. Expected values are the spec's, or hand calculation from its rules where no vector is named.
-/
open Sys2Proof Sys2Proof.Machine
namespace Sys2Proof.Tests

/-! ### States (log entry 20) -/

/-- The example schema (`95_test_vectors.md`, section 0). -/
def schema : List Descriptor :=
  [⟨0x125A, 0x09, [], some [⟨1, 0⟩, ⟨2, 0⟩]⟩,
    ⟨0x1234, 0x01, [⟨3, 1⟩, ⟨4, 2⟩, ⟨5, 0⟩], some [⟨3, 1⟩, ⟨4, 2⟩, ⟨5, 0⟩]⟩,
    ⟨0x1234, 0x56, [], Descriptor.singleType 3⟩,
    ⟨0x0001, 0x01, [⟨6, 3⟩], none⟩,
    ⟨0x0001, 0x02, [⟨10, 6⟩], some [⟨11, 1⟩, ⟨12, 4⟩]⟩,
    ⟨0x0001, 0x03, [⟨13, 5⟩], some [⟨13, 5⟩]⟩,
    ⟨0x0001, 0x04, [], some []⟩,
    ⟨0x0001, 0x05, [⟨15, 0⟩, ⟨16, 6⟩], some [⟨17, 2⟩, ⟨17, 0⟩]⟩,
    ⟨0x0001, 0x06, [], Descriptor.singleType 4⟩]

/-- An FCV after reset with the example schema and MAX_FIELDS = 4. -/
def box : State := { State.reset with params := { schema := schema, lastField := 3 } }

/-- Put a frame in IBUF. -/
def rx (s : State) (bs : List Byte) : State := (s.store .ibuf 0 bs).setILen (BitVec.ofNat 16 bs.length)

/-- Put bytes in PBUF. -/
def pay (s : State) (bs : List Byte) : State := (s.store .pbuf 0 bs).setPLen (BitVec.ofNat 16 bs.length)

/-- Select a descriptor. -/
def sel (d : Word) : State := box.writeArg .dSel d

/-- CHAN, OPMAJ and OPMIN written. -/
def dev (chan major minor : Word) : State :=
  ((box.writeArg .chan chan).writeArg .opMaj major).writeArg .opMin minor

/-- ECHAN and ELINK written. -/
def env (chan link : Word) : State := (box.writeArg .eChan chan).writeArg .eLink link

/-- CKS_START and CKS_END written. -/
def rng (s : State) (a b : Word) : State := (s.writeArg .cksStart a).writeArg .cksEnd b

/-- The host is about to do these. -/
def todo (s : State) (acts : List HostAction) : State := { s with port := acts }

/-- What an instruction's next state looks like. -/
def see {α : Type} (i : Instr) (s : State) (f : State → α) : Option α := (nextState (exec i s)).map f

/-- ERR and ERRINFO. -/
def errs (t : State) : Byte × Word := (t.err, t.errInfo)

/-- V-SRC-1. -/
def src1 : List Byte :=
  [0x02, 0xFD, 0x16, 0x00, 0x00, 0x00, 0x00, 0x00, 0x00, 0x2E, 0x14, 0xB3, 0x3B, 0x60, 0x47, 0x00, 0x00,
    0x00, 0x00, 0x4D, 0x61, 0x69, 0x6E, 0x00, 0x1B, 0x03]

/-- V-SRC-2. -/
def src2 : List Byte :=
  [0x02, 0xFD, 0x0A, 0x00, 0xB3, 0x3B, 0x60, 0x47, 0x00, 0x5D, 0x08, 0x01, 0x28, 0x03]

/-- V-SRC-3 up to its result code, and the bytes after it. -/
def src3Head : List Byte :=
  [0x02, 0xFD, 0x13, 0x00, 0xB6, 0x3B, 0x60, 0x47, 0x01, 0xE6, 0x01, 0xAF, 0x5A, 0x12, 0x09, 0x00, 0x00]

/-- V-SRC-3. -/
def src3 : List Byte := src3Head ++ [0x02, 0x00, 0x17, 0x01, 0xC8, 0x03]

/-- V-FENC-1. -/
def fenc1 : List Byte :=
  [0x02, 0xFD, 0x10, 0x00, 0xB3, 0x3B, 0x60, 0x47, 0x01, 0x73, 0x00, 0xAF, 0x5A, 0x12, 0x09, 0x00, 0x00,
    0x00, 0xB7, 0x03]

/-- IBUF holds V-SRC-3 and the device arguments match it. -/
def got3 : State := rx (dev 0x47603BB6 0x125A 0x09) src3

/-- DSEL = 1 with the parameters of V-ENC-1. -/
def params1 : State := (((sel 1).setParam 3 0xABCD).setParam 4 0x01020304).setParam 5 0xFF

/-- A payload of n letters A. -/
def letters (n : Nat) : List Byte := List.replicate n 0x41

/-! ### WellFormed -/

theorem test_rsv_must_be_zero :
    (⟨0x05, 0, 1⟩ : CmdFields).rsvOk = false ∧ (⟨0x05, 0, 1⟩ : CmdFields).wellFormed = false ∧
      (⟨0x05, 0, 0⟩ : CmdFields).wellFormed = true := by decide

theorem test_op_must_be_assigned :
    (⟨0x00, 0, 0⟩ : CmdFields).opOk = false ∧ (⟨0x09, 0, 0⟩ : CmdFields).opOk = false ∧
      (⟨0x00, 0, 0⟩ : CmdFields).wellFormed = false ∧ (⟨0x09, 0, 0⟩ : CmdFields).wellFormed = false ∧
      (⟨0x08, 0, 0⟩ : CmdFields).wellFormed = true := by decide

theorem test_bsel_must_fit_op :
    (⟨0x01, 3, 0⟩ : CmdFields).bselOk = false ∧ (⟨0x02, 1, 0⟩ : CmdFields).bselOk = false ∧
      (⟨0x01, 3, 0⟩ : CmdFields).wellFormed = false ∧ (⟨0x02, 1, 0⟩ : CmdFields).wellFormed = false ∧
      (⟨0x01, 2, 0⟩ : CmdFields).wellFormed = true := by decide

/-! ### Decode: R102, R103 and R118, bit by bit -/

theorem test_decode_cksum :
    decode (.command (0b0000000000000000000000#22 ++ 0b00#2 ++ 0b00000001#8)) = .ok .cksumIbuf ∧
      decode (.command (0b0000000000000000000000#22 ++ 0b01#2 ++ 0b00000001#8)) = .ok .cksumObuf ∧
      decode (.command (0b0000000000000000000000#22 ++ 0b10#2 ++ 0b00000001#8)) = .ok .cksumPbuf := by
  decide

theorem test_decode_frame :
    decode (.command (0b0000000000000000000000#22 ++ 0b00#2 ++ 0b00000010#8)) = .ok .fenv ∧
      decode (.command (0b0000000000000000000000#22 ++ 0b00#2 ++ 0b00000011#8)) = .ok .fenc ∧
      decode (.command (0b0000000000000000000000#22 ++ 0b00#2 ++ 0b00000100#8)) = .ok .fext ∧
      decode (.command (0b0000000000000000000000#22 ++ 0b00#2 ++ 0b00000101#8)) = .ok .fval ∧
      decode (.command (0b0000000000000000000000#22 ++ 0b00#2 ++ 0b00000110#8)) = .ok .pslice := by
  decide

theorem test_decode_field :
    decode (.command (0b0000000000000000000000#22 ++ 0b00#2 ++ 0b00000111#8)) = .ok .fldenc ∧
      decode (.command (0b0000000000000000000000#22 ++ 0b00#2 ++ 0b00001000#8)) = .ok .flddec := by
  decide

theorem test_decode_pack :
    decode (.element .request 0b000) = .ok .packU8 ∧ decode (.element .request 0b001) = .ok .packU16 ∧
      decode (.element .request 0b010) = .ok .packU32 ∧
      decode (.element .request 0b101) = .ok .packUnixtime := by decide

theorem test_decode_unpack :
    decode (.element .response 0b000) = .ok .unpackU8 ∧
      decode (.element .response 0b001) = .ok .unpackU16 ∧
      decode (.element .response 0b010) = .ok .unpackU32 ∧
      decode (.element .response 0b011) = .ok .unpackBool ∧
      decode (.element .response 0b100) = .ok .unpackAscii ∧
      decode (.element .response 0b101) = .ok .unpackUnixtime := by decide

/-- V-CW-1, 2, 4, 5, 6, 8, and the tags R118 and R226 leave without an operation. -/
theorem test_decode_rejects :
    decodeCommand 0x00000000 = .error (.reservedOp 0x00) ∧
      decodeCommand 0x00000009 = .error (.reservedOp 0x09) ∧
      decodeCommand 0x00000100 = .error (.reservedOp 0x00) ∧
      decodeCommand 0x00000301 = .error .reservedBsel ∧
      decodeCommand 0x00000102 = .error (.bselWithoutCksum 1) ∧
      decodeCommand 0x00000401 = .error (.reservedBits 1) ∧
      decodeElement .request 3 = .error (.noPackOperation 3) ∧
      decodeElement .response 6 = .error (.reservedTag 6) := by decide

theorem test_table_words :
    decodeTableWord 32 0x201 = some .cksumPbuf ∧ decodeTableWord 8 5 = some .packUnixtime ∧
      decodeTableWord 8 3 = some .unpackBool ∧ decodeTableWord 8 7 = none := by decide

/-! ### Each instruction (`95_test_vectors.md`, section 2) -/

/-- V-CK-8 and V-CK-12. -/
theorem test_cksum_ibuf :
    see .cksumIbuf (rng got3 1 8) (fun t => (t.ckr, t.flag .ckrV)) = some (0xE6, true) ∧
      see .cksumIbuf (rng got3 10 20) State.ckr = some 0xC8 := by decide +kernel

/-- V-CK-15: OLEN is 0 after reset. -/
theorem test_cksum_obuf : see .cksumObuf (rng box 0 0) errs = some (4, 0) := by decide +kernel

/-- V-CK-6 and V-CK-14. -/
theorem test_cksum_pbuf :
    see .cksumPbuf (rng (pay box [0x31, 0x32, 0x33, 0x34, 0x35, 0x36, 0x37, 0x38, 0x39]) 0 8) State.ckr
        = some 0xA1 ∧
      see .cksumPbuf (rng (pay box [1, 2]) 0 2) errs = some (4, 0x00020000) := by decide +kernel

/-- V-FENV-2 and V-FENV-3. -/
theorem test_fenv :
    see .fenv (pay (env 0x47603BB3 0) [0x08, 0x01]) (fun t => t.bytes .obuf 0 t.oLen.toNat)
        = some src2 ∧
      see .fenv (pay (env 0 0) [0x14, 0xB3, 0x3B, 0x60, 0x47, 0, 0, 0, 0, 0x4D, 0x61, 0x69, 0x6E, 0])
        (fun t => t.bytes .obuf 0 t.oLen.toNat) = some src1 := by decide +kernel

/-- V-FENC-1 and V-FENC-9. -/
theorem test_fenc :
    see .fenc (dev 0x47603BB3 0x125A 0x09) (fun t => t.bytes .obuf 0 t.oLen.toNat) = some fenc1 ∧
      see .fenc (pay (dev 0xFFFFFFFF 0xFFFF 0xFF) [0xAA]) (fun t => t.bytes .obuf 0 t.oLen.toNat)
        = some [0x02, 0xFD, 0x11, 0x00, 0xFF, 0xFF, 0xFF, 0xFF, 0x01, 0xB2, 0x00, 0xAF, 0xFF, 0xFF, 0xFF,
          0x00, 0x01, 0x00, 0xAA, 0x23, 0x03] := by decide +kernel

/-- V-FEXT-1 and V-FEXT-3. -/
theorem test_fext :
    see .fext (rx box src3) (fun t => [t.fHdr0, t.fChan, t.fHdr1, t.fOpc, t.fRes, t.fTrl])
        = some [0x0013FD02, 0x47603BB6, 0xAF01E601, 0x0009125A, 0x00020000, 0x001703C8] ∧
      see .fext (rx box (src3.take 20)) errs = some (6, 0x14) := by decide +kernel

/-- V-FVAL-1, 2 and 24. -/
theorem test_fval :
    see .fval got3 State.vStat = some 0x80000000 ∧
      see .fval (rx (dev 0x47603BB3 0x125A 0x09) src3) State.vStat = some 0x00000010 ∧
      see .fval (rx (dev 0x47603BB6 0x125A 0x09) (src3 ++ [0x00])) State.vStat = some 0x00002C08 := by
  decide +kernel

/-- V-FVAL-22, and V-FVAL-16 and 17 in one frame, both inside the trailing range. -/
theorem test_fval_failures :
    see .fval (rx (dev 0x47603BB6 0x125A 0x09) (src3.take 20)) State.vStat = some 0x00000001 ∧
      see .fval (rx (dev 0x47603BB6 0x125A 0x09)
        (src3Head.take 16 ++ [0x04, 0x02, 0x00, 0x17, 0x01, 0xC8, 0x03])) State.vStat
        = some 0x00000600 ∧
      see .fval (rx (dev 0x47603BB6 0x125A 0x09) (src3Head ++ [0x01, 0x00, 0x17, 0x01, 0xC8, 0x03]))
        State.vStat = some 0x00002400 := by decide +kernel

/-- V-PS-1 and V-PS-4. -/
theorem test_pslice :
    see .pslice (rx box src3) (fun t => t.bytes .pbuf 0 t.pLen.toNat) = some [0x17, 0x01] ∧
      see .pslice (rx box (src3Head ++ [0x02, 0x01, 0x17, 0x01, 0xC8, 0x03])) errs
        = some (7, 0x102) := by decide +kernel

/-- V-ENC-1, V-ENC-6, V-ENC-7. -/
theorem test_fldenc :
    see .fldenc params1 (fun t => t.bytes .pbuf 0 t.pLen.toNat)
        = some [0xCD, 0xAB, 0x04, 0x03, 0x02, 0x01, 0xFF] ∧
      see .fldenc (((sel 1).setParam 4 0).setParam 5 0) errs = some (9, 0x00010003) ∧
      see .fldenc ((sel 3).setParam 6 1) errs = some (10, 0x00030000) := by decide +kernel

/-- V-DEC-D1-1, V-DEC-D1-2, V-DEC-D7. -/
theorem test_flddec :
    see .flddec (pay (sel 1) [0xCD, 0xAB, 0x04, 0x03, 0x02, 0x01, 0xFF])
        (fun t => (t.field, t.dRes)) = some ([⟨3, 1, 0xABCD⟩, ⟨4, 2, 0x01020304⟩, ⟨5, 0, 0xFF⟩], 0x302) ∧
      see .flddec (pay (sel 1) [0xCD, 0xAB, 0x04, 0x03, 0x02]) errs = some (12, 0x00050006) ∧
      see .flddec (pay (sel 7) [1, 2, 3, 4, 5]) errs = some (10, 0x00070001) := by decide +kernel

/-- V-DEC-BOOL-3, V-DEC-ASC-2, V-DEC-ASC-6, V-DEC-D3-1. -/
theorem test_flddec_single :
    see .flddec (pay (sel 2) [0x02]) (fun t => (t.field, t.dRes)) = some ([⟨0xFF, 3, 1⟩], 0x101) ∧
      see .flddec (pay (sel 8) [0x41, 0x42, 0x00, 0x43, 0x00, 0x00])
        (fun t => t.bytes .strbuf 0 t.strLen.toNat) = some [0x41, 0x42, 0x00, 0x43] ∧
      see .flddec (pay (sel 8) [0x41, 0x00, 0x80, 0x00]) errs = some (14, 2) ∧
      see .flddec (sel 3) (fun t => (t.dRes, t.err, t.flag .dV)) = some (0, 0, true) := by
  decide +kernel

/-- The walk of an element operation: descriptor 1, name 5, value v, offset off. -/
def walk (v : Word) (off : Nat) (s : State) : State :=
  { s with walk := { Walk.start 1 with name := 5, value := v, off := off } }

/-- R222 and R223: the bytes, and FIELD_RANGE at the first value too large (the values of V-ENC-1 and 4). -/
theorem test_packU8 :
    see .packU8 (walk 0xFF 0 box) (fun t => t.walk.out) = some [0xFF] ∧
      see .packU8 (walk 0x100 0 box) errs = some (11, 0x00010005) := by decide +kernel

theorem test_packU16 :
    see .packU16 (walk 0xABCD 0 box) (fun t => t.walk.out) = some [0xCD, 0xAB] ∧
      see .packU16 (walk 0x10000 0 box) errs = some (11, 0x00010005) := by decide +kernel

/-- R224, R225 (the values of V-ENC-1 and V-ENC-13). -/
theorem test_packU32 :
    see .packU32 (walk 0x01020304 0 box) (fun t => t.walk.out) = some [0x04, 0x03, 0x02, 0x01] := by
  decide +kernel

theorem test_packUnixtime :
    see .packUnixtime (walk 0x6553F100 0 box) (fun t => t.walk.out) = some [0x00, 0xF1, 0x53, 0x65] := by
  decide +kernel

/-- R228 (V-DEC-D0-1 and V-DEC-D0-2, second field). -/
theorem test_unpackU8 :
    see .unpackU8 (walk 0 1 (pay box [0x17, 0x01])) (fun t => (t.walk.value, t.walk.off)) = some (1, 2) ∧
      see .unpackU8 (walk 0 1 (pay box [0x17])) errs = some (12, 0x00010002) := by decide +kernel

/-- R230, R231, R232 (V-DEC-D1-1, V-DEC-D5-1, V-DEC-D5-2). -/
theorem test_unpackU16 :
    see .unpackU16 (walk 0 0 (pay box [0xCD, 0xAB])) (fun t => (t.walk.value, t.walk.off))
      = some (0xABCD, 2) := by decide +kernel

theorem test_unpackU32 :
    see .unpackU32 (walk 0 2 (pay box [0xCD, 0xAB, 0x04, 0x03, 0x02, 0x01])) (fun t => t.walk.value)
      = some 0x01020304 := by decide +kernel

theorem test_unpackUnixtime :
    see .unpackUnixtime (walk 0 0 (pay box [0x00, 0xF1, 0x53, 0x6A])) (fun t => t.walk.value)
        = some 0x6A53F100 ∧
      see .unpackUnixtime (walk 0 0 (pay box [0x00, 0xF1, 0x53])) errs = some (12, 0x00030004) := by
  decide +kernel

/-- R229 (V-DEC-BOOL-2 and 4). -/
theorem test_unpackBool :
    see .unpackBool (walk 0 0 (pay box [0xFF])) (fun t => t.walk.value) = some 1 ∧
      see .unpackBool (walk 7 0 (pay box [0x00])) (fun t => t.walk.value) = some 0 := by decide +kernel

/-- R233 (V-DEC-ASC-1 and 5). -/
theorem test_unpackAscii :
    see .unpackAscii (walk 0 0 (pay box [0x4D, 0x61, 0x69, 0x6E, 0x00]))
        (fun t => (t.walk.value, t.walk.off, t.walk.str)) = some (4, 5, [0x4D, 0x61, 0x69, 0x6E]) ∧
      see .unpackAscii (walk 0 0 (pay box [0x41, 0x80])) errs = some (14, 1) := by decide +kernel

/-! ### The port -/

/-- What one step leaves. -/
def seeStep {α : Type} (s : State) (f : State → α) : Option α := (nextState (step s)).map f

/-- V-CW-5: the word, ERR, ERRINFO and ESTICKY. -/
theorem test_illegal_word :
    seeStep (todo box [.writeWord 0 0x301]) (fun t => (t.cmd, errs t, t.status))
      = some (0x301, (1, 0x301), 1) := by decide +kernel

/-- R59, R81, R84, R85 through the port, one access each. -/
theorem test_accesses :
    seeStep (todo box [.writeWord 0x18 0x12345609]) (fun t => (t.opMin, t.status)) = some (0x09, 8) ∧
      seeStep (todo box [.writeWord 0x4798 7]) (fun t => t.paramAt 0xF3) = some ⟨true, 7⟩ ∧
      seeStep (todo got3 [.readByte 0x1013]) State.readData = some 0x17 ∧
      seeStep (todo { box with status := 0x1000, dRes := 0x101, field := [⟨0xFF, 4, 4⟩] } [.readWord 0x5004])
        State.readData = some 0x4FF := by decide +kernel

/-- R81 to R83 (log entries 10 and 11): the first address past FIELD, a word in IBUF, an odd word. -/
theorem test_misuse :
    step (todo box [.writeWord 0x5020 0]) = .fault (.unmappedAddress 0x5020) ∧
      step (todo box [.writeWord 0x1000 0]) = .refused (.wrongWidth 0x1000) ∧
      step (todo box [.readWord 0x4002]) = .refused (.misalignedAccess 0x4002) := ⟨rfl, rfl, rfl⟩

/-- The instruction withFetchWord places is the one the next step runs, from reset. -/
theorem test_withFetchWord :
    seeStep (State.reset.withFetchWord 32 0x00000005) errs = some (2, 4) ∧
      seeStep (State.reset.withFetchWord 8 2) (fun t => (t.pLen, t.err)) = some (4, 0) ∧
      seeStep (State.reset.withFetchWord 8 4) (fun t => (t.dRes, t.err)) = some (0x101, 0) := by
  decide +kernel

/-! ### Witnesses: states and operands that meet a statement's hypotheses, clause by clause -/

theorem witness_ResetStateIsTheTable : 25 ≤ 25 ∧ 25 < 64 ∧ 25 ≤ 63 ∧ 63 < 64 := by decide

theorem witness_ResetActionReachesTheResetState : (todo got3 [.reset]).port = .reset :: [] := rfl

/-- IBUF and PBUF written, one field decoded, FVAL pending. -/
def busy : State :=
  todo { pay got3 [0x17] with status := 0x100F, dRes := 0x101, field := [⟨0xFF, 3, 1⟩] } [.writeWord 0 5]

theorem witness_StepKeepsTheInvariant : busy.Inv ∧ ∃ t, step busy = .next t :=
  ⟨⟨by decide +kernel, .inl rfl, by decide, fun _ => rfl, fun h => absurd h (by decide), by decide,
    fun h => absurd h (by decide), fun h => absurd h (by decide), fun h => absurd h (by decide),
    fun h => absurd h (by decide), fun _ => by decide, fun _ => by decide, by decide, by decide,
    fun e he => by
      obtain rfl : e = ⟨0xFF, 3, 1⟩ := by simpa [busy, todo] using he
      simp [FieldEntry.fits]⟩, _, rfl⟩

theorem witness_StepKeepsTheSchema : ∃ t, step busy = .next t := ⟨_, rfl⟩

theorem witness_StepWaitsForTheHost : got3.port = [] := rfl

theorem witness_StepRunsTheIssuedCommand :
    (todo got3 [.writeWord 0x0000 0x201]).port = .writeWord 0x0000 0x201 :: [] ∧
      decodeCommand 0x201 = .ok .cksumPbuf ∧ Instr.cksumPbuf.wellFormed = true := ⟨rfl, rfl, rfl⟩

theorem witness_IllegalWordRaisesIllegalCmd :
    (todo box [.writeWord 0x0000 0x301]).port = .writeWord 0x0000 0x301 :: [] ∧
      (0x301 : Word) ∉ legalWords ∧ (0 : Word) ∉ legalWords ∧ (9 : Word) ∉ legalWords ∧
      (0xFFFFFFFF : Word) ∉ legalWords := ⟨rfl, by decide, by decide, by decide, by decide⟩

/-- A bit before and after the one step that serves this action. -/
def turn (s : State) (act : HostAction) (b : StatusBit) : Option (Bool × Bool) :=
  seeStep (todo s [act]) fun t => (s.flag b, t.flag b)

theorem witness_StatusBitsChangeOnlyAsStated :
    turn { rx (dev 0 0 0) (src3.take 20) with status := 0x40E } (.writeWord 0 5) .fxV
        = some (true, false) ∧
      turn box (.writeWord 0 0) .esticky = some (false, true) ∧
      turn box (.writeWord 0x10 0) .chanV = some (false, true) ∧
      turn box (.writeWord 0x2C 0) .cksEV = some (false, true) ∧
      turn (rng (pay box [1]) 0 0) (.writeWord 0 0x201) .ckrV = some (false, true) ∧
      turn (rx box src3) (.writeWord 0 4) .fxV = some (false, true) ∧
      turn got3 (.writeWord 0 5) .fxV = some (false, true) ∧
      turn got3 (.writeWord 0 5) .vV = some (false, true) ∧
      turn (sel 3) (.writeWord 0 8) .dV = some (false, true) := by decide +kernel

theorem witness_ParamStaysUntilCleared :
    seeStep (todo (box.setParam 0 5) [.writeWord 0x4004 0])
        (fun t => ((box.setParam 0 5).paramAt 0, t.paramAt 0)) = some (⟨true, 5⟩, ⟨false, 5⟩) ∧
      seeStep (todo (box.setParam 255 5) [.writeWord 0x47FC 2])
        (fun t => ((box.setParam 255 5).paramAt 255, t.paramAt 255))
        = some (⟨true, 5⟩, ⟨false, 5⟩) := by decide +kernel

theorem witness_HostAccessKeepsResults :
    (todo got3 [.writeByte 0x1000 7]).port = .writeByte 0x1000 7 :: [] ∧
      HostAction.writeByte 0x1000 7 ≠ .reset ∧
      (∀ w, HostAction.writeByte 0x1000 7 ≠ .writeWord 0x0000 w) ∧
      (∃ t, step (todo got3 [.writeByte 0x1000 7]) = .next t) ∧ got3.flag .chanV = true ∧
      Buf.obuf.holds 0x2000 = true ∧ Buf.strbuf.holds 0x60ED = true :=
  ⟨rfl, by decide, fun w => by simp, ⟨_, rfl⟩, by decide, by decide, by decide⟩

theorem witness_DutifulHostIsServed :
    box.dutiful (.writeWord 0x00FC 0) ∧ box.dutiful (.readWord 0x47FC) ∧
      box.dutiful (.writeWord 0x4000 0) ∧ box.dutiful (.readWord 0x501C) ∧
      box.dutiful (.writeByte 0x1102 0) ∧ box.dutiful (.readByte 0x60ED) ∧ box.dutiful .reset :=
  ⟨⟨rfl, .inl rfl⟩, ⟨rfl, .inr (.inl rfl)⟩, ⟨rfl, .inr (.inl rfl)⟩, ⟨rfl, .inr (.inr rfl)⟩,
    ⟨_, rfl⟩, ⟨_, rfl⟩, trivial⟩

theorem witness_HostMisuseStops :
    box.window 0x0100 = none ∧ box.window 0x1103 = none ∧ box.window 0x5020 = none ∧
      box.window 0xFFFF = none ∧ box.window 0x30FE = some (.buffer .pbuf) ∧
      box.window 0x00FD = some .reg ∧ (0x00FD : Half).toNat % 4 ≠ 0 ∧
      box.window 0x47FF = some .param ∧ box.window 0x501F = some .field := by decide

theorem witness_ArgumentWriteStoresAndValidates :
    (todo box [.writeWord 0x10 1]).port
        = .writeWord (4 * ArgReg.chan.number.setWidth 16) 1 :: [] ∧
      (todo box [.writeWord 0x2C 1]).port
        = .writeWord (4 * ArgReg.cksEnd.number.setWidth 16) 1 :: [] := ⟨rfl, rfl⟩

theorem witness_LengthWriteStores :
    (todo box [.writeWord 0x0034 0xFFFF]).port = .writeWord 0x0034 0xFFFF :: [] ∧
      (todo box [.writeWord 0x003C 0x10000]).port = .writeWord 0x003C 0x10000 :: [] := ⟨rfl, rfl⟩

theorem witness_IgnoredWritesAndReservedRegisters :
    (todo box [.writeWord 0x04 1]).port = .writeWord (BitVec.ofNat 16 (4 * 1)) 1 :: [] ∧
      (todo box [.writeWord 0xFC 1]).port = .writeWord (BitVec.ofNat 16 (4 * 63)) 1 :: [] ∧
      (todo box [.readWord 0x64]).port = .readWord (BitVec.ofNat 16 (4 * 25)) :: [] := ⟨rfl, rfl, rfl⟩

theorem witness_HostReadHasNoSideEffect :
    (∃ t, step (todo box [.readWord 0x10]) = .next t) ∧
      ∃ t, step (todo box [.readByte 0x2000]) = .next t := ⟨⟨_, rfl⟩, _, rfl⟩

theorem witness_RegisterReadReturnsTheRegister :
    (todo box [.readWord 0x00]).port = .readWord (BitVec.ofNat 16 (4 * 0)) :: [] ∧
      (todo box [.readWord 0xFC]).port = .readWord (BitVec.ofNat 16 (4 * 63)) :: [] ∧
      box.regValid 0 = true ∧ box.regValid 63 = true ∧ box.regValid 4 = false ∧
      box.regValid 24 = false := by decide

theorem witness_BufferByteAccess :
    258 < Buf.ibuf.size ∧ 258 < Buf.obuf.size ∧ 254 < Buf.pbuf.size ∧ 237 < Buf.strbuf.size ∧
      (todo box [.writeByte 0x1102 9]).port
        = .writeByte (BitVec.ofNat 16 (Buf.ibuf.base + 258)) 9 :: [] ∧
      (todo box [.writeByte 0x60ED 9]).port
        = .writeByte (BitVec.ofNat 16 (Buf.strbuf.base + 237)) 9 :: [] ∧
      (todo box [.readByte 0x3000]).port
        = .readByte (BitVec.ofNat 16 (Buf.pbuf.base + 0)) :: [] := by decide

theorem witness_ParamWindowAccess :
    (todo box [.writeWord 0x47F8 1]).port
        = .writeWord (0x4000 + 8 * (255 : BitVec 8).setWidth 16) 1 :: [] ∧
      (todo box [.writeWord 0x4004 1]).port
        = .writeWord (0x4004 + 8 * (0 : BitVec 8).setWidth 16) 1 :: [] ∧
      (todo box [.readWord 0x47FC]).port
        = .readWord (0x4004 + 8 * (255 : BitVec 8).setWidth 16) :: [] ∧
      (2 : Word).getLsbD 0 = false ∧ (1 : Word).getLsbD 0 = true ∧
      ((box.setParam 255 1).paramAt 255).present = true := by decide +kernel

/-- Four fields decoded, as many as MAX_FIELDS. -/
def four : State :=
  { box with status := 0x1000, dRes := 0x402, field := [⟨1, 0, 1⟩, ⟨2, 0, 2⟩, ⟨3, 0, 3⟩, ⟨4, 5, 4⟩] }

theorem witness_FieldWindowRead :
    (todo four [.readWord 0x5018]).port = .readWord (BitVec.ofNat 16 (0x5000 + 8 * 3)) :: [] ∧
      (todo four [.readWord 0x501C]).port = .readWord (BitVec.ofNat 16 (0x5004 + 8 * 3)) :: [] ∧
      3 < four.params.maxFields ∧ four.flag .dV = true ∧ 3 < four.nFields ∧
      four.field[3]? = some ⟨4, 5, 4⟩ ∧ box.flag .dV = false ∧
      ({ four with dRes := 0x302 } : State).nFields ≤ 3 := by decide

theorem witness_DecodeAndEncodeAreInverse :
    Instr.unpackAscii.wellFormed = true ∧ decode (.command 0x201) = .ok .cksumPbuf ∧
      decode (.element .request 5) = .ok .packUnixtime := ⟨rfl, rfl, rfl⟩

theorem witness_MemReadAfterMemWrite : 0xFFFFFFFF < 256 ^ 4 ∧ 0xABCD < 256 ^ 2 ∧ 0 < 256 ^ 0 := by decide

theorem witness_ResidueLaw :
    1 ≤ 20 ∧ got3.byte .ibuf (20 + 1) = got3.crcRange .ibuf 1 20 ∧
      got3.byte .ibuf 9 = got3.crcRange .ibuf 1 8 ∧ 12 ≤ 23 ∧
      got3.byte .ibuf (23 - 2) = got3.crcRange .ibuf 1 (23 - 3) ∧ 12 ≤ 12 ∧
      (rx box (src2.take 10 ++ [0x00, 0x03])).byte .ibuf (12 - 2)
        = (rx box (src2.take 10 ++ [0x00, 0x03])).crcRange .ibuf 1 (12 - 3) := by decide +kernel

theorem witness_BodyLaw : 13 ≤ 13 ∧ 13 ≤ 23 ∧ got3.byte .ibuf 9 = got3.crcRange .ibuf 1 8 := by
  decide +kernel

theorem witness_CksumComputesTheRange :
    (Instr.cksumIbuf, Buf.ibuf) ∈ cksumRows ∧ (Instr.cksumObuf, Buf.obuf) ∈ cksumRows ∧
      (Instr.cksumPbuf, Buf.pbuf) ∈ cksumRows ∧
      (rng { box with oLen := 259 } 0 258).configured [.cksStart, .cksEnd] ∧
      (rng { box with oLen := 259 } 0 258).lengthOf .obuf ≤ Buf.obuf.size ∧
      (rng { box with oLen := 259 } 0 258).cksStart.toNat
        ≤ (rng { box with oLen := 259 } 0 258).cksEnd.toNat ∧
      (rng { box with oLen := 259 } 0 258).cksEnd.toNat
        < (rng { box with oLen := 259 } 0 258).lengthOf .obuf ∧
      (rng (pay box [1]) 0 0).cksEnd.toNat < (rng (pay box [1]) 0 0).lengthOf .pbuf := by
  decide +kernel

theorem witness_CksumRaises :
    box.flag .cksSV = false ∧ (box.writeArg .cksStart 0).flag .cksSV = true ∧
      (box.writeArg .cksStart 0).flag .cksEV = false ∧
      (rng { box with pLen := 256 } 0 0).configured [.cksStart, .cksEnd] ∧
      Buf.pbuf.size < (rng { box with pLen := 256 } 0 0).lengthOf .pbuf ∧
      (rng { box with pLen := 255 } 1 0).cksEnd.toNat < (rng { box with pLen := 255 } 1 0).cksStart.toNat ∧
      (rng { box with pLen := 255 } 0 255).lengthOf .pbuf ≤ Buf.pbuf.size ∧
      (rng { box with pLen := 255 } 0 255).lengthOf .pbuf
        ≤ (rng { box with pLen := 255 } 0 255).cksEnd.toNat := by decide

theorem witness_FenvBuildsTheEnvelope :
    (env 0 0).configured [.eChan, .eLink] ∧ (env 0 0).pLen.toNat ≤ 247 ∧
      ({ env 0 0 with pLen := 247 } : State).pLen.toNat ≤ 247 := by decide

theorem witness_FencBuildsTheRequest :
    (dev 0 0 0).configured [.chan, .opMaj, .opMin] ∧ (dev 0 0 0).pLen.toNat ≤ 239 ∧
      ({ dev 0 0 0 with pLen := 239 } : State).pLen.toNat ≤ 239 := by decide

theorem witness_FrameCommandsRaise :
    box.flag .eChanV = false ∧ (box.writeArg .eChan 0).flag .eChanV = true ∧
      (box.writeArg .eChan 0).flag .eLinkV = false ∧
      ({ env 0 0 with pLen := 256 } : State).configured [.eChan, .eLink] ∧
      255 < ({ env 0 0 with pLen := 256 } : State).pLen.toNat ∧
      247 < ({ env 0 0 with pLen := 248 } : State).pLen.toNat ∧
      ({ env 0 0 with pLen := 255 } : State).pLen.toNat ≤ 255 ∧
      box.flag .chanV = false ∧ (box.writeArg .chan 0).flag .chanV = true ∧
      (box.writeArg .chan 0).flag .opMajV = false ∧
      ((box.writeArg .chan 0).writeArg .opMaj 0).flag .opMajV = true ∧
      ((box.writeArg .chan 0).writeArg .opMaj 0).flag .opMinV = false ∧
      ({ dev 0 0 0 with pLen := 256 } : State).configured [.chan, .opMaj, .opMin] ∧
      255 < ({ dev 0 0 0 with pLen := 256 } : State).pLen.toNat ∧
      239 < ({ dev 0 0 0 with pLen := 240 } : State).pLen.toNat := by decide

/-- V-FENV-9 with one payload byte more: the command body of the request for payload 10. -/
theorem witness_FencIsFenvOfTheCommandBody :
    let s := pay (dev 0x47603BB3 0x125A 0x09) [0x10]
    let u := pay (env 0x47603BB3 1) [0x00, 0xAF, 0x5A, 0x12, 0x09, 0x00, 0x01, 0x00, 0x10]
    s.configured [.chan, .opMaj, .opMin] ∧ u.configured [.eChan, .eLink] ∧ s.pLen.toNat ≤ 239 ∧
      u.pLen.toNat = s.pLen.toNat + 8 ∧ u.eChan = s.chan ∧ u.eLink = 0x01 ∧ u.byte .pbuf 0 = 0x00 ∧
      u.byte .pbuf 1 = 0xAF ∧ u.memRead .pbuf 2 2 = s.opMaj.toNat ∧ u.byte .pbuf 4 = s.opMin ∧
      u.byte .pbuf 5 = 0x00 ∧ u.memRead .pbuf 6 2 = s.pLen.toNat ∧
      ∀ i, i < s.pLen.toNat → u.byte .pbuf (8 + i) = s.byte .pbuf i := by decide +kernel

theorem witness_BuiltFrameHasZeroResidue :
    see .fenv (env 0x47603BB3 0) (fun t => (t.err, t.oLen)) = some (0, 12) ∧
      see .fenc (dev 0 0 0) (fun t => (t.err, t.oLen)) = some (0, 20) ∧ (9 : Half).toNat = 9 ∧
      (10 : Half).toNat = (12 : Half).toNat - 2 ∧ (18 : Half).toNat = (20 : Half).toNat - 2 := by
  decide +kernel

theorem witness_FextExtractsTheFields :
    21 ≤ ({ box with iLen := 21 } : State).iLen.toNat ∧
      ({ box with iLen := 259 } : State).iLen.toNat ≤ 259 := by decide

theorem witness_ShortFrameIsRaised :
    ({ dev 0 0 0 with iLen := 20 } : State).iLen.toNat < 21 ∧ box.iLen.toNat < 21 ∧
      ({ dev 0 0 0 with iLen := 20 } : State).configured [.chan, .opMaj, .opMin] := by decide

theorem witness_LengthBeyondTheBufferIsRaised :
    259 < ({ dev 0 0 0 with iLen := 260 } : State).iLen.toNat ∧
      ({ dev 0 0 0 with iLen := 260 } : State).configured [.chan, .opMaj, .opMin] ∧
      (rng { box with iLen := 260 } 0 0).configured [.cksStart, .cksEnd] ∧
      255 < ({ env 0 0 with pLen := 256 } : State).pLen.toNat ∧
      ({ env 0 0 with pLen := 256 } : State).configured [.eChan, .eLink] ∧
      ({ sel 0 with pLen := 256 } : State).configured [.dSel] := by decide

theorem witness_FvalReportsAShortFrame :
    ({ dev 0 0 0 with iLen := 20 } : State).configured [.chan, .opMaj, .opMin] ∧
      ({ dev 0 0 0 with iLen := 20 } : State).iLen.toNat < 21 ∧ (dev 0 0 0).iLen.toNat < 21 := by decide

theorem witness_FvalReportsEachCheck :
    ({ dev 0 0 0 with iLen := 21 } : State).configured [.chan, .opMaj, .opMin] ∧
      21 ≤ ({ dev 0 0 0 with iLen := 21 } : State).iLen.toNat ∧
      ({ dev 0 0 0 with iLen := 259 } : State).iLen.toNat ≤ 259 := by decide

/-- V-PS-1 (the last payload byte is the last before the trailer) and V-PS-5. -/
theorem witness_PsliceCopiesThePayload :
    21 ≤ got3.iLen.toNat ∧ got3.iLen.toNat ≤ 259 ∧
      19 + got3.memRead .ibuf 17 2 ≤ got3.iLen.toNat - 2 ∧
      (rx box (src3Head ++ [0, 0, 0x15, 0x03])).iLen.toNat = 21 ∧
      19 + (rx box (src3Head ++ [0, 0, 0x15, 0x03])).memRead .ibuf 17 2
        ≤ (rx box (src3Head ++ [0, 0, 0x15, 0x03])).iLen.toNat - 2 := by decide +kernel

/-- V-PS-3. -/
theorem witness_TruncatedPayloadIsRaised :
    let s := rx box (src3Head ++ [3, 0, 0x17, 0x01, 0xC8, 0x03])
    21 ≤ s.iLen.toNat ∧ s.iLen.toNat ≤ 259 ∧ s.iLen.toNat - 2 < 19 + s.memRead .ibuf 17 2 := by
  decide +kernel

/-- The first descriptor's request list is 63 U32, one U16 and one U8 field (255 bytes, V-ENC-18), the
second's 64 U32 fields (V-ENC-17), all of the present parameter 3. -/
def wide : State :=
  { (sel 0).setParam 3 1 with params :=
    ⟨[⟨0, 0, List.replicate 63 ⟨3, 2⟩ ++ [⟨3, 1⟩, ⟨3, 0⟩], none⟩,
      ⟨0, 0, List.replicate 64 ⟨3, 2⟩, none⟩], 0⟩ }

theorem witness_FldencPacksTheFields :
    params1.configured [.dSel] ∧ params1.params.schema[params1.dSel.toNat]? = schema[1]? ∧
      (∀ f ∈ [(⟨3, 1⟩ : Field), ⟨4, 2⟩, ⟨5, 0⟩], params1.fieldReady f) ∧
      totalWidth [(⟨3, 1⟩ : Field), ⟨4, 2⟩, ⟨5, 0⟩] ≤ 255 ∧
      (∀ f ∈ List.replicate 63 (⟨3, 2⟩ : Field) ++ [⟨3, 1⟩, ⟨3, 0⟩], wide.fieldReady f) ∧
      totalWidth (List.replicate 63 ⟨3, 2⟩ ++ [⟨3, 1⟩, ⟨3, 0⟩]) = 255 := by decide +kernel

/-- V-ENC-6, V-ENC-5, V-ENC-4 and V-ENC-12. -/
theorem witness_FldencReportsTheFirstBadField :
    (sel 1).configured [.dSel] ∧ (sel 1).params.schema[(sel 1).dSel.toNat]? = schema[1]? ∧
      ((sel 1).paramAt 3).present = false ∧
      ((params1.setParam 3 0x10000).paramAt 3).present = true ∧ packable 1 ∧
      256 ^ wireWidth 1 ≤ ((params1.setParam 3 0x10000).paramAt 3).value.toNat ∧
      params1.fieldReady ⟨3, 1⟩ ∧ params1.fieldReady ⟨4, 2⟩ ∧
      256 ^ wireWidth 0 ≤ ((params1.setParam 5 0x100).paramAt 5).value.toNat ∧
      (((sel 7).setParam 15 1).setParam 16 2).fieldReady ⟨15, 0⟩ ∧
      ((((sel 7).setParam 15 1).setParam 16 2).paramAt 16).present = true ∧ ¬ packable 6 := by
  decide +kernel

/-- V-ENC-16, V-ENC-15, V-DEC-ERR-2 and V-ENC-17. -/
theorem witness_FieldCommandsRaise :
    box.flag .dSelV = false ∧ (sel 9).flag .dSelV = true ∧ (sel 9).params.ndesc ≤ (sel 9).dSel.toNat ∧
      ({ sel 9 with pLen := 255 } : State).pLen.toNat ≤ 255 ∧ wide.flag .dSelV = true ∧
      ({ wide with dSel := 1 } : State).params.schema[1]?
        = some ⟨0, 0, List.replicate 64 ⟨3, 2⟩, none⟩ ∧
      (∀ f ∈ List.replicate 64 (⟨3, 2⟩ : Field), wide.fieldReady f) ∧
      255 < totalWidth (List.replicate 64 ⟨3, 2⟩) := by decide +kernel

theorem witness_FlddecOfNone :
    decoding (sel 3) none ∧ (sel 3).pLen.toNat = 0 ∧ decoding (pay (sel 3) [0]) none ∧
      (pay (sel 3) [0]).pLen.toNat ≠ 0 :=
  ⟨⟨by decide, by decide, _, rfl, rfl⟩, by decide, ⟨by decide, by decide, _, rfl, rfl⟩, by decide⟩

/-- V-DEC-D1-1 and V-DEC-D6-1. -/
theorem witness_FlddecUnpacksTheFields :
    decoding (pay (sel 1) (letters 7)) (some [⟨3, 1⟩, ⟨4, 2⟩, ⟨5, 0⟩]) ∧
      staticClean 4 [⟨3, 1⟩, ⟨4, 2⟩, ⟨5, 0⟩] ∧ (∀ f ∈ [(⟨3, 1⟩ : Field), ⟨4, 2⟩, ⟨5, 0⟩], f.tag ≠ 4) ∧
      (pay (sel 1) (letters 7)).pLen.toNat = totalWidth [⟨3, 1⟩, ⟨4, 2⟩, ⟨5, 0⟩] ∧
      decoding (sel 6) (some []) ∧ staticClean 4 [] ∧ (sel 6).pLen.toNat = totalWidth [] :=
  ⟨⟨by decide, by decide, _, rfl, rfl⟩, by decide, by decide, by decide,
    ⟨by decide, by decide, _, rfl, rfl⟩, by decide, by decide⟩

/-- DSEL = 8 and a payload of n letters A. -/
def long (n : Nat) : State :=
  { sel 8 with mem := (List.range n).map fun i => (0x3000 + i, 0x41), pLen := BitVec.ofNat 16 n }

/-- A listed address reads the value all entries hold. -/
theorem get?_uniform (m : List Host.Cell) (v : Byte) (a : Nat) (h : ∀ c ∈ m, c.2 = v)
    (ha : a ∈ m.map Prod.fst) : Memory.get? m a = some v := by
  induction m with
  | nil => simp at ha
  | cons c m ih =>
    rw [List.forall_mem_cons] at h
    obtain ⟨k, b⟩ := c
    simp only [Memory.get?]
    split
    · exact congrArg some h.1
    · rename_i hk
      refine ih h.2 ?_
      simpa [Ne.symm hk] using ha

theorem long_byte (n i : Nat) (h : i < n) : (long n).byte .pbuf i = 0x41 := by
  have : Memory.get? (long n).mem (0x3000 + i) = some 0x41 :=
    get?_uniform _ _ _ (by simp [long]) (by simp [long, h])
  simp [State.byte, State.readAddr, Buf.base, this]

/-- V-DEC-ASC-3, V-DEC-ASC-6 (e = 3, lowest byte at 2), V-DEC-ASC-7 and V-DEC-ASC-8. -/
theorem witness_FlddecOfAscii :
    (decoding (sel 8) (some [⟨0xFF, 4⟩]) ∧ 0 ≤ (sel 8).pLen.toNat ∧
      ∀ i, 0 ≤ i → i < (sel 8).pLen.toNat → (sel 8).byte .pbuf i = 0) ∧
    (let s := pay (sel 8) [0x41, 0x00, 0x80, 0x00]
     decoding s (some [⟨0xFF, 4⟩]) ∧ 3 ≤ s.pLen.toNat ∧ s.byte .pbuf 3 = 0 ∧ s.byte .pbuf (3 - 1) ≠ 0 ∧
       0x80 ≤ (s.byte .pbuf 2).toNat ∧ ∀ j, j < 2 → (s.byte .pbuf j).toNat < 0x80) ∧
    (let s := long 238
     decoding s (some [⟨0xFF, 4⟩]) ∧ 238 ≤ s.pLen.toNat ∧ s.byte .pbuf (238 - 1) ≠ 0 ∧
       ∀ i, i < 238 → (s.byte .pbuf i).toNat < 0x80) ∧
    (let s := long 239
     decoding s (some [⟨0xFF, 4⟩]) ∧ 239 ≤ s.pLen.toNat ∧ s.byte .pbuf (239 - 1) ≠ 0 ∧
       ∀ i, i < 239 → (s.byte .pbuf i).toNat < 0x80) :=
  ⟨⟨⟨by decide, by decide, _, rfl, rfl⟩, by decide, fun i _ h => absurd h (Nat.not_lt_zero i)⟩,
    ⟨⟨by decide, by decide, _, rfl, rfl⟩, by decide +kernel⟩,
    ⟨⟨by decide, by decide, _, rfl, rfl⟩, by decide, by rw [long_byte] <;> decide,
      fun i h => by rw [long_byte 238 i h]; decide⟩,
    ⟨⟨by decide, by decide, _, rfl, rfl⟩, by decide, by rw [long_byte] <;> decide,
      fun i h => by rw [long_byte 239 i h]; decide⟩⟩

/-- V-DEC-D1-2, V-DEC-D1-3, V-DEC-D1-1 and the ASCII descriptor. -/
theorem witness_StrictLengthLaw :
    decoding (pay (sel 1) (letters 5)) (some [⟨3, 1⟩, ⟨4, 2⟩, ⟨5, 0⟩]) ∧
      staticClean 4 [⟨3, 1⟩, ⟨4, 2⟩, ⟨5, 0⟩] ∧ (∀ f ∈ [(⟨3, 1⟩ : Field), ⟨4, 2⟩, ⟨5, 0⟩], f.tag ≠ 4) ∧
      totalWidth [⟨3, 1⟩] ≤ (pay (sel 1) (letters 5)).pLen.toNat ∧
      (pay (sel 1) (letters 5)).pLen.toNat < totalWidth [⟨3, 1⟩] + wireWidth 2 ∧
      decoding (pay (sel 1) (letters 8)) (some [⟨3, 1⟩, ⟨4, 2⟩, ⟨5, 0⟩]) ∧
      totalWidth [⟨3, 1⟩, ⟨4, 2⟩, ⟨5, 0⟩] < (pay (sel 1) (letters 8)).pLen.toNat ∧
      decoding (sel 8) (some [⟨0xFF, 4⟩]) :=
  ⟨⟨by decide, by decide, _, rfl, rfl⟩, by decide, by decide, by decide, by decide,
    ⟨by decide, by decide, _, rfl, rfl⟩, by decide, by decide, by decide, _, rfl, rfl⟩

/-- V-DEC-MF-1, V-DEC-D4 (both fields), V-DEC-D7, and a reserved tag. -/
theorem witness_FlddecReportsSchemaErrors :
    decoding { sel 1 with params := { schema := schema, lastField := 1 } }
        (some [⟨3, 1⟩, ⟨4, 2⟩, ⟨5, 0⟩]) ∧
      (Params.mk schema 1).maxFields < [(⟨3, 1⟩ : Field), ⟨4, 2⟩, ⟨5, 0⟩].length ∧
      decoding (sel 4) (some [⟨11, 1⟩, ⟨12, 4⟩]) ∧ decoding (sel 7) (some [⟨17, 2⟩, ⟨17, 0⟩]) ∧
      [(⟨11, 1⟩ : Field), ⟨12, 4⟩].length ≤ box.params.maxFields ∧
      (∀ g ∈ [(⟨11, 1⟩ : Field)], g.tag.toNat ≤ 5 ∧ (g.tag = 4 → 2 = 1)) ∧
      ([(⟨11, 1⟩ : Field)].map Field.name).Nodup ∧ [(⟨11, 1⟩ : Field), ⟨12, 4⟩].length ≠ 1 ∧
      (17 : BitVec 8) ∈ [(⟨17, 2⟩ : Field)].map Field.name ∧
      decoding { sel 0 with params := { schema := [⟨0, 0, [], some [⟨1, 6⟩]⟩], lastField := 0 } }
        (some [⟨1, 6⟩]) ∧ 5 < (6 : Tag).toNat :=
  ⟨⟨by decide, by decide, _, rfl, rfl⟩, by decide, ⟨by decide, by decide, _, rfl, rfl⟩,
    ⟨by decide, by decide, _, rfl, rfl⟩, by decide, by decide, by decide, by decide, by decide,
    ⟨by decide, by decide, _, rfl, rfl⟩, by decide⟩

/-- V-ENC-1 with V-DEC-D1-1: descriptor 1 is both d1 and d2. -/
theorem witness_RoundTripLaw :
    params1.configured [.dSel] ∧
      params1.params.schema[params1.dSel.toNat]?
        = some ⟨0x1234, 0x01, [⟨3, 1⟩, ⟨4, 2⟩, ⟨5, 0⟩], some [⟨3, 1⟩, ⟨4, 2⟩, ⟨5, 0⟩]⟩ ∧
      params1.params.schema[(1 : Half).toNat]? = schema[1]? ∧
      ([(⟨3, 1⟩ : Field), ⟨4, 2⟩, ⟨5, 0⟩].map Field.name).Nodup ∧
      [(⟨3, 1⟩ : Field), ⟨4, 2⟩, ⟨5, 0⟩].length ≤ params1.params.maxFields ∧
      (∀ f ∈ [(⟨3, 1⟩ : Field), ⟨4, 2⟩, ⟨5, 0⟩], params1.fieldReady f) ∧
      totalWidth [⟨3, 1⟩, ⟨4, 2⟩, ⟨5, 0⟩] ≤ 255 := by decide +kernel

theorem witness_PackOperations :
    (Instr.packU8, 1) ∈ [(Instr.packU8, 1), (.packU16, 2), (.packU32, 4), (.packUnixtime, 4)] ∧
      (walk 0xFF 0 box).walk.value.toNat < 256 ^ 1 ∧ 256 ^ 1 ≤ (walk 0x100 0 box).walk.value.toNat ∧
      (walk 0xFFFF 0 box).walk.value.toNat < 256 ^ 2 ∧
      256 ^ 2 ≤ (walk 0x10000 0 box).walk.value.toNat ∧
      (walk 0xFFFFFFFF 0 box).walk.value.toNat < 256 ^ 4 := by decide

theorem witness_UnpackOperations :
    (Instr.unpackU16, (1 : Tag)) ∈ [(Instr.unpackU8, (0 : Tag)), (.unpackU16, 1), (.unpackU32, 2),
        (.unpackBool, 3), (.unpackUnixtime, 5)] ∧
      (walk 0 0 (pay box [1, 2])).walk.off + wireWidth 1 ≤ (walk 0 0 (pay box [1, 2])).pLen.toNat ∧
      (walk 0 1 (pay box [1, 2])).pLen.toNat < (walk 0 1 (pay box [1, 2])).walk.off + wireWidth 1 := by
  decide

/-- A seven-bit string, an empty one, one with its first bad byte at 1, and 239 letters. -/
theorem witness_UnpackAsciiOperation :
    (let s := walk 0 1 (pay box [0x80, 0x41, 0x00])
     s.walk.off ≤ 2 ∧ 2 ≤ s.pLen.toNat ∧ s.byte .pbuf 2 = 0 ∧ s.byte .pbuf (2 - 1) ≠ 0 ∧
       (s.byte .pbuf 1).toNat < 0x80 ∧ 2 - s.walk.off ≤ 238) ∧
    (let s := walk 0 2 (pay box [0x41, 0x41])
     s.walk.off ≤ 2 ∧ 2 ≤ s.pLen.toNat ∧ 2 = s.walk.off) ∧
    (let s := walk 0 0 (pay box [0x41, 0x80])
     s.walk.off ≤ 2 ∧ 2 ≤ s.pLen.toNat ∧ s.byte .pbuf (2 - 1) ≠ 0 ∧ s.walk.off ≤ 1 ∧
       0x80 ≤ (s.byte .pbuf 1).toNat ∧ (s.byte .pbuf 0).toNat < 0x80) ∧
    (let s := walk 0 0 (long 239)
     s.walk.off ≤ 239 ∧ 239 ≤ s.pLen.toNat ∧ 238 < 239 - s.walk.off ∧ s.byte .pbuf (239 - 1) ≠ 0 ∧
       ∀ i, i < 239 → (s.byte .pbuf i).toNat < 0x80) :=
  ⟨by decide +kernel, by decide +kernel, by decide +kernel, by decide, by decide, by decide,
    by
      show (long 239).byte .pbuf 238 ≠ 0
      rw [long_byte] <;> decide,
    fun i h => by
      show ((long 239).byte .pbuf i).toNat < 0x80
      rw [long_byte 239 i h]
      decide⟩

theorem witness_FldencRunsItsPackOperations :
    params1.params.schema[params1.dSel.toNat]? = schema[1]? ∧
      see .fldenc params1 State.err = some 0 := by decide +kernel

theorem witness_FlddecRunsItsUnpackOperations :
    (sel 8).params.schema[(sel 8).dSel.toNat]? = some ⟨0x0001, 0x06, [], some [⟨0xFF, 4⟩]⟩ ∧
      see .flddec (pay (sel 8) [0x41]) State.err = some 0 ∧
      see .flddec (pay (sel 1) (letters 7)) State.err = some 0 := by decide +kernel

theorem witness_CommandCompletesOrRaisesOnce :
    Instr.cksumIbuf.isCommand = true ∧ Instr.flddec.isCommand = true := by decide

theorem witness_CommandsWriteOnlyTheirResults :
    Instr.fenv.isCommand = true ∧ (∃ t, exec .fenv (env 0 0) = .next t) ∧
      Buf.ibuf.holds 0x1102 = true ∧ Buf.pbuf.holds 0x3000 = true := ⟨rfl, ⟨_, rfl⟩, rfl, rfl⟩

theorem witness_CommandIgnoresErrorAndVstat :
    Instr.fval.isCommand = true ∧ (∃ t, exec .fval got3 = .next t) ∧
      (∃ u, exec .fval { got3 with vStat := 1 } = .next u) ∧
      see .fval got3 State.err = some 0 := ⟨rfl, ⟨_, rfl⟩, ⟨_, rfl⟩, by decide +kernel⟩

/-- PBUF[1] differs, beyond PLEN = 1. -/
theorem witness_OnlyValidBytesMatter :
    let s := pay (sel 2) [0x01]
    let s' := { s with mem := Memory.put s.mem 0x3001 0x55 }
    ({ s' with mem := s.mem, epoch := s.epoch } = s) ∧
      (∀ b k, k < s.lengthOf b → s'.byte b k = s.byte b k) ∧ s'.byte .pbuf 1 = 0x55 ∧
      (∃ t, exec .flddec s = .next t) ∧ ∃ t', exec .flddec s' = .next t' := by
  refine ⟨rfl, fun b k hk => ?_, by decide +kernel, ⟨_, rfl⟩, _, rfl⟩
  cases b with
  | pbuf =>
    obtain rfl : k = 0 := Nat.lt_one_iff.mp hk
    rfl
  | ibuf => exact absurd hk (Nat.not_lt_zero k)
  | obuf => exact absurd hk (Nat.not_lt_zero k)
  | strbuf => exact absurd hk (Nat.not_lt_zero k)

/-! ### Host programs (R108, R109) -/

/-- P1, step 14: `ldpayload 08 01`. -/
theorem test_ldpayload :
    (HostLine.ldpayload handshakeBody).actions =
      [.writeByte 0x3000 0x08, .writeByte 0x3001 0x01, .writeWord 0x3C 2] := by decide

/-- P6, steps 1 and 4; P1, step 8. -/
theorem test_host_lines :
    (HostLine.cp 5).actions = [.writeWord 0x402C 0] ∧ (HostLine.cmd .fenc).actions = [.writeWord 0 3] ∧
      (HostLine.cmd .cksumObuf).actions = [.writeWord 0 0x101] := by decide

/-- V-SRC-1: the fixture's bytes 10 to 23 are the setup body. -/
theorem test_setupBody : setupBody 0x47603BB3 = (src1.drop 10).take 14 := by decide

/-- V-SRC-3's result code and packet type; a code the source does not name. -/
theorem test_names :
    ResultCode.ofByte 0 = .ok ∧ ResultCode.ofByte 11 = .unknown 11 ∧ PacketType.ofByte 1 = .response := by
  decide

end Sys2Proof.Tests
end

