-- ==== Sys2Proof/Proofs/State.lean ====
section
/-!
PROOFS. The state family (`10_state.md`): the register window of the host address map as word accesses
reach it, the reserved registers, the reset state, and the two obligations about them.
-/
namespace Sys2Proof.Machine

/-! ### Word accesses of the register window (R81, R82) -/

/-- The host address of register n lies in the register window, and its number is read back from it. -/
theorem toNat_regAddress {n : Nat} (hn : n < 64) : (BitVec.ofNat 16 (4 * n)).toNat = 4 * n := by
  rw [BitVec.toNat_ofNat]
  omega

theorem State.window_eq_reg (s : State) {a : Half} (ha : a.toNat < 0x100) : s.window a = some .reg :=
  if_pos ha

theorem State.hostWriteWord_regAddress (s : State) (v : Word) {n : Nat} (hn : n < 64) :
    s.hostWriteWord (BitVec.ofNat 16 (4 * n)) v = s.writeReg n v := by
  have ha := toNat_regAddress hn
  have hw := s.window_eq_reg (a := BitVec.ofNat 16 (4 * n)) (by omega)
  simp [State.hostWriteWord, hw, ha]

theorem State.hostReadWord_regAddress (s : State) {n : Nat} (hn : n < 64) :
    s.hostReadWord (BitVec.ofNat 16 (4 * n)) = .next (s.readReg n) := by
  have ha := toNat_regAddress hn
  have hw := s.window_eq_reg (a := BitVec.ofNat 16 (4 * n)) (by omega)
  simp [State.hostReadWord, hw, ha]

/-- A step with a word write of register n pending is that register's write. -/
theorem step_eq_writeReg {s : State} {n : Nat} {v : Word} {rest : List HostAction} (hn : n < 64)
    (hp : s.port = .writeWord (BitVec.ofNat 16 (4 * n)) v :: rest) :
    step s = ({ s with port := rest } : State).writeReg n v :=
  (step_eq_serve s _ rest hp).trans (State.hostWriteWord_regAddress _ v hn)

/-- A step with a word read of register n pending is that register's read. -/
theorem step_eq_readReg {s : State} {n : Nat} {rest : List HostAction} (hn : n < 64)
    (hp : s.port = .readWord (BitVec.ofNat 16 (4 * n)) :: rest) :
    step s = .next (({ s with port := rest } : State).readReg n) :=
  (step_eq_serve s _ rest hp).trans (State.hostReadWord_regAddress _ hn)

/-! ### Registers the host cannot write, and reserved registers (R58, R59) -/

/-- The numbers of the registers marked R (R58). -/
abbrev readOnlyRegs : List Nat := [1, 2, 3, 12, 14, 16, 17, 18, 19, 20, 21, 22, 23, 24]

theorem lt_of_mem_readOnlyRegs : ∀ n ∈ readOnlyRegs, n < 64 := by decide

theorem State.writeReg_readOnly (s : State) (v : Word) {n : Nat} (hn : n ∈ readOnlyRegs) :
    s.writeReg n v = .next s := by
  fin_cases hn <;> rfl

theorem State.writeReg_reserved (s : State) (v : Word) {n : Nat} (hn : 25 ≤ n) :
    s.writeReg n v = .next s := by
  unfold State.writeReg
  split
  case h_12 => rfl
  all_goals omega

theorem regValidBit_reserved {n : Nat} (hn : 25 ≤ n) : regValidBit n = none := by
  unfold regValidBit
  split
  case h_19 => rfl
  all_goals omega

theorem State.regValid_reserved (s : State) {n : Nat} (hn : 25 ≤ n) : s.regValid n = true := by
  simp [State.regValid, regValidBit_reserved hn]

theorem State.regValue_reserved (s : State) {n : Nat} (hn : 25 ≤ n) : s.regValue n = 0 := by
  unfold State.regValue
  split
  case h_26 => rfl
  all_goals omega

theorem State.readReg_of_valid (s : State) {n : Nat} (h : s.regValid n = true) :
    s.readReg n = s.answer (s.regValue n) := if_pos h

theorem State.readReg_reserved (s : State) {n : Nat} (hn : 25 ≤ n) : s.readReg n = s.answer 0 := by
  rw [s.readReg_of_valid (s.regValid_reserved hn), s.regValue_reserved hn]

/-- Settles O16: the step is the register's access, which the two kinds of register leave without effect. -/
theorem ignoredWritesAndReservedRegisters : Obligations.IgnoredWritesAndReservedRegisters := by
  intro s n v rest
  refine ⟨fun hn hp => ?_, fun ⟨hlo, hhi⟩ hp => ?_⟩
  · rcases hn with hro | ⟨hlo, hhi⟩
    · rw [step_eq_writeReg (lt_of_mem_readOnlyRegs n hro) hp, State.writeReg_readOnly _ v hro]
    · rw [step_eq_writeReg hhi hp, State.writeReg_reserved _ v hlo]
  · rw [step_eq_readReg hhi hp, State.readReg_reserved _ hlo]
    rfl

/-! ### The reset state (R71, R321) -/

@[simp] theorem State.reset_flag (b : StatusBit) : State.reset.flag b = false :=
  BitVec.getLsbD_zero

@[simp] theorem State.reset_paramAt (n : BitVec 8) : State.reset.paramAt n = ⟨false, 0⟩ :=
  Vector.getElem_replicate _

@[simp] theorem State.resetFrom_params (s : State) : s.resetFrom.params = s.params := rfl

/-- Settles O1, row by row of R71's table. -/
theorem resetStateIsTheTable : Obligations.ResetStateIsTheTable := by
  refine ⟨rfl, rfl, rfl, rfl, rfl, rfl, rfl, State.reset_flag, fun n => ?_, fun n hlo _ => ?_,
    State.resetFrom_params⟩
  · rw [State.reset_paramAt]
  · exact ⟨State.regValid_reserved _ hlo, State.regValue_reserved _ hlo⟩

end Sys2Proof.Machine
end

