-- ==== Sys2Proof/Proofs/Memory.lean ====
section
/-!
PROOFS. The memory family: host accesses to the byte buffers (R83), the PARAM window (R84) and the FIELD
window (R85). First the window each listed address lies in (R81), then what the access of that address
does, then the three obligations.
-/
namespace Sys2Proof.Machine

/-! ### Byte accesses of the buffer windows (R81, R83) -/

/-- The host address of byte i of a buffer. -/
abbrev Buf.address (b : Buf) (i : Nat) : Half := BitVec.ofNat 16 (b.base + i)

/-- No buffer's window reaches beyond the 16-bit host addresses. -/
theorem Buf.base_add_size_lt (b : Buf) : b.base + b.size < 2 ^ 16 := by
  cases b <;> decide

theorem Buf.toNat_address (b : Buf) {i : Nat} (hi : i < b.size) : (b.address i).toNat = b.base + i := by
  have hb := b.base_add_size_lt
  rw [BitVec.toNat_ofNat, Nat.mod_eq_of_lt (by omega)]

/-- Each buffer's address is found in that buffer: the windows looked at before it end below its own. -/
theorem bufferAt_base_eq (b : Buf) {i : Nat} (hi : i < b.size) : bufferAt (b.base + i) = some b := by
  have hself : b.holds (b.base + i) = true := (b.holds_iff _).mpr ⟨by omega, by omega⟩
  have hlower (c : Buf) (hc : c.base + c.size ≤ b.base) : ¬ c.holds (b.base + i) = true := by
    rw [c.holds_iff]
    omega
  cases b with
  | ibuf => rw [bufferAt, if_pos hself]
  | obuf => rw [bufferAt, if_neg (hlower .ibuf (by decide)), if_pos hself]
  | pbuf =>
    rw [bufferAt, if_neg (hlower .ibuf (by decide)), if_neg (hlower .obuf (by decide)), if_pos hself]
  | strbuf =>
    rw [bufferAt, if_neg (hlower .ibuf (by decide)), if_neg (hlower .obuf (by decide)),
      if_neg (hlower .pbuf (by decide)), if_pos hself]

/-- A buffer's window lies above the register window, and below or above the PARAM window. -/
theorem Buf.outside_word_windows (b : Buf) :
    0x100 ≤ b.base ∧ (b.base + b.size ≤ 0x4000 ∨ 0x4800 ≤ b.base) := by
  cases b <;> decide

theorem State.window_bufAddress (s : State) (b : Buf) {i : Nat} (hi : i < b.size) :
    s.window (b.address i) = some (.buffer b) := by
  obtain ⟨hreg, hparam⟩ := b.outside_word_windows
  rw [State.window, b.toNat_address hi, windowOf, if_neg (by omega), if_neg (by omega),
    bufferAt_base_eq b hi]

theorem State.hostWriteByte_bufAddress (s : State) (b : Buf) (v : Byte) {i : Nat} (hi : i < b.size) :
    s.hostWriteByte (b.address i) v = .next (if b.hostWritable then s.store b i [v] else s) := by
  simp only [State.hostWriteByte, s.window_bufAddress b hi, b.toNat_address hi, Nat.add_sub_cancel_left]

theorem State.hostReadByte_bufAddress (s : State) (b : Buf) {i : Nat} (hi : i < b.size) :
    s.hostReadByte (b.address i) = .next (s.answer ((s.byte b i).setWidth 32)) := by
  simp only [State.hostReadByte, s.window_bufAddress b hi, b.toNat_address hi, State.byte]

/-- A step with a byte write of a buffer pending stores the byte when the host may write the buffer, and
ignores the write otherwise. -/
theorem step_eq_storeByte {s : State} {b : Buf} {i : Nat} {v : Byte} {rest : List HostAction}
    (hi : i < b.size) (hp : s.port = .writeByte (b.address i) v :: rest) :
    step s = .next (if b.hostWritable then ({ s with port := rest } : State).store b i [v]
      else { s with port := rest }) :=
  (step_eq_serve s _ rest hp).trans (State.hostWriteByte_bufAddress _ b v hi)

/-- A step with a byte read of a buffer pending answers the byte's content. -/
theorem step_eq_readByte {s : State} {b : Buf} {i : Nat} {rest : List HostAction}
    (hi : i < b.size) (hp : s.port = .readByte (b.address i) :: rest) :
    step s = .next { s with port := rest, readData := (s.byte b i).setWidth 32 } :=
  (step_eq_serve s _ rest hp).trans (State.hostReadByte_bufAddress _ b hi)

theorem Buf.hostWritable_iff (b : Buf) : b.hostWritable = true ↔ b = .ibuf ∨ b = .pbuf := by
  cases b <;> decide

theorem Buf.hostWritable_eq_false_iff (b : Buf) :
    b.hostWritable = false ↔ b = .obuf ∨ b = .strbuf := by
  cases b <;> decide

/-- A one-byte store leaves every other address as it was. -/
theorem State.readAddr_store_singleton (s : State) (b : Buf) (i : Nat) (v : Byte) {a : Nat}
    (ha : a ≠ b.base + i) : (s.store b i [v]).readAddr a = s.readAddr a :=
  s.readAddr_store_outside b i [v] a (by rw [List.length_singleton]; omega)

/-- Settles O19: the address lies in its buffer's window, so the step stores the byte, ignores the write
or answers the byte. -/
theorem bufferByteAccess : Obligations.BufferByteAccess := by
  intro s b i v rest hi
  refine ⟨fun hb hp => ?stored, fun hb hp => ?ignored, fun hp => step_eq_readByte hi hp⟩
  case stored =>
    have hstep := step_eq_storeByte hi hp
    rw [if_pos (b.hostWritable_iff.mpr hb)] at hstep
    refine ⟨_, hstep, State.byte_store_same _ b i [v] 0 Nat.one_pos, fun a ha => ?_, rfl⟩
    exact State.readAddr_store_singleton _ b i v ha
  case ignored =>
    rw [step_eq_storeByte hi hp, b.hostWritable_eq_false_iff.mpr hb]
    rfl

/-! ### Word accesses of the PARAM window (R81, R84) -/

/-- The host address of PARAM[n].VALUE. -/
abbrev paramValueAddress (n : BitVec 8) : Half := 0x4000 + 8 * n.setWidth 16

/-- The host address of PARAM[n]'s CTRL word. -/
abbrev paramCtrlAddress (n : BitVec 8) : Half := 0x4004 + 8 * n.setWidth 16

theorem toNat_paramValueAddress (n : BitVec 8) : (paramValueAddress n).toNat = 0x4000 + 8 * n.toNat := by
  bv_omega

theorem toNat_paramCtrlAddress (n : BitVec 8) : (paramCtrlAddress n).toNat = 0x4004 + 8 * n.toNat := by
  bv_omega

theorem paramIndex_value (n : BitVec 8) : paramIndex (0x4000 + 8 * n.toNat) = n := by
  rw [paramIndex, Nat.add_sub_cancel_left, Nat.mul_div_cancel_left _ (by decide), BitVec.ofNat_toNat,
    BitVec.setWidth_eq]

theorem paramIndex_ctrl (n : BitVec 8) : paramIndex (0x4004 + 8 * n.toNat) = n := by
  have hdiv : (0x4004 + 8 * n.toNat - 0x4000) / 8 = n.toNat := by omega
  rw [paramIndex, hdiv, BitVec.ofNat_toNat, BitVec.setWidth_eq]

theorem State.window_eq_param (s : State) {a : Half} (hlo : 0x4000 ≤ a.toNat) (hhi : a.toNat < 0x4800) :
    s.window a = some .param := by
  rw [State.window, windowOf, if_neg (by omega), if_pos ⟨hlo, hhi⟩]

theorem State.hostWriteWord_param (s : State) (v : Word) {a : Half} (hlo : 0x4000 ≤ a.toNat)
    (hhi : a.toNat < 0x4800) (hal : a.toNat % 4 = 0) :
    s.hostWriteWord a v = .next (s.writeParam a.toNat v) := by
  simp [State.hostWriteWord, s.window_eq_param hlo hhi, hal]

theorem State.hostReadWord_param (s : State) {a : Half} (hlo : 0x4000 ≤ a.toNat)
    (hhi : a.toNat < 0x4800) (hal : a.toNat % 4 = 0) :
    s.hostReadWord a = .next (s.readParam a.toNat) := by
  simp [State.hostReadWord, s.window_eq_param hlo hhi, hal]

/-- A step with a word write of the PARAM window pending is the PARAM word's write. -/
theorem step_eq_writeParam {s : State} {a : Half} {m : Nat} {v : Word} {rest : List HostAction}
    (hp : s.port = .writeWord a v :: rest) (hm : a.toNat = m) (hlo : 0x4000 ≤ m) (hhi : m < 0x4800)
    (hal : m % 4 = 0) : step s = .next (({ s with port := rest } : State).writeParam m v) := by
  subst hm
  exact (step_eq_serve s _ rest hp).trans (State.hostWriteWord_param _ v hlo hhi hal)

/-- A step with a word read of the PARAM window pending is the PARAM word's read. -/
theorem step_eq_readParam {s : State} {a : Half} {m : Nat} {rest : List HostAction}
    (hp : s.port = .readWord a :: rest) (hm : a.toNat = m) (hlo : 0x4000 ≤ m) (hhi : m < 0x4800)
    (hal : m % 4 = 0) : step s = .next (({ s with port := rest } : State).readParam m) := by
  subst hm
  exact (step_eq_serve s _ rest hp).trans (State.hostReadWord_param _ hlo hhi hal)

/-! #### Writing and reading an entry (R64, R84) -/

theorem State.writeParam_value (s : State) (n : BitVec 8) (v : Word) :
    s.writeParam (0x4000 + 8 * n.toNat) v = s.setParam n v := by
  rw [State.writeParam, if_pos (by omega), paramIndex_value]

theorem State.writeParam_ctrl (s : State) (n : BitVec 8) (v : Word) :
    s.writeParam (0x4004 + 8 * n.toNat) v = s.controlParam n v := by
  rw [State.writeParam, if_neg (by omega), paramIndex_ctrl]

theorem State.readParam_value_of_present (s : State) {n : BitVec 8} (h : (s.paramAt n).present = true) :
    s.readParam (0x4000 + 8 * n.toNat) = s.answer (s.paramAt n).value := by
  simp [State.readParam, paramIndex_value, h]

theorem State.readParam_ctrl (s : State) (n : BitVec 8) :
    s.readParam (0x4004 + 8 * n.toNat) = s.answer (if (s.paramAt n).present then 1 else 0) := by
  simp [State.readParam, paramIndex_ctrl]

theorem State.paramAt_set_self (s : State) (n : BitVec 8) (e : ParamEntry) :
    ({ s with param := s.param.set n.toNat e n.isLt } : State).paramAt n = e :=
  Vector.getElem_set_self _

theorem State.paramAt_set_ne (s : State) {m n : BitVec 8} (e : ParamEntry) (h : m ≠ n) :
    ({ s with param := s.param.set n.toNat e n.isLt } : State).paramAt m = s.paramAt m :=
  Vector.getElem_set_ne n.isLt m.isLt fun he => h (BitVec.eq_of_toNat_eq he.symm)

theorem State.controlParam_of_set (s : State) (n : BitVec 8) {v : Word} (h : v.getLsbD 0 = true) :
    s.controlParam n v = s := if_pos h

theorem State.controlParam_of_clear (s : State) (n : BitVec 8) {v : Word} (h : v.getLsbD 0 = false) :
    s.controlParam n v
      = { s with param := s.param.set n.toNat ⟨false, (s.paramAt n).value⟩ n.isLt } :=
  if_neg (by rw [h]; exact Bool.false_ne_true)

/-- A step with a write of PARAM[n].VALUE pending stores the word as present. -/
theorem step_eq_setParam {s : State} {n : BitVec 8} {v : Word} {rest : List HostAction}
    (hp : s.port = .writeWord (paramValueAddress n) v :: rest) :
    step s = .next (({ s with port := rest } : State).setParam n v) := by
  rw [step_eq_writeParam hp (toNat_paramValueAddress n) (by omega) (by omega) (by omega),
    State.writeParam_value]

/-- A step with a write of PARAM[n]'s CTRL word pending controls PRESENT. -/
theorem step_eq_controlParam {s : State} {n : BitVec 8} {v : Word} {rest : List HostAction}
    (hp : s.port = .writeWord (paramCtrlAddress n) v :: rest) :
    step s = .next (({ s with port := rest } : State).controlParam n v) := by
  rw [step_eq_writeParam hp (toNat_paramCtrlAddress n) (by omega) (by omega) (by omega),
    State.writeParam_ctrl]

/-- A step with a read of PARAM[n]'s CTRL word pending answers PRESENT. -/
theorem step_eq_answerPresent {s : State} {n : BitVec 8} {rest : List HostAction}
    (hp : s.port = .readWord (paramCtrlAddress n) :: rest) :
    step s = .next { s with port := rest, readData := if (s.paramAt n).present then 1 else 0 } := by
  rw [step_eq_readParam hp (toNat_paramCtrlAddress n) (by omega) (by omega) (by omega),
    State.readParam_ctrl]
  rfl

/-- Settles O20: each of the five accesses is the entry's operation at that word. -/
theorem paramWindowAccess : Obligations.ParamWindowAccess := by
  intro s n v rest
  refine ⟨fun hp => ?value, fun hp hv => ?clear, fun hp hv => ?keep,
    fun hp => ⟨_, step_eq_answerPresent hp, rfl⟩, fun hp => ?readValue⟩
  case value =>
    exact ⟨_, step_eq_setParam hp, State.paramAt_set_self _ n _,
      fun _ hm => State.paramAt_set_ne _ _ hm, rfl⟩
  case clear =>
    have hstep := step_eq_controlParam hp
    rw [State.controlParam_of_clear _ n hv] at hstep
    exact ⟨_, hstep, congrArg ParamEntry.present (State.paramAt_set_self _ n _),
      fun _ hm => State.paramAt_set_ne _ _ hm, rfl⟩
  case keep => rw [step_eq_controlParam hp, State.controlParam_of_set _ n hv]
  case readValue =>
    refine ⟨_, step_eq_readParam hp (toNat_paramValueAddress n) (by omega) (by omega) (by omega),
      fun hpres => ?_⟩
    exact congrArg State.readData (State.readParam_value_of_present { s with port := rest } hpres)

/-! ### Word reads of the FIELD window (R81, R85) -/

/-- The host address of FIELD[k]'s VALUE word. -/
abbrev fieldValueAddress (k : Nat) : Half := BitVec.ofNat 16 (0x5000 + 8 * k)

/-- The host address of FIELD[k]'s DESC word. -/
abbrev fieldDescAddress (k : Nat) : Half := BitVec.ofNat 16 (0x5004 + 8 * k)

theorem maxFields_le (p : Params) : p.maxFields ≤ 512 := p.lastField.isLt

theorem toNat_fieldValueAddress {p : Params} {k : Nat} (hk : k < p.maxFields) :
    (fieldValueAddress k).toNat = 0x5000 + 8 * k := by
  have := maxFields_le p
  rw [BitVec.toNat_ofNat, Nat.mod_eq_of_lt (by omega)]

theorem toNat_fieldDescAddress {p : Params} {k : Nat} (hk : k < p.maxFields) :
    (fieldDescAddress k).toNat = 0x5004 + 8 * k := by
  have := maxFields_le p
  rw [BitVec.toNat_ofNat, Nat.mod_eq_of_lt (by omega)]

/-- A buffer's window lies below or above every FIELD window. -/
theorem Buf.outside_field_window (b : Buf) : b.base + b.size ≤ 0x5000 ∨ 0x6000 ≤ b.base := by
  cases b <;> decide

theorem bufferAt_eq_none {a : Nat} (hlo : 0x5000 ≤ a) (hhi : a < 0x6000) : bufferAt a = none := by
  refine Option.eq_none_iff_forall_ne_some.mpr fun b hb => ?_
  obtain ⟨hbase, hend⟩ := bufferAt_eq_some a b hb
  have := b.outside_field_window
  omega

theorem State.window_eq_field (s : State) {a : Half} (hlo : 0x5000 ≤ a.toNat)
    (hhi : a.toNat < 0x5000 + 8 * s.params.maxFields) : s.window a = some .field := by
  have := maxFields_le s.params
  rw [State.window, windowOf, if_neg (by omega), if_neg (by omega), bufferAt_eq_none hlo (by omega)]
  exact if_pos ⟨hlo, hhi⟩

theorem State.hostReadWord_field (s : State) {a : Half} (hlo : 0x5000 ≤ a.toNat)
    (hhi : a.toNat < 0x5000 + 8 * s.params.maxFields) (hal : a.toNat % 4 = 0) :
    s.hostReadWord a = .next (s.readField a.toNat) := by
  simp [State.hostReadWord, s.window_eq_field hlo hhi, hal]

/-- A step with a word read of the FIELD window pending is the FIELD word's read. -/
theorem step_eq_readField {s : State} {a : Half} {m : Nat} {rest : List HostAction}
    (hp : s.port = .readWord a :: rest) (hm : a.toNat = m) (hlo : 0x5000 ≤ m)
    (hhi : m < 0x5000 + 8 * s.params.maxFields) (hal : m % 4 = 0) :
    step s = .next (({ s with port := rest } : State).readField m) := by
  subst hm
  exact (step_eq_serve s _ rest hp).trans (State.hostReadWord_field _ hlo hhi hal)

/-- A step with a read of FIELD[k]'s VALUE word pending is that word's read. -/
theorem step_eq_readFieldValue {s : State} {k : Nat} {rest : List HostAction}
    (hk : k < s.params.maxFields) (hp : s.port = .readWord (fieldValueAddress k) :: rest) :
    step s = .next (({ s with port := rest } : State).readField (0x5000 + 8 * k)) :=
  step_eq_readField hp (toNat_fieldValueAddress hk) (by omega) (by omega) (by omega)

/-- A step with a read of FIELD[k]'s DESC word pending is that word's read. -/
theorem step_eq_readFieldDesc {s : State} {k : Nat} {rest : List HostAction}
    (hk : k < s.params.maxFields) (hp : s.port = .readWord (fieldDescAddress k) :: rest) :
    step s = .next (({ s with port := rest } : State).readField (0x5004 + 8 * k)) :=
  step_eq_readField hp (toNat_fieldDescAddress hk) (by omega) (by omega) (by omega)

/-- A read of a decoded entry's word at offset 0 answers its VALUE. -/
theorem State.readField_value (s : State) {k : Nat} {e : FieldEntry} (hdv : s.flag .dV = true)
    (hk : k < s.nFields) (he : s.field[k]? = some e) :
    s.readField (0x5000 + 8 * k) = s.answer e.value := by
  simp [State.readField, hdv, hk, he]

/-- A read of a decoded entry's word at offset 4 answers its DESC word. -/
theorem State.readField_desc (s : State) {k : Nat} {e : FieldEntry} (hdv : s.flag .dV = true)
    (hk : k < s.nFields) (he : s.field[k]? = some e) :
    s.readField (0x5004 + 8 * k) = s.answer e.desc := by
  have hindex : (0x5004 + 8 * k - 0x5000) / 8 = k := by omega
  simp [State.readField, hindex, hdv, hk, he]

/-! #### The DESC word's bits (R65) -/

/-- NAME in the low byte, TYPE above it. -/
theorem FieldEntry.toNat_desc (e : FieldEntry) : e.desc.toNat = 256 * e.type.toNat + e.name.toNat := by
  have hname := e.name.isLt
  rw [FieldEntry.desc, BitVec.toNat_setWidth, BitVec.toNat_append, Nat.shiftLeft_eq,
    Nat.mul_comm, ← Nat.two_pow_add_eq_or_of_lt hname, Nat.mod_eq_of_lt (by omega)]

theorem FieldEntry.desc_name (e : FieldEntry) : e.desc.extractLsb' 0 8 = e.name := by
  apply BitVec.eq_of_toNat_eq
  rw [BitVec.extractLsb'_toNat, e.toNat_desc, Nat.shiftRight_eq_div_pow]
  omega

theorem FieldEntry.desc_type (e : FieldEntry) : e.desc.extractLsb' 8 3 = e.type := by
  apply BitVec.eq_of_toNat_eq
  rw [BitVec.extractLsb'_toNat, e.toNat_desc, Nat.shiftRight_eq_div_pow]
  omega

theorem FieldEntry.desc_rest (e : FieldEntry) : e.desc >>> 11 = 0 := by
  apply BitVec.eq_of_toNat_eq
  rw [BitVec.toNat_ushiftRight, e.toNat_desc, Nat.shiftRight_eq_div_pow]
  exact Nat.div_eq_of_lt (by omega)

/-- Settles O21: both words of a decoded entry are answered, and every word of the window is served. -/
theorem fieldWindowRead : Obligations.FieldWindowRead := by
  intro s k rest hk
  refine ⟨fun e hdv hnf he => ⟨fun hp => ?value, fun hp => ?desc⟩, fun _ hp => ?served⟩
  case value =>
    have hread := State.readField_value { s with port := rest } hdv hnf he
    exact (step_eq_readFieldValue hk hp).trans (congrArg Host.Outcome.next hread)
  case desc =>
    have hread := State.readField_desc { s with port := rest } hdv hnf he
    exact ⟨_, (step_eq_readFieldDesc hk hp).trans (congrArg Host.Outcome.next hread),
      e.desc_name, e.desc_type, e.desc_rest⟩
  case served =>
    rcases hp with hp | hp
    · exact ⟨_, step_eq_readFieldValue hk hp⟩
    · exact ⟨_, step_eq_readFieldDesc hk hp⟩

end Sys2Proof.Machine
end

