-- ==== Sys2Proof/Proofs/Encoding.lean ====
section
/-!
PROOFS. The encoding family (`30_encoding.md`): which command words are legal (R101 to R105), what a word
outside the list does, and the frame FENC builds (R110, R112). The part about built frames is stated for
any body, so that it serves FENV's frame too.
-/
namespace Sys2Proof

/-! ### The legal command words (R101 to R104) -/

/-- No bit of a command word is dropped by its fields (R101). -/
theorem CmdFields.toWord_ofWord (w : Word) : (CmdFields.ofWord w).toWord = w := by
  have hlow : w.extractLsb' 8 2 ++ w.extractLsb' 0 8 = w.extractLsb' 0 10 :=
    BitVec.extractLsb'_append_extractLsb'_eq_extractLsb' rfl
  have hall : w.extractLsb' 10 22 ++ w.extractLsb' 0 10 = w.extractLsb' 0 32 :=
    BitVec.extractLsb'_append_extractLsb'_eq_extractLsb' rfl
  rw [CmdFields.toWord, CmdFields.ofWord, BitVec.append_assoc, hlow]
  exact hall.trans BitVec.extractLsb'_eq_self

/-- The operation codes of the commands other than CKSUM (R102). -/
abbrev plainOps : List (BitVec 8) := [2, 3, 4, 5, 6, 7, 8]

theorem mem_plainOps_iff (op : BitVec 8) : op ∈ plainOps ↔ 2 ≤ op.toNat ∧ op.toNat ≤ 8 := by
  simp only [plainOps, List.mem_cons, List.not_mem_nil, or_false]
  bv_omega

/-- The four values of BSEL. -/
theorem bufferSelect_cases : ∀ b : BitVec 2, b = 0 ∨ b = 1 ∨ b = 2 ∨ b = 3 := by decide

/-- CKSUM's fields are well formed with any buffer it knows (R103). -/
theorem CmdFields.wellFormed_cksum_iff (bsel : BitVec 2) (rsv : BitVec 22) :
    CmdFields.wellFormed ⟨1, bsel, rsv⟩ = true ↔ rsv = 0 ∧ bsel ≠ 3 := by
  simp [CmdFields.wellFormed, CmdFields.rsvOk, CmdFields.opOk, CmdFields.bselOk]

/-- Every other operation code is one of the plain commands', which take no buffer (R102, R103). -/
theorem CmdFields.wellFormed_iff_of_ne {op : BitVec 8} (hop : op ≠ 1) (bsel : BitVec 2)
    (rsv : BitVec 22) :
    CmdFields.wellFormed ⟨op, bsel, rsv⟩ = true ↔ rsv = 0 ∧ op ∈ plainOps ∧ bsel = 0 := by
  have hrange : op ∈ plainOps ↔ 1 ≤ op.toNat ∧ op.toNat ≤ 8 := by
    rw [mem_plainOps_iff]
    bv_omega
  rw [hrange]
  simp_all [CmdFields.wellFormed, CmdFields.rsvOk, CmdFields.opOk, CmdFields.bselOk, and_assoc]

theorem plainCommand_accepts_iff (bsel : BitVec 2) (i : Instr) :
    (∃ j, plainCommand bsel i = .ok j) ↔ bsel = 0 := by
  unfold plainCommand
  split
  case isTrue h => exact iff_of_true ⟨i, rfl⟩ h
  case isFalse h => exact iff_of_false (fun ⟨_, hj⟩ => nomatch hj) h

theorem decodeCksum_accepts_iff (bsel : BitVec 2) :
    (∃ i, decodeCksum bsel = .ok i) ↔ bsel ≠ 3 := by
  rcases bufferSelect_cases bsel with rfl | rfl | rfl | rfl <;> simp [decodeCksum]

theorem decodeFields_reserved (op : BitVec 8) (bsel : BitVec 2) {rsv : BitVec 22} (h : rsv ≠ 0) :
    decodeFields ⟨op, bsel, rsv⟩ = .error (.reservedBits rsv) := if_pos h

theorem decodeFields_cksum (bsel : BitVec 2) : decodeFields ⟨1, bsel, 0⟩ = decodeCksum bsel := rfl

theorem decodeFields_plain {op : BitVec 8} (hop : op ∈ plainOps) (bsel : BitVec 2) :
    ∃ i, decodeFields ⟨op, bsel, 0⟩ = plainCommand bsel i := by
  fin_cases hop <;> exact ⟨_, rfl⟩

theorem decodeFields_reservedOp {op : BitVec 8} (hone : op ≠ 1) (hplain : op ∉ plainOps)
    (bsel : BitVec 2) : decodeFields ⟨op, bsel, 0⟩ = .error (.reservedOp op) := by
  rw [mem_plainOps_iff] at hplain
  unfold decodeFields
  rw [if_neg (by simp)]
  split
  case h_9 => rfl
  all_goals bv_omega

theorem CmdFields.rsv_eq_zero_of_wellFormed {f : CmdFields} (hf : f.wellFormed = true) : f.rsv = 0 := by
  simp only [CmdFields.wellFormed, CmdFields.rsvOk, Bool.and_eq_true, beq_iff_eq] at hf
  obtain ⟨⟨hrsv, -⟩, -⟩ := hf
  exact hrsv

/-- The decoder accepts exactly the well-formed fields. -/
theorem decodeFields_accepts_iff (f : CmdFields) :
    (∃ i, decodeFields f = .ok i) ↔ f.wellFormed = true := by
  obtain ⟨op, bsel, rsv⟩ := f
  by_cases hrsv : rsv = 0
  case neg =>
    rw [decodeFields_reserved op bsel hrsv]
    exact iff_of_false nofun fun hf => hrsv (CmdFields.rsv_eq_zero_of_wellFormed hf)
  subst hrsv
  by_cases hone : op = 1
  · subst hone
    rw [decodeFields_cksum, decodeCksum_accepts_iff, CmdFields.wellFormed_cksum_iff, and_iff_right rfl]
  · rw [CmdFields.wellFormed_iff_of_ne hone, and_iff_right rfl]
    by_cases hplain : op ∈ plainOps
    · obtain ⟨i, hi⟩ := decodeFields_plain hplain bsel
      rw [hi, plainCommand_accepts_iff, and_iff_right hplain]
    · rw [decodeFields_reservedOp hone hplain]
      exact iff_of_false nofun fun hf => hplain hf.1

/-- Written back into a word, well-formed fields give a word of R104's list. -/
theorem CmdFields.toWord_mem_legalWords {f : CmdFields} (hf : f.wellFormed = true) :
    f.toWord ∈ Machine.legalWords := by
  obtain ⟨op, bsel, rsv⟩ := f
  by_cases hop : op = 1
  · subst hop
    obtain ⟨rfl, hbsel⟩ := (CmdFields.wellFormed_cksum_iff bsel rsv).mp hf
    rcases bufferSelect_cases bsel with rfl | rfl | rfl | rfl
    case inr.inr.inr => exact absurd rfl hbsel
    all_goals decide
  · obtain ⟨rfl, hplain, rfl⟩ := (CmdFields.wellFormed_iff_of_ne hop bsel rsv).mp hf
    fin_cases hplain <;> decide

theorem CmdFields.wellFormed_of_mem_legalWords {w : Word} (hw : w ∈ Machine.legalWords) :
    (CmdFields.ofWord w).wellFormed = true := by
  fin_cases hw <;> rfl

theorem wellFormed_ofWord_iff (w : Word) :
    (CmdFields.ofWord w).wellFormed = true ↔ w ∈ Machine.legalWords := by
  refine ⟨fun hf => ?_, CmdFields.wellFormed_of_mem_legalWords⟩
  have hmem := CmdFields.toWord_mem_legalWords hf
  rwa [CmdFields.toWord_ofWord] at hmem

/-- R104: the decoder accepts exactly the listed words. -/
theorem decodeCommand_accepts_iff (w : Word) :
    (∃ i, decodeCommand w = .ok i) ↔ w ∈ Machine.legalWords :=
  (decodeFields_accepts_iff _).trans (wellFormed_ofWord_iff w)

/-- Settles O23: the decoder and the list both agree with the field checks of R101 to R103. -/
theorem legalCommandWords : Obligations.LegalCommandWords :=
  fun w => ⟨decodeCommand_accepts_iff w, wellFormed_ofWord_iff w⟩

end Sys2Proof

namespace Sys2Proof.Machine

/-! ### A word outside the list (R105) -/

theorem State.issue_of_not_legal (s : State) {w : Word} (hw : w ∉ legalWords) :
    s.issue w = .next (({ s with cmd := w } : State).raise .illegalCmd w) := by
  unfold State.issue
  cases hd : decodeCommand w with
  | ok i => exact absurd ((decodeCommand_accepts_iff w).mp ⟨i, hd⟩) hw
  | error r => rfl

/-- Settles O8: the step writes CMD, and the decoder rejects the word. -/
theorem illegalWordRaisesIllegalCmd : Obligations.IllegalWordRaisesIllegalCmd := by
  intro s w rest hp hw
  exact (step_eq_writeReg (n := 0) (by decide) hp).trans (State.issue_of_not_legal _ hw)

/-! ### A built frame in OBUF (R110, R160, R161) -/

theorem State.bytes_emitFrame (s : State) {frame : List Byte} {a n : Nat} (h : a + n ≤ frame.length) :
    (s.emitFrame frame).bytes .obuf a n = (frame.drop a).take n := by
  apply List.ext_getElem
  · rw [State.length_bytes, List.length_take, List.length_drop]
    omega
  · intro i hi _
    rw [State.getElem_bytes, List.getElem_take, List.getElem_drop]
    rw [State.length_bytes] at hi
    exact State.byte_store_zero s .obuf frame (a + i) (by omega)

theorem State.byte_emitFrame (s : State) {frame : List Byte} {i : Nat} {v : Byte}
    (h : frame[i]? = some v) : (s.emitFrame frame).byte .obuf i = v := by
  obtain ⟨hi, hv⟩ := List.getElem?_eq_some_iff.mp h
  exact (State.byte_store_zero s .obuf frame i hi).trans hv

/-- A value the frame holds in little-endian order is read back from OBUF. -/
theorem State.memRead_emitFrame (s : State) {frame : List Byte} {a n v : Nat}
    (ha : a + n ≤ frame.length) (hframe : (frame.drop a).take n = leBytes n v) (hv : v < 256 ^ n) :
    (s.emitFrame frame).memRead .obuf a n = v := by
  rw [State.memRead, s.bytes_emitFrame ha, hframe, leNat_leBytes n v hv]

theorem State.crcRange_emitFrame (s : State) {frame : List Byte} {a b : Nat} (hb : b < frame.length)
    (hab : a ≤ b) :
    (s.emitFrame frame).crcRange .obuf a b = crc8 ((frame.drop a).take (b + 1 - a)) := by
  rw [State.crcRange, s.bytes_emitFrame (by omega)]

/-- Emitting a frame changes OBUF's first bytes, OLEN, ERR and ERRINFO alone. -/
theorem State.builtOnly_emitFrame (s : State) {frame : List Byte} {n : Nat} (hn : frame.length = n) :
    builtOnly s (s.emitFrame frame) n := by
  subst hn
  exact ⟨rfl, rfl, rfl, fun a ha => s.readAddr_store_outside .obuf 0 frame a ha⟩

section
variable (s : State) (len : Byte) (chan : Word) (link : Byte) (body : List Byte)

/-- Byte 9 is the checksum of bytes 1 to 8 (R141). -/
theorem getElem?_buildFrame_headerChecksum : (buildFrame len chan link body)[9]?
    = some (crc8 (((buildFrame len chan link body).drop 1).take 8)) := rfl

/-- The body stands from index 10 on. -/
theorem getElem?_buildFrame_body {i : Nat} (hi : i < body.length) :
    (buildFrame len chan link body)[10 + i]? = some body[i] := by
  rw [buildFrame, List.getElem?_append_left (by simp; omega), frameFront,
    List.getElem?_append_right (by simp)]
  simp [hi]

/-- Behind the body stands the checksum of all bytes before it but the first (R141). -/
theorem getElem?_buildFrame_trailingChecksum : (buildFrame len chan link body)[body.length + 10]?
    = some (crc8 (((buildFrame len chan link body).drop 1).take (body.length + 9))) := by
  have hfront := length_frameFront len chan link body
  have hdrop : ((frameFront len chan link body).drop 1).length = body.length + 9 := by
    rw [List.length_drop]
    omega
  rw [buildFrame, List.getElem?_append_right (by omega), List.drop_append_of_le_length (by omega),
    List.take_left' hdrop, hfront, Nat.add_comm 10, Nat.sub_self]
  rfl

/-- The last byte is the end marker. -/
theorem getElem?_buildFrame_endMarker :
    (buildFrame len chan link body)[body.length + 11]? = some 0x03 := by
  have hfront := length_frameFront len chan link body
  have hlast : body.length + 11 - (10 + body.length) = 1 := by omega
  rw [buildFrame, List.getElem?_append_right (by omega), hfront, hlast]
  rfl

/-- Whatever the body, OBUF holds the envelope around it (R110). -/
theorem State.envelopeIn_emitFrame (hlen : len.toNat = body.length + 8) :
    envelopeIn (s.emitFrame (buildFrame len chan link body)) (body.length + 12) chan link := by
  have hbody : body.length + 8 < 256 := hlen ▸ len.isLt
  have hn := length_buildFrame len chan link body
  refine ⟨?oLen, s.byte_emitFrame rfl, s.byte_emitFrame rfl, ?len, s.byte_emitFrame rfl,
    s.memRead_emitFrame (by omega) rfl chan.isLt, s.byte_emitFrame rfl, ?header, ?trailer,
    s.byte_emitFrame (getElem?_buildFrame_endMarker len chan link body)⟩
  case oLen =>
    rw [State.emitFrame_oLen, hn, BitVec.toNat_ofNat, Nat.mod_eq_of_lt (by omega)]
  case len =>
    have hbyte : (s.emitFrame (buildFrame len chan link body)).byte .obuf 2 = len := s.byte_emitFrame rfl
    rw [hbyte, hlen]
    rfl
  case header =>
    rw [s.crcRange_emitFrame (by omega) (by decide)]
    exact s.byte_emitFrame (getElem?_buildFrame_headerChecksum len chan link body)
  case trailer =>
    rw [s.crcRange_emitFrame (by omega) (by omega)]
    exact s.byte_emitFrame (getElem?_buildFrame_trailingChecksum len chan link body)

theorem State.byte_emitFrame_body {i : Nat} (hi : i < body.length) :
    (s.emitFrame (buildFrame len chan link body)).byte .obuf (10 + i) = body[i] :=
  s.byte_emitFrame (getElem?_buildFrame_body len chan link body hi)

end

/-! ### FENC's request frame (R112, R161) -/

/-- The body of the request frame: the command header and the payload. -/
def State.requestBody (s : State) : List Byte :=
  requestHeader s.opMaj s.opMin s.pLen.toNat ++ s.bytes .pbuf 0 s.pLen.toNat

/-- The frame FENC emits. -/
def State.requestFrame (s : State) : List Byte :=
  buildFrame (BitVec.ofNat 8 (s.pLen.toNat + 16)) s.chan 0x01 s.requestBody

@[simp] theorem State.length_requestBody (s : State) : s.requestBody.length = s.pLen.toNat + 8 := by
  simp [State.requestBody, Nat.add_comm]

@[simp] theorem State.length_requestFrame (s : State) : s.requestFrame.length = s.pLen.toNat + 20 := by
  simp [State.requestFrame]

theorem exec_fenc_of_configured {s : State} (hc : s.configured [.chan, .opMaj, .opMin])
    (hp : s.pLen.toNat ≤ 239) : exec .fenc s = .next (s.emitFrame s.requestFrame) := by
  rcases fenc_cases s with ⟨r, hr, -⟩ | ⟨-, hlong, -⟩ | ⟨-, hlong, -, -⟩ | ⟨-, -, he⟩
  case inl =>
    rw [(s.unwritten_eq_none _).mpr hc] at hr
    nomatch hr
  case inr.inr.inr => exact congrArg Host.Outcome.next he
  all_goals omega

theorem State.envelopeIn_requestFrame (s : State) (hp : s.pLen.toNat ≤ 239) :
    envelopeIn (s.emitFrame s.requestFrame) (s.pLen.toNat + 20) s.chan 0x01 := by
  have hlen : (BitVec.ofNat 8 (s.pLen.toNat + 16)).toNat = s.requestBody.length + 8 := by
    rw [BitVec.toNat_ofNat, s.length_requestBody]
    omega
  have henv := s.envelopeIn_emitFrame _ s.chan 0x01 _ hlen
  rwa [s.length_requestBody] at henv

/-- The payload stands behind the eight header bytes of the body. -/
theorem State.byte_requestFrame_payload (s : State) {i : Nat} (hi : i < s.pLen.toNat) :
    (s.emitFrame s.requestFrame).byte .obuf (18 + i) = s.byte .pbuf i := by
  have hbody := s.byte_emitFrame_body (BitVec.ofNat 8 (s.pLen.toNat + 16)) s.chan 0x01 s.requestBody
    (i := 8 + i) (by rw [s.length_requestBody]; omega)
  rw [show 18 + i = 10 + (8 + i) by omega]
  exact hbody.trans (by simp [State.requestBody])

/-- A payload length that fits one byte leaves the high byte of its field 0. -/
theorem State.byte_requestFrame_lengthHigh (s : State) (hp : s.pLen.toNat ≤ 239) :
    (s.emitFrame s.requestFrame).byte .obuf 17 = 0x00 := by
  have hbyte : (s.emitFrame s.requestFrame).byte .obuf 17 = BitVec.ofNat 8 (s.pLen.toNat / 256) :=
    s.byte_emitFrame rfl
  rw [hbyte, Nat.div_eq_of_lt (by omega)]
  rfl

/-- Settles O32: up to the payload the frame has fixed places, which are read off it byte by byte. -/
theorem fencBuildsTheRequest : Obligations.FencBuildsTheRequest := by
  intro s hc hp
  have hn := s.length_requestFrame
  exact ⟨_, exec_fenc_of_configured hc hp, s.envelopeIn_requestFrame hp,
    s.byte_emitFrame rfl, s.byte_emitFrame rfl,
    s.memRead_emitFrame (by omega) rfl s.opMaj.isLt, s.byte_emitFrame rfl, s.byte_emitFrame rfl,
    s.memRead_emitFrame (by omega) rfl s.pLen.isLt, s.byte_requestFrame_lengthHigh hp,
    fun i hi => s.byte_requestFrame_payload hi, s.builtOnly_emitFrame hn⟩

end Sys2Proof.Machine
end

