-- ==== Sys2Proof/Proofs/Checksum.lean ====
section
/-!
PROOFS. The checksum family (`40_checksum.md`): the checksum by table look-ups (R143), the residue law
(R144) and the body law (R145).
-/
namespace Sys2Proof.Machine

/-! ### The table (R143) -/

/-- The table's entries in order are the checksums of the single bytes 0x00 to 0xFF. -/
theorem crcTable_eq_map_crc8 :
    crcTable = (List.range 256).map fun n => (crc8 [BitVec.ofNat 8 n]).toNat := by decide +kernel

/-- `T[x]` is the checksum of the single byte `x`. -/
theorem crcTable_getD (x : Byte) : BitVec.ofNat 8 (crcTable.getD x.toNat 0) = crc8 [x] := by
  have hx : x.toNat < 256 := x.isLt
  simp [crcTable_eq_map_crc8, hx]

/-- The register and the byte enter the eight shifts only through their XOR, so one byte into the register
is the checksum of the single byte `c ^^^ b`. -/
theorem crcByte_eq_crc8_singleton (c b : Byte) : crcByte c b = crc8 [c ^^^ b] := by
  simp [crc8, crcByte]

/-- Settles O26: a look-up is the same step of the register as eight shifts. -/
theorem checksumByTable : Obligations.ChecksumByTable := by
  intro bs
  have hstep : crcByte = fun c b => BitVec.ofNat 8 (crcTable.getD (c ^^^ b).toNat 0) := by
    funext c b
    rw [crcByte_eq_crc8_singleton, crcTable_getD]
  rw [crc8, hstep]

/-! ### The residue law (R144) -/

/-- A range that goes on with its own checksum has checksum 0. -/
theorem State.crcRange_succ_of_byte_eq (s : State) {buf : Buf} {a b : Nat} (hab : a ≤ b)
    (h : s.byte buf (b + 1) = s.crcRange buf a b) : s.crcRange buf a (b + 1) = 0 := by
  rw [s.crcRange_succ buf a b hab, h, crcByte_self]

/-- Settles O27: the header and the trailing range are the law at b = 8 and at b = N - 3. -/
theorem residueLaw : Obligations.ResidueLaw := by
  intro s buf
  refine ⟨fun a b => s.crcRange_succ_of_byte_eq, s.crcRange_succ_of_byte_eq (by decide), ?trailing⟩
  case trailing =>
    intro n hn h
    obtain ⟨m, rfl⟩ : ∃ m, n = m + 3 := ⟨n - 3, by omega⟩
    exact s.crcRange_succ_of_byte_eq (by omega) h

/-! ### The body law (R145) -/

/-- Where the register is 0 after byte `b`, the rest of the range gives its checksum alone. -/
theorem State.crcRange_of_crcRange_eq_zero (s : State) {buf : Buf} {a b c : Nat} (hab : a ≤ b + 1)
    (hbc : b ≤ c) (h : s.crcRange buf a b = 0) : s.crcRange buf a c = s.crcRange buf (b + 1) c := by
  have hlen : c + 1 - a = (b + 1 - a) + (c + 1 - (b + 1)) := by omega
  have hstart : a + (b + 1 - a) = b + 1 := by omega
  calc s.crcRange buf a c
      = (s.bytes buf (b + 1) (c + 1 - (b + 1))).foldl crcByte (s.crcRange buf a b) := by
        rw [State.crcRange, hlen, State.bytes_append, crc8_append, hstart, State.crcRange]
    _ = s.crcRange buf (b + 1) c := by rw [h, State.crcRange, crc8]

/-- Settles O28: by the residue law the register is 0 after byte 9. -/
theorem bodyLaw : Obligations.BodyLaw := by
  intro s buf n hn hheader
  have hzero : s.crcRange buf 1 9 = 0 := s.crcRange_succ_of_byte_eq (by decide) hheader
  exact s.crcRange_of_crcRange_eq_zero (by decide) (by omega) hzero

end Sys2Proof.Machine
end

