-- ==== Sys2Proof/Proofs/Frame.lean ====
section
/-!
PROOFS. The frame family (`41_frame.md`): FENC as a second route to a frame that FENV builds (R166). Both
commands emit a frame built around a body, so the two routes agree once the bodies do.
-/
namespace Sys2Proof.Machine

/-! ### Little-endian fields read as bytes (R10) -/

/-- The little-endian bytes of a string's value are the string. -/
theorem leBytes_leNat (bs : List Byte) : leBytes bs.length (leNat bs) = bs := by
  induction bs with
  | nil => rfl
  | cons b bs ih =>
    have hb : b.toNat < 256 := b.isLt
    have hlow : BitVec.ofNat 8 (b.toNat + 256 * leNat bs) = b := by
      apply BitVec.eq_of_toNat_eq
      rw [BitVec.toNat_ofNat]
      omega
    have hhigh : (b.toNat + 256 * leNat bs) / 256 = leNat bs := by omega
    rw [leNat, List.length_cons, leBytes, hlow, hhigh, ih]

/-- A field of the buffer consists of the little-endian bytes of its value. -/
theorem State.bytes_eq_leBytes_memRead (s : State) (b : Buf) (a n : Nat) :
    s.bytes b a n = leBytes n (s.memRead b a n) := by
  have h := leBytes_leNat (s.bytes b a n)
  rw [State.length_bytes] at h
  exact h.symm

theorem State.bytes_two (s : State) (b : Buf) (a : Nat) :
    s.bytes b a 2 = [s.byte b a, s.byte b (a + 1)] := rfl

/-- Byte strings at two places agree when their bytes do. -/
theorem State.bytes_eq_bytes_of_byte_eq {s u : State} {b c : Buf} {x y n : Nat}
    (h : ∀ i, i < n → u.byte c (y + i) = s.byte b (x + i)) : u.bytes c y n = s.bytes b x n :=
  List.map_congr_left fun i hi => h i (List.mem_range.mp hi)

/-- A buffer holds the command header (R112) once its fields hold the header's values. -/
theorem State.bytes_eq_requestHeader {u : State} {b : Buf} {major : Half} {minor : Byte} {p : Nat}
    (h0 : u.byte b 0 = 0x00) (h1 : u.byte b 1 = 0xAF) (hmajor : u.memRead b 2 2 = major.toNat)
    (h4 : u.byte b 4 = minor) (h5 : u.byte b 5 = 0x00) (hlen : u.memRead b 6 2 = p) :
    u.bytes b 0 8 = requestHeader major minor p := by
  calc u.bytes b 0 8
      = u.bytes b 0 2 ++ u.bytes b 2 2 ++ u.bytes b 4 2 ++ u.bytes b 6 2 := rfl
    _ = [u.byte b 0, u.byte b 1] ++ leBytes 2 (u.memRead b 2 2) ++ [u.byte b 4, u.byte b 5]
          ++ leBytes 2 (u.memRead b 6 2) := by
        rw [u.bytes_two b 0, u.bytes_two b 4, u.bytes_eq_leBytes_memRead b 2,
          u.bytes_eq_leBytes_memRead b 6]
    _ = requestHeader major minor p := by rw [h0, h1, h4, h5, hmajor, hlen, requestHeader]

/-! ### FENV's frame and its agreement with FENC's (R160, R166) -/

/-- The frame FENV emits. -/
def State.envelopeFrame (s : State) : List Byte :=
  buildFrame (BitVec.ofNat 8 (s.pLen.toNat + 8)) s.eChan s.eLink (s.bytes .pbuf 0 s.pLen.toNat)

theorem exec_fenv_of_configured {s : State} (hc : s.configured [.eChan, .eLink])
    (hp : s.pLen.toNat ≤ 247) : exec .fenv s = .next (s.emitFrame s.envelopeFrame) := by
  rcases fenv_cases s with ⟨r, hr, -⟩ | ⟨-, hlong, -⟩ | ⟨-, hlong, -, -⟩ | ⟨-, -, he⟩
  case inl =>
    rw [(s.unwritten_eq_none _).mpr hc] at hr
    nomatch hr
  case inr.inr.inr => exact congrArg Host.Outcome.next he
  all_goals omega

/-- FENV's frame is FENC's where its arguments and its body are the ones FENC supplies. -/
theorem State.envelopeFrame_eq_requestFrame {s u : State} (hlen : u.pLen.toNat = s.pLen.toNat + 8)
    (hchan : u.eChan = s.chan) (hlink : u.eLink = 0x01)
    (hbody : u.bytes .pbuf 0 (s.pLen.toNat + 8) = s.requestBody) :
    u.envelopeFrame = s.requestFrame := by
  rw [State.envelopeFrame, State.requestFrame, hlen, hchan, hlink, hbody]

/-- A frame's bytes in OBUF are the same whatever the state it is emitted in. -/
theorem State.byte_emitFrame_congr (s u : State) {frame : List Byte} {i : Nat} (hi : i < frame.length) :
    (s.emitFrame frame).byte .obuf i = (u.emitFrame frame).byte .obuf i := by
  have hframe := List.getElem?_eq_getElem hi
  rw [s.byte_emitFrame hframe, u.byte_emitFrame hframe]

/-- Settles O34: FENV's body is FENC's, so both routes emit one frame. -/
theorem fencIsFenvOfTheCommandBody : Obligations.FencIsFenvOfTheCommandBody := by
  intro s u hs hu hp hlen hchan hlink h0 h1 hmajor h4 h5 hfield hpayload
  have hheader := State.bytes_eq_requestHeader h0 h1 hmajor h4 h5 hfield
  have hpay : u.bytes .pbuf 8 s.pLen.toNat = s.bytes .pbuf 0 s.pLen.toNat :=
    State.bytes_eq_bytes_of_byte_eq fun i hi => by rw [hpayload i hi, Nat.zero_add]
  have hbody : u.bytes .pbuf 0 (s.pLen.toNat + 8) = s.requestBody := by
    rw [Nat.add_comm, u.bytes_append, hheader, Nat.zero_add, hpay, State.requestBody]
  have hframe := State.envelopeFrame_eq_requestFrame hlen hchan hlink hbody
  have hfenv := exec_fenv_of_configured hu (by omega)
  rw [hframe] at hfenv
  refine ⟨_, _, exec_fenc_of_configured hs hp, hfenv, rfl, fun i hi => ?_⟩
  have hin : i < s.requestFrame.length := by
    rw [State.emitFrame_oLen, BitVec.toNat_ofNat] at hi
    exact hi.trans_le (Nat.mod_le _ _)
  exact s.byte_emitFrame_congr u hin

end Sys2Proof.Machine
end

