-- ==== Sys2Proof/Proofs/FieldCodec.lean ====
section
/-!
PROOFS. The field codec family (`42_field_codec.md`): the first bad field of a request (R226), the strict
length law (R236) and the round-trip law (R235). For each command, what its next state is once the outcome
of its walk is known, and where the walk stops; each obligation stands behind the lemmas it needs.
-/
namespace Sys2Proof.Machine

/-! ### FLDENC (R221) -/

/-- The next state of a completed FLDENC: PBUF starts with the fields' bytes and PLEN is their number. -/
def State.packed (s : State) (fs : List Field) : State :=
  ((s.store .pbuf 0 (fs.flatMap s.fieldBytes)).setPLen (BitVec.ofNat 16 (totalWidth fs))).complete

section
variable {s : State} {desc : Descriptor} (hc : s.configured [.dSel])
  (hd : s.params.schema[s.dSel.toNat]? = some desc)
include hc hd

theorem exec_fldenc_of_walk_error {r : Raise}
    (hw : s.encodeList 0 desc.req (Walk.start s.dSel) = .error r) :
    exec .fldenc s = .next (s.raise r.error r.info) := by
  have hu := (s.unwritten_eq_none _).mpr hc
  simp [exec, execFldenc, fldenc, hu, hd, hw]

theorem exec_fldenc_of_ready (hr : ∀ f ∈ desc.req, s.fieldReady f) (hl : totalWidth desc.req ≤ 255) :
    exec .fldenc s = .next (s.packed desc.req) := by
  have hu := (s.unwritten_eq_none _).mpr hc
  obtain ⟨w, hw, hout, -⟩ := s.encodeList_ready desc.req 0 (Walk.start s.dSel) hr
  have hbytes : w.out = desc.req.flatMap s.fieldBytes := hout
  have hlen : w.out.length = totalWidth desc.req := by rw [hbytes, s.length_fieldBytes]
  have hfit : w.out.length ≤ Buf.pbuf.size := by rwa [hlen]
  simp only [exec, execFldenc, fldenc, hu, hd, hw, if_pos hfit]
  rw [State.packed, hlen, hbytes]

/-- Behind ready fields, the first field that raises decides the command's error; it runs at its own index
in the list, in a walk of the same descriptor. -/
theorem exec_fldenc_of_first_error {pre post : List Field} {f : Field} {r : Raise}
    (hreq : desc.req = pre ++ f :: post) (hpre : ∀ g ∈ pre, s.fieldReady g)
    (hf : ∀ w : Walk, w.desc = s.dSel → s.encodeField pre.length f w = .error r) :
    exec .fldenc s = .next (s.raise r.error r.info) := by
  obtain ⟨w, he, -, hdesc⟩ := s.encodeList_append pre (f :: post) 0 (Walk.start s.dSel) hpre
  have hstop : s.encodeList (0 + pre.length) (f :: post) w = .error r := by
    rw [Nat.zero_add, State.encodeList, hf w hdesc]
  apply exec_fldenc_of_walk_error hc hd
  rw [hreq, he, hstop]

end

/-- Settles O44: the walk passes the ready fields before `f`, and `f` itself raises. -/
theorem fldencReportsTheFirstBadField : Obligations.FldencReportsTheFirstBadField := by
  intro s desc pre post f hc hd hreq hpre
  refine ⟨fun habsent => ?absent, fun hp ht hv => ?range, fun hp ht => ?type⟩
  all_goals apply exec_fldenc_of_first_error hc hd hreq hpre (r := ⟨_, _⟩)
  all_goals
    intro w hw
    obtain ⟨hmissing, hrange, hschema⟩ := s.encodeField_error pre.length f w
    rw [hw] at hmissing hrange hschema
  case absent => exact hmissing habsent
  case range => exact hrange hp ht hv
  case type => exact hschema hp ht

/-! ### FLDDEC of a response list (R227) -/

theorem exec_flddec_of_decoding {s : State} {fs : List Field} (h : decoding s (some fs)) :
    exec .flddec s = .next (s.decodeResponse fs) := by
  obtain ⟨hc, hp, desc, hd, hr⟩ := h
  have hu := (s.unwritten_eq_none _).mpr hc
  have hfit : ¬ s.pLen.toNat > Buf.pbuf.size := Nat.not_lt.mpr hp
  simp only [exec, execFlddec, flddec, hu, hd, hr, if_neg hfit]

section
variable {s : State} {fs : List Field} (hs : staticClean s.params.maxFields fs)
include hs

theorem State.decodeResponse_of_walk_error {r : Raise}
    (hw : s.decodeList 0 fs (Walk.start s.dSel) = .error r) :
    s.decodeResponse fs = s.raise r.error r.info := by
  simp [State.decodeResponse, (staticCheck_eq_none _ _).mpr hs, hw]

theorem State.decodeResponse_of_walk_ok {w : Walk} {es : List FieldEntry}
    (hw : s.decodeList 0 fs (Walk.start s.dSel) = .ok (w, es)) :
    s.decodeResponse fs =
      if w.off = s.pLen.toNat then s.commitDecode (listKind fs.length) es w.str
      else s.raise .lengthMismatch (infoPair w.off s.pLen.toNat) := by
  simp [State.decodeResponse, (staticCheck_eq_none _ _).mpr hs, hw]

end

/-! ### The response walk over fields of fixed width -/

/-- An assigned tag other than ASCII's: its width on the wire does not depend on the payload (R118). -/
abbrev fixedWidth (t : Tag) : Prop := t.toNat ≤ 5 ∧ t ≠ 4

theorem fixedWidth_of_packable {t : Tag} (h : packable t) : fixedWidth t := by
  revert t
  decide

/-- The entry that a response field read at an offset gives (R227). -/
def State.entryAt (s : State) (f : Field) (off : Nat) : FieldEntry :=
  ⟨f.name, f.tag, s.unpacked f.tag off⟩

/-- The entries are the list's fields in order, each read at the sum of the widths before it. -/
def State.entriesOf (s : State) (fs : List Field) (es : List FieldEntry) : Prop :=
  es.length = fs.length ∧
    ∀ pre f post, fs = pre ++ f :: post → es[pre.length]? = some (s.entryAt f (totalWidth pre))

theorem State.decodeList_of_totalWidth_le (s : State) {fs : List Field}
    (hfix : ∀ f ∈ fs, fixedWidth f.tag) (hlen : totalWidth fs ≤ s.pLen.toNat) :
    ∃ w es, s.decodeList 0 fs (Walk.start s.dSel) = .ok (w, es) ∧ w.off = totalWidth fs ∧
      w.str = [] ∧ s.entriesOf fs es := by
  obtain ⟨w, es, he, hoff, hstr, -, hn, hes⟩ := s.decodeList_append fs [] 0 (Walk.start s.dSel) hfix
    (by simpa [Walk.start] using hlen)
  simp only [Walk.start, Nat.zero_add] at hoff hes
  exact ⟨w, es, by simpa [State.decodeList] using he, hoff, hstr, hn, hes⟩

/-- The first field that does not fit in PLEN stops the walk with its end offset. -/
theorem State.decodeList_of_lt_width (s : State) {pre post : List Field} {f : Field}
    (hpre : ∀ g ∈ pre, fixedWidth g.tag) (hf : fixedWidth f.tag) (hle : totalWidth pre ≤ s.pLen.toNat)
    (hlt : s.pLen.toNat < totalWidth pre + wireWidth f.tag) :
    s.decodeList 0 (pre ++ f :: post) (Walk.start s.dSel) =
      .error ⟨.lengthMismatch, infoPair (totalWidth pre + wireWidth f.tag) s.pLen.toNat⟩ := by
  obtain ⟨w, es, he, hoff, -⟩ := s.decodeList_append pre (f :: post) 0 (Walk.start s.dSel) hpre
    (by simpa [Walk.start] using hle)
  have hoff' : w.off = totalWidth pre := by simpa [Walk.start] using hoff
  have hu := unpackElement_fixed s f.tag pre.length { w with name := f.name } hf.1 hf.2
  have hover : ¬ w.off + wireWidth f.tag ≤ s.pLen.toNat := by omega
  rw [if_neg hover] at hu
  rw [he, Nat.zero_add, State.decodeList, hu, hoff']

/-- A payload shorter than the list's total width ends within one of its fields. -/
theorem exists_field_of_lt_totalWidth {p : Nat} {fs : List Field} (h : p < totalWidth fs) :
    ∃ pre f post, fs = pre ++ f :: post ∧ totalWidth pre ≤ p ∧ p < totalWidth pre + wireWidth f.tag := by
  induction fs generalizing p with
  | nil => simp at h
  | cons g fs ih =>
    rw [totalWidth_cons] at h
    by_cases hg : p < wireWidth g.tag
    · exact ⟨[], g, fs, rfl, Nat.zero_le _, by simpa using hg⟩
    · obtain ⟨pre, f, post, rfl, hle, hlt⟩ := ih (p := p - wireWidth g.tag) (by omega)
      refine ⟨g :: pre, f, post, rfl, ?_, ?_⟩ <;> rw [totalWidth_cons] <;> omega

/-! ### The strict length law (R236) -/

section
variable {s : State} {fs : List Field} (hd : decoding s (some fs))
  (hs : staticClean s.params.maxFields fs) (hfix : ∀ f ∈ fs, fixedWidth f.tag)
include hd hs hfix

theorem exec_flddec_of_totalWidth_eq (hlen : s.pLen.toNat = totalWidth fs) :
    ∃ es, exec .flddec s = .next (s.commitDecode (listKind fs.length) es []) ∧ s.entriesOf fs es := by
  obtain ⟨w, es, hw, hoff, hstr, hes⟩ := s.decodeList_of_totalWidth_le hfix hlen.ge
  refine ⟨es, ?_, hes⟩
  rw [exec_flddec_of_decoding hd, State.decodeResponse_of_walk_ok hs hw, if_pos (by omega), hstr]

theorem exec_flddec_of_totalWidth_lt (hlen : totalWidth fs < s.pLen.toNat) :
    exec .flddec s = .next (s.raise .lengthMismatch (infoPair (totalWidth fs) s.pLen.toNat)) := by
  obtain ⟨w, es, hw, hoff, -⟩ := s.decodeList_of_totalWidth_le hfix hlen.le
  rw [exec_flddec_of_decoding hd, State.decodeResponse_of_walk_ok hs hw, if_neg (by omega), hoff]

theorem exec_flddec_of_lt_width {pre post : List Field} {f : Field} (hsplit : fs = pre ++ f :: post)
    (hle : totalWidth pre ≤ s.pLen.toNat) (hlt : s.pLen.toNat < totalWidth pre + wireWidth f.tag) :
    exec .flddec s = .next
      (s.raise .lengthMismatch (infoPair (totalWidth pre + wireWidth f.tag) s.pLen.toNat)) := by
  subst hsplit
  rw [List.forall_mem_append, List.forall_mem_cons] at hfix
  obtain ⟨hpre, hf, -⟩ := hfix
  rw [exec_flddec_of_decoding hd,
    State.decodeResponse_of_walk_error hs (s.decodeList_of_lt_width hpre hf hle hlt)]

theorem exec_flddec_completes_iff :
    (∃ t, exec .flddec s = .next t ∧ t.err = 0) ↔ s.pLen.toNat = totalWidth fs := by
  constructor
  · rintro ⟨t, ht, herr⟩
    have hraise : ∀ info, exec .flddec s ≠ .next (s.raise .lengthMismatch info) := by
      rintro info h
      obtain rfl : t = _ := Host.Outcome.next.inj (ht.symm.trans h)
      rw [State.raise_err] at herr
      exact ErrorCode.code_ne_zero _ herr
    rcases lt_trichotomy s.pLen.toNat (totalWidth fs) with hlt | heq | hgt
    · obtain ⟨pre, f, post, hsplit, hle, hlt⟩ := exists_field_of_lt_totalWidth hlt
      exact absurd (exec_flddec_of_lt_width hd hs hfix hsplit hle hlt) (hraise _)
    · exact heq
    · exact absurd (exec_flddec_of_totalWidth_lt hd hs hfix hgt) (hraise _)
  · intro hlen
    obtain ⟨es, he, -⟩ := exec_flddec_of_totalWidth_eq hd hs hfix hlen
    exact ⟨_, he, State.commitDecode_err ..⟩

end

/-- A sole ASCII field consumes all of the payload, or raises an error about its content. -/
theorem State.decodeList_ascii_cases (s : State) (n : BitVec 8) (k : Nat) (w : Walk) :
    (∃ r, s.decodeList k [⟨n, 4⟩] w = .error r ∧
      (r.error = .charsetError ∨ r.error = .bufferOverflow)) ∨
    (∃ w' es, s.decodeList k [⟨n, 4⟩] w = .ok (w', es) ∧ w'.off = s.pLen.toNat) := by
  have hu : unpackElement s 4 k { w with name := n } = unpackAscii s { w with name := n } := rfl
  simp only [State.decodeList, hu]
  rcases unpackAscii_cases s { w with name := n } with ⟨i, he⟩ | ⟨m, -, he⟩ | ⟨str, -, he⟩ <;>
    simp only [he]
  · exact .inl ⟨_, rfl, .inl rfl⟩
  · exact .inl ⟨_, rfl, .inr rfl⟩
  · exact .inr ⟨_, _, rfl, rfl⟩

theorem State.decodeResponse_ascii_err_ne (s : State) (n : BitVec 8) :
    (s.decodeResponse [⟨n, 4⟩]).err ≠ 12 := by
  rcases decodeResponse_cases s [⟨n, 4⟩] with ⟨k, -, he⟩ | ⟨r, -, hw, he⟩ | ⟨w, es, -, hw, hoff, -⟩ |
    ⟨w, es, -, -, -, he⟩
  case inl =>
    rw [he, State.raise_err]
    decide
  case inr.inl =>
    rw [he, State.raise_err]
    rcases s.decodeList_ascii_cases n 0 (Walk.start s.dSel) with ⟨r', hw', herr⟩ | ⟨w, es, hw', -⟩ <;>
      rw [hw'] at hw <;> cases hw
    rcases herr with herr | herr <;> rw [herr] <;> decide
  case inr.inr.inl =>
    rcases s.decodeList_ascii_cases n 0 (Walk.start s.dSel) with ⟨r', hw', -⟩ | ⟨w', es', hw', hend⟩ <;>
      rw [hw'] at hw <;> cases hw
    exact absurd hend hoff
  case inr.inr.inr =>
    rw [he, State.commitDecode_err]
    decide

/-- Settles O49: PLEN is below, at or above the total width, and each case has its own outcome. -/
theorem strictLengthLaw : Obligations.StrictLengthLaw := by
  refine fun s => ⟨fun fs hd hs hne => ?fixed, fun n hd => ?ascii⟩
  case fixed =>
    have hfix : ∀ f ∈ fs, fixedWidth f.tag := fun f hf => ⟨(hs.2.1 f hf).1, hne f hf⟩
    exact ⟨exec_flddec_completes_iff hd hs hfix,
      fun pre f post hsplit hle hlt => exec_flddec_of_lt_width hd hs hfix hsplit hle hlt,
      exec_flddec_of_totalWidth_lt hd hs hfix⟩
  case ascii =>
    exact ⟨_, exec_flddec_of_decoding hd, s.decodeResponse_ascii_err_ne n⟩

/-! ### The round-trip law (R235) -/

/-- A part of the stored bytes is read back at the place where it stands. -/
theorem State.bytes_store_part (s : State) (b : Buf) (xs ys zs : List Byte) :
    (s.store b 0 (xs ++ (ys ++ zs))).bytes b xs.length ys.length = ys := by
  have hall := s.bytes_store_same b 0 (xs ++ (ys ++ zs))
  rw [List.length_append, List.length_append, State.bytes_append, State.bytes_append, Nat.zero_add]
    at hall
  have htail := (List.append_inj hall (by simp)).2
  exact (List.append_inj htail (by simp)).1

/-- After FLDENC, each field's bytes stand in PBUF at the sum of the widths before it. -/
theorem State.memRead_packed (s : State) {l pre post : List Field} {f : Field}
    (hl : l = pre ++ f :: post) (hf : s.fieldReady f) :
    (s.packed l).memRead .pbuf (totalWidth pre) (wireWidth f.tag) = (s.paramAt f.name).value.toNat := by
  obtain ⟨-, -, hv⟩ := hf
  have hbytes := s.bytes_store_part .pbuf (pre.flatMap s.fieldBytes) (s.fieldBytes f)
    (post.flatMap s.fieldBytes)
  rw [← List.flatMap_cons, ← List.flatMap_append, ← hl, s.length_fieldBytes, State.fieldBytes,
    length_leBytes] at hbytes
  calc (s.packed l).memRead .pbuf (totalWidth pre) (wireWidth f.tag)
      = leNat (leBytes (wireWidth f.tag) (s.paramAt f.name).value.toNat) := congrArg leNat hbytes
    _ = (s.paramAt f.name).value.toNat := leNat_leBytes _ _ hv

theorem State.unpacked_of_packable (s : State) {t : Tag} (off : Nat) (h : packable t) :
    s.unpacked t off = BitVec.ofNat 32 (s.memRead .pbuf off (wireWidth t)) := by
  have h3 : t ≠ 3 := by
    revert t
    decide
  rw [State.unpacked, if_neg h3]

/-- The state between the two commands: FLDENC has completed and DSEL selects the second descriptor. -/
def State.packedFor (s : State) (l : List Field) (d2 : Half) : State := { s.packed l with dSel := d2 }

theorem State.toNat_packedFor_pLen (s : State) {l : List Field} (d2 : Half) (h : totalWidth l ≤ 255) :
    (s.packedFor l d2).pLen.toNat = totalWidth l := by
  rw [State.packedFor, State.packed, State.complete_pLen, State.setPLen_pLen, BitVec.toNat_ofNat]
  omega

theorem State.entryAt_packedFor (s : State) {l pre post : List Field} {f : Field} (d2 : Half)
    (hl : l = pre ++ f :: post) (hf : s.fieldReady f) :
    (s.packedFor l d2).entryAt f (totalWidth pre) = ⟨f.name, f.tag, (s.paramAt f.name).value⟩ := by
  have hread : (s.packedFor l d2).memRead .pbuf (totalWidth pre) (wireWidth f.tag) =
      (s.paramAt f.name).value.toNat := s.memRead_packed hl hf
  rw [State.entryAt, State.unpacked_of_packable _ _ hf.2.1, hread, BitVec.ofNat_toNat,
    BitVec.setWidth_eq]

theorem decoding_packedFor {s : State} {l : List Field} {d2 : Half} {desc2 : Descriptor}
    (hc : s.configured [.dSel]) (hd : s.params.schema[d2.toNat]? = some desc2)
    (hr : desc2.resp = some l) (hw : totalWidth l ≤ 255) : decoding (s.packedFor l d2) (some l) :=
  ⟨hc, (s.toNat_packedFor_pLen d2 hw).trans_le hw, desc2, hd, hr⟩

theorem staticClean_of_packable {m : Nat} {l : List Field} (hlen : l.length ≤ m)
    (hn : (l.map Field.name).Nodup) (hp : ∀ f ∈ l, packable f.tag) : staticClean m l := by
  refine ⟨hlen, fun f hf => ?_, hn⟩
  obtain ⟨h5, h4⟩ := fixedWidth_of_packable (hp f hf)
  exact ⟨h5, fun h => absurd h h4⟩

/-- A committed decode shows one field for each entry and no more. -/
theorem State.nFields_commitDecode (s : State) (k : ResKind) {es : List FieldEntry} (str : List Byte)
    (h : es.length < 65536) : (s.commitDecode k es str).nFields = es.length := by
  rw [State.nFields, State.commitDecode_dRes, nFields_dresWord k _ h]

theorem State.getElem?_commitDecode_field (s : State) (kind : ResKind) {es : List FieldEntry}
    (str : List Byte) {k : Nat} (h : k < es.length) :
    (s.commitDecode kind es str).field[k]? = es[k]? := by
  rw [State.commitDecode_field, List.getElem?_append_left h]

/-- Settles O51: FLDENC leaves a payload of exactly the list's width, on which the same list decodes, and
each field is read where its bytes were put. -/
theorem roundTripLaw : Obligations.RoundTripLaw := by
  intro s l d2 desc1 desc2 hc hd1 hreq hd2 hresp hn hmax hready hw
  subst hreq
  have hpack : ∀ f ∈ desc1.req, packable f.tag := fun f hf => (hready f hf).2.1
  have hclean := staticClean_of_packable hmax hn hpack
  obtain ⟨es, hdec, hes⟩ := exec_flddec_of_totalWidth_eq (decoding_packedFor hc hd2 hresp hw) hclean
    (fun f hf => fixedWidth_of_packable (hpack f hf)) (s.toNat_packedFor_pLen d2 hw)
  have hcount : es.length = desc1.req.length := hes.1
  have hfew : es.length < 65536 := by
    have := maxFields_le s.params
    omega
  refine ⟨_, _, exec_fldenc_of_ready hc hd1 hready hw, State.complete_err _, hdec,
    State.commitDecode_err .., ?count, fun k hk => ?entry⟩
  case count => rw [State.nFields_commitDecode _ _ _ hfew, hcount]
  case entry =>
    have hcut : desc1.req = desc1.req.take k ++ desc1.req[k] :: desc1.req.drop (k + 1) := by simp
    have hentry := hes.2 _ _ _ hcut
    rw [List.length_take_of_le hk.le, s.entryAt_packedFor d2 hcut (hready _ (List.getElem_mem hk))]
      at hentry
    rw [State.getElem?_commitDecode_field _ _ _ (by omega), hentry]

end Sys2Proof.Machine
end

