-- ==== Sys2Proof/Proofs/Exceptions.lean ====
section
/-!
PROOFS. The exceptions family (`60_exceptions.md`): every access and every command is served (R302), what
each command raises and in which order (R283 to R295), and that a command completes or raises one error
and changes nothing else (R298, R299).
-/
namespace Sys2Proof.Machine

/-! ### Every command and every duty-bound access is served (R302) -/

/-- No instruction's meaning stops the machine. -/
theorem exec_served (i : Instr) (s : State) : ∃ t, exec i s = .next t := by
  cases i <;> exact ⟨_, rfl⟩

/-- Any word may be written to CMD: it executes, or it raises ILLEGAL_CMD. -/
theorem State.issue_served (s : State) (w : Word) : ∃ t, s.issue w = .next t := by
  unfold State.issue
  cases decodeCommand w with
  | ok i => exact exec_served i _
  | error r => exact ⟨_, rfl⟩

theorem State.writeReg_served (s : State) (n : Nat) (v : Word) : ∃ t, s.writeReg n v = .next t := by
  unfold State.writeReg
  split
  case h_1 => exact s.issue_served v
  all_goals exact ⟨_, rfl⟩

section
variable (s : State) {a : Half} (hal : a.toNat % 4 = 0)
  (hw : s.window a = some .reg ∨ s.window a = some .param ∨ s.window a = some .field)
include hal hw

theorem State.hostWriteWord_served (v : Word) : ∃ t, s.hostWriteWord a v = .next t := by
  rcases hw with hw | hw | hw <;> simp only [State.hostWriteWord, hw, hal]
  · exact s.writeReg_served _ v
  · exact ⟨_, rfl⟩
  · exact ⟨_, rfl⟩

theorem State.hostReadWord_served : ∃ t, s.hostReadWord a = .next t := by
  rcases hw with hw | hw | hw <;> simp only [State.hostReadWord, hw, hal] <;> exact ⟨_, rfl⟩

end

theorem State.serve_of_dutiful {s : State} {act : HostAction} (h : s.dutiful act) :
    ∃ t, s.serve act = .next t := by
  cases act with
  | writeWord a v => exact s.hostWriteWord_served h.1 h.2 v
  | readWord a => exact s.hostReadWord_served h.1 h.2
  | writeByte a v =>
    obtain ⟨b, hb⟩ := h
    simp [State.serve, State.hostWriteByte, hb]
  | readByte a =>
    obtain ⟨b, hb⟩ := h
    simp [State.serve, State.hostReadByte, hb]
  | otherWidth a => exact h.elim
  | reset => exact ⟨_, rfl⟩

/-- Settles O12: a step serves the pending action, and taking it off the queue leaves the address map. -/
theorem dutifulHostIsServed : Obligations.DutifulHostIsServed := by
  intro s act rest hp hduty
  rw [step_eq_serve s act rest hp]
  exact State.serve_of_dutiful (s := { s with port := rest }) (by cases act <;> exact hduty)

/-! ### A command completes or raises once (R298, R299) -/

theorem ErrorCode.one_le_code (e : ErrorCode) : 1 ≤ e.code.toNat := by cases e <;> decide

/-- A command completed: it left ERR and ERRINFO 0 and ESTICKY as it was (R299). -/
def State.completesTo (s t : State) : Prop :=
  t.err = 0 ∧ t.errInfo = 0 ∧ t.flag .esticky = s.flag .esticky

/-- Every outcome of a command is a raise or a completion. -/
theorem CommandOutcome.raised_or_completesTo {s t : State} {i : Instr} (h : CommandOutcome s i t) :
    (∃ e info, t = s.raise e info) ∨ s.completesTo t := by
  cases h with
  | raised _ e info => exact .inl ⟨e, info, rfl⟩
  | decoded k es str _ _ _ _ => exact .inr ⟨s.commitDecode_err .., s.commitDecode_errInfo .., by simp⟩
  | built => exact .inr ⟨rfl, rfl, rfl⟩
  | payload => exact .inr ⟨rfl, rfl, rfl⟩
  | checksum | extracted | short | validated => exact .inr ⟨rfl, rfl, by simp⟩

/-- Settles O57: a command is served, and its outcome is a raise or a completion. -/
theorem commandCompletesOrRaisesOnce : Obligations.CommandCompletesOrRaisesOnce := by
  intro i s hi
  obtain ⟨t, ht⟩ := exec_served i s
  refine ⟨t, ht, ?_⟩
  rcases (exec_outcome i s t hi ht).raised_or_completesTo with ⟨e, info, rfl⟩ | hdone
  · exact .inr ⟨e.code, info, e.one_le_code, e.code_le, rfl⟩
  · exact .inl hdone

/-! ### NOT_CONFIGURED: the first argument register that is unwritten (R283) -/

/-- The argument registers a command reads, in ascending register number (R283). -/
def inputRegs : Instr → List ArgReg
  | .cksumIbuf | .cksumObuf | .cksumPbuf => [.cksStart, .cksEnd]
  | .fenv => [.eChan, .eLink]
  | .fenc | .fval => [.chan, .opMaj, .opMin]
  | .fldenc | .flddec => [.dSel]
  | _ => []

theorem State.configured_nil (s : State) : s.configured [] := List.forall_mem_nil _

theorem State.configured_singleton {s : State} {r : ArgReg} (h : s.flag r.validBit = true) :
    s.configured [r] := List.forall_mem_singleton.mpr h

theorem State.configured_cons {s : State} {r : ArgReg} {rs : List ArgReg}
    (h : s.flag r.validBit = true) (hrs : s.configured rs) : s.configured (r :: rs) :=
  List.forall_mem_cons.mpr ⟨h, hrs⟩

/-- An unwritten register behind written ones is the one reported. -/
theorem State.unwritten_append_cons {s : State} {pre : List ArgReg} {r : ArgReg} (post : List ArgReg)
    (hpre : s.configured pre) (hr : s.flag r.validBit = false) :
    s.unwritten (pre ++ r :: post) = some r := by
  have hnone := (s.unwritten_eq_none pre).mpr hpre
  unfold State.unwritten at *
  simp [List.find?_append, hnone, hr]

/-- Each command checks its argument registers before anything else. -/
theorem exec_of_unwritten {i : Instr} {s : State} {r : ArgReg}
    (h : s.unwritten (inputRegs i) = some r) : exec i s = .next (s.raise .notConfigured r.number) := by
  cases i <;> simp only [inputRegs] at h
  case cksumIbuf | cksumObuf | cksumPbuf =>
    simp only [exec, execCksumIbuf, execCksumObuf, execCksumPbuf, cksum, h]
  case fenv => simp only [exec, execFenv, fenv, h]
  case fenc => simp only [exec, execFenc, fenc, h]
  case fval => simp only [exec, execFval, fval, h]
  case fldenc => simp only [exec, execFldenc, fldenc, h]
  case flddec => simp only [exec, execFlddec, flddec, h]
  all_goals nomatch h

theorem exec_of_first_unwritten {i : Instr} {s : State} (pre : List ArgReg) (r : ArgReg)
    (post : List ArgReg) (hi : inputRegs i = pre ++ r :: post) (hpre : s.configured pre)
    (hr : s.flag r.validBit = false) : exec i s = .next (s.raise .notConfigured r.number) :=
  exec_of_unwritten (hi ▸ State.unwritten_append_cons post hpre hr)

theorem State.unwritten_ne_some {s : State} {rs : List ArgReg} (hc : s.configured rs) (r : ArgReg) :
    s.unwritten rs ≠ some r := by
  rw [(s.unwritten_eq_none rs).mpr hc]
  nofun

/-! ### What CKSUM raises (R142) -/

theorem exec_of_mem_cksumRows {i : Instr} {buf : Buf} (h : (i, buf) ∈ cksumRows) (s : State) :
    exec i s = .next (cksum buf s) ∧ inputRegs i = [.cksStart, .cksEnd] := by
  simp only [cksumRows, List.mem_cons, Prod.mk.injEq, List.not_mem_nil, or_false] at h
  rcases h with ⟨rfl, rfl⟩ | ⟨rfl, rfl⟩ | ⟨rfl, rfl⟩ <;> exact ⟨rfl, rfl⟩

section
variable {s : State} {buf : Buf} (hc : s.configured [.cksStart, .cksEnd])
include hc

theorem cksum_of_size_lt (hlen : buf.size < s.lengthOf buf) :
    cksum buf s = s.raise .badLength buf.lengthReg := by
  rcases cksum_cases buf s with ⟨r, hr, -⟩ | ⟨-, -, he⟩ | ⟨-, hle, -⟩ | ⟨-, hle, -⟩
  case inl => exact absurd hr (State.unwritten_ne_some hc r)
  case inr.inl => exact he
  all_goals omega

theorem cksum_of_bad_range (hlen : s.lengthOf buf ≤ buf.size)
    (hbad : s.cksEnd.toNat < s.cksStart.toNat ∨ s.lengthOf buf ≤ s.cksEnd.toNat) :
    cksum buf s = s.raise .badRange (infoPair s.cksStart.toNat s.cksEnd.toNat) := by
  rcases cksum_cases buf s with ⟨r, hr, -⟩ | ⟨-, hgt, -⟩ | ⟨-, -, -, he⟩ | ⟨-, -, hab, hb, -⟩
  case inl => exact absurd hr (State.unwritten_ne_some hc r)
  case inr.inr.inl => exact he
  all_goals omega

end

/-- Settles O30: the range registers first, then the length, then the range. -/
theorem cksumRaises : Obligations.CksumRaises := by
  intro i buf hrow s
  obtain ⟨hexec, hregs⟩ := exec_of_mem_cksumRows hrow s
  refine ⟨fun hstart => exec_of_first_unwritten [] .cksStart [.cksEnd] hregs s.configured_nil hstart,
    fun hstart hend => exec_of_first_unwritten [.cksStart] .cksEnd [] hregs
      (State.configured_singleton hstart) hend,
    fun hc hlen => ?length, fun hc hlen hbad => ?range⟩
  case length => rw [hexec, cksum_of_size_lt hc hlen]
  case range => rw [hexec, cksum_of_bad_range hc hlen hbad]

/-! ### What FENV and FENC raise (R284, R286) -/

/-- FENV and FENC have the same four cases, but for their argument registers and the longest payload that
fits their frame; past that limit only two of the cases are left. -/
theorem exec_of_payload_too_long {i : Instr} {s t built : State} {rs : List ArgReg} {limit : Nat}
    (ht : exec i s = .next t) (hlimit : limit ≤ 255)
    (hcases : (∃ r, s.unwritten rs = some r ∧ t = s.raise .notConfigured r.number) ∨
      (s.configured rs ∧ 255 < s.pLen.toNat ∧ t = s.raise .badLength 15) ∨
      (s.configured rs ∧ limit < s.pLen.toNat ∧ s.pLen.toNat ≤ 255 ∧
        t = s.raise .encodingError (BitVec.ofNat 32 s.pLen.toNat)) ∨
      (s.configured rs ∧ s.pLen.toNat ≤ limit ∧ t = built))
    (hc : s.configured rs) :
    (255 < s.pLen.toNat → exec i s = .next (s.raise .badLength 15)) ∧
    (limit < s.pLen.toNat → s.pLen.toNat ≤ 255 →
      exec i s = .next (s.raise .encodingError (s.pLen.setWidth 32))) := by
  rw [ht, ← BitVec.ofNat_toNat]
  rcases hcases with ⟨r, hr, -⟩ | ⟨-, hlong, he⟩ | ⟨-, hlong, hle, he⟩ | ⟨-, hle, -⟩
  case inl => exact absurd hr (State.unwritten_ne_some hc r)
  case inr.inl => exact ⟨fun _ => congrArg Host.Outcome.next he, fun _ hle => by omega⟩
  case inr.inr.inl => exact ⟨fun hgt => by omega, fun _ _ => congrArg Host.Outcome.next he⟩
  case inr.inr.inr => exact ⟨fun hgt => by omega, fun hgt _ => by omega⟩

/-- Settles O33: the argument registers in ascending number, then PLEN against PBUF, then against the
frame's length byte. -/
theorem frameCommandsRaise : Obligations.FrameCommandsRaise := by
  intro s
  refine ⟨fun hchan => exec_of_first_unwritten [] .eChan [.eLink] rfl s.configured_nil hchan,
    fun hchan hlink => exec_of_first_unwritten [.eChan] .eLink [] rfl
      (State.configured_singleton hchan) hlink,
    fun hc => ?fenv, fun i hi => ?arguments, fun hc => ?fenc⟩
  case fenv => exact exec_of_payload_too_long rfl (by decide) (fenv_cases s) hc
  case fenc => exact exec_of_payload_too_long rfl (by decide) (fenc_cases s) hc
  case arguments =>
    have hregs : inputRegs i = [.chan, .opMaj, .opMin] := by rcases hi with rfl | rfl <;> rfl
    exact ⟨fun hchan => exec_of_first_unwritten [] .chan [.opMaj, .opMin] hregs s.configured_nil hchan,
      fun hchan hmaj => exec_of_first_unwritten [.chan] .opMaj [.opMin] hregs
        (State.configured_singleton hchan) hmaj,
      fun hchan hmaj hmin => exec_of_first_unwritten [.chan, .opMaj] .opMin [] hregs
        (State.configured_cons hchan (State.configured_singleton hmaj)) hmin⟩

/-! ### Frames too short or truncated (R287, R288) -/

theorem fext_of_short {s : State} (h : s.iLen.toNat < 21) :
    fext s = s.raise .shortFrame (s.iLen.setWidth 32) := by
  rw [← BitVec.ofNat_toNat]
  rcases fext_cases s with ⟨hlong, -⟩ | ⟨-, he⟩ | ⟨hge, -⟩
  case inr.inl => exact he
  all_goals omega

theorem pslice_of_short {s : State} (h : s.iLen.toNat < 21) :
    pslice s = s.raise .shortFrame (s.iLen.setWidth 32) := by
  rw [← BitVec.ofNat_toNat]
  rcases pslice_cases s with ⟨hlong, -⟩ | ⟨-, he⟩ | ⟨hge, -⟩ | ⟨hge, -⟩
  case inr.inl => exact he
  all_goals omega

/-- FVAL raises NOT_CONFIGURED or BAD_LENGTH or completes. -/
theorem fval_err_ne_shortFrame (s : State) : (fval s).err ≠ ErrorCode.shortFrame.code := by
  rcases fval_cases s with ⟨r, -, he⟩ | ⟨-, -, he⟩ | ⟨-, -, he⟩ | ⟨-, -, -, he⟩ <;>
    simp only [he, State.raise_err, State.complete_err] <;> decide

/-- FVAL reports a short frame in VSTAT. -/
theorem fval_vStat_of_short {s : State} (hc : s.configured [.chan, .opMaj, .opMin])
    (h : s.iLen.toNat < 21) : (fval s).vStat = vstatShort := by
  rcases fval_cases s with ⟨r, hr, -⟩ | ⟨-, hlong, -⟩ | ⟨-, -, he⟩ | ⟨-, hge, -⟩
  case inl => exact absurd hr (State.unwritten_ne_some hc r)
  case inr.inr.inl =>
    rw [he]
    rfl
  all_goals omega

/-- Settles O37: FVAL puts in VSTAT what the other two raise. -/
theorem shortFrameIsRaised : Obligations.ShortFrameIsRaised := fun s =>
  ⟨fun h => ⟨congrArg Host.Outcome.next (fext_of_short h),
      congrArg Host.Outcome.next (pslice_of_short h)⟩,
    fval s, rfl, fval_err_ne_shortFrame s, fval_vStat_of_short⟩

/-- Settles O42: of PSLICE's four cases only the one that raises TRUNCATED_PAYLOAD is left. -/
theorem truncatedPayloadIsRaised : Obligations.TruncatedPayloadIsRaised := by
  intro s hge hle hover
  rcases pslice_cases s with ⟨hlong, -⟩ | ⟨hshort, -⟩ | ⟨-, -, -, he⟩ | ⟨-, -, hfit, -⟩
  case inr.inr.inl => exact congrArg Host.Outcome.next he
  all_goals omega

/-! ### The errors of FLDENC and FLDDEC that depend on DSEL (R289, R294) -/

theorem schema_eq_none_of_ndesc_le {p : Params} {d : Nat} (h : p.ndesc ≤ d) : p.schema[d]? = none :=
  List.getElem?_eq_none h

section
variable {s : State} (hsel : s.flag .dSelV = true)
include hsel

theorem fldenc_of_no_descriptor (hd : s.params.schema[s.dSel.toNat]? = none) :
    fldenc s = s.raise .unknownCommand (s.dSel.setWidth 32) := by
  have hu := (s.unwritten_eq_none _).mpr (State.configured_singleton (r := .dSel) hsel)
  simp only [fldenc, hu, hd]

theorem flddec_of_no_descriptor (hp : s.pLen.toNat ≤ 255)
    (hd : s.params.schema[s.dSel.toNat]? = none) :
    flddec s = s.raise .unknownCommand (s.dSel.setWidth 32) := by
  have hu := (s.unwritten_eq_none _).mpr (State.configured_singleton (r := .dSel) hsel)
  have hfit : ¬ s.pLen.toNat > Buf.pbuf.size := Nat.not_lt.mpr hp
  simp only [flddec, hu, hd, if_neg hfit]

/-- Ready fields that take more bytes than PBUF has are packed and then do not fit. -/
theorem fldenc_of_overflow {desc : Descriptor} (hd : s.params.schema[s.dSel.toNat]? = some desc)
    (hready : ∀ f ∈ desc.req, s.fieldReady f) (hover : 255 < totalWidth desc.req) :
    fldenc s = s.raise .bufferOverflow (BitVec.ofNat 32 (totalWidth desc.req)) := by
  have hu := (s.unwritten_eq_none _).mpr (State.configured_singleton (r := .dSel) hsel)
  obtain ⟨w, hw, hout, -⟩ := s.encodeList_ready desc.req 0 (Walk.start s.dSel) hready
  have hlen : w.out.length = totalWidth desc.req :=
    (congrArg List.length hout).trans (s.length_fieldBytes desc.req)
  have hfit : ¬ totalWidth desc.req ≤ Buf.pbuf.size := Nat.not_le.mpr hover
  simp only [fldenc, hu, hd, hw, hlen, if_neg hfit]

end

/-- Settles O45: DSEL unwritten, then naming no descriptor, then naming one whose fields do not fit. -/
theorem fieldCommandsRaise : Obligations.FieldCommandsRaise := by
  refine fun s => ⟨fun i hi => ⟨fun hsel => ?unwritten, fun hsel hp hd => ?unknown⟩,
    fun desc hsel hd hready hover => congrArg Host.Outcome.next (fldenc_of_overflow hsel hd hready hover)⟩
  case unwritten =>
    have hregs : inputRegs i = [.dSel] := by rcases hi with rfl | rfl <;> rfl
    exact exec_of_first_unwritten [] .dSel [] hregs s.configured_nil hsel
  case unknown =>
    have hnone := schema_eq_none_of_ndesc_le hd
    rcases hi with rfl | rfl
    · exact congrArg Host.Outcome.next (fldenc_of_no_descriptor hsel hnone)
    · exact congrArg Host.Outcome.next (flddec_of_no_descriptor hsel (hp rfl) hnone)

/-! ### A string without its trailing NULs (R233) -/

/-- The bytes of a buffer from a to p, read as a string, end at e: behind e there are NULs only, and the
byte before e, if there is one, is none. -/
structure State.StringEnd (s : State) (b : Buf) (a e p : Nat) : Prop where
  /-- The string may be empty. -/
  start_le : a ≤ e
  /-- It ends within the range. -/
  le_limit : e ≤ p
  /-- Only NULs are stripped. -/
  zeros : ∀ i, e ≤ i → i < p → s.byte b i = 0
  /-- Every trailing NUL is stripped. -/
  last : e = a ∨ s.byte b (e - 1) ≠ 0

theorem State.bytes_eq_replicate_zero (s : State) {b : Buf} {a n : Nat}
    (h : ∀ i, a ≤ i → i < a + n → s.byte b i = 0) : s.bytes b a n = List.replicate n 0 := by
  rw [List.eq_replicate_iff]
  refine ⟨s.length_bytes .., fun x hx => ?_⟩
  obtain ⟨k, hk, rfl⟩ := List.mem_map.mp hx
  exact h _ (by omega) (by have := List.mem_range.mp hk; omega)

theorem stripNuls_bytes {s : State} {b : Buf} {a e p : Nat} (h : s.StringEnd b a e p) :
    stripNuls (s.bytes b a (p - a)) = s.bytes b a (e - a) := by
  obtain ⟨hae, hep, hzeros, hlast⟩ := h
  have hsplit : p - a = (e - a) + (p - e) := by omega
  have hend : a + (e - a) = e := by omega
  have htail : s.bytes b e (p - e) = List.replicate (p - e) 0 :=
    s.bytes_eq_replicate_zero fun i hlo hhi => hzeros i hlo (by omega)
  rw [hsplit, s.bytes_append, hend, htail, stripNuls_append_zeros]
  by_cases hempty : e = a
  · rw [hempty, Nat.sub_self]
    rfl
  · have hne := hlast.resolve_left hempty
    obtain ⟨m, rfl⟩ : ∃ m, e = a + m + 1 := ⟨e - a - 1, by omega⟩
    have hm : a + m + 1 - a = m + 1 := by omega
    rw [hm, s.bytes_append]
    exact stripNuls_append_ne _ _ hne

/-! ### UNPACK_ASCII at the walk's offset (R233, R294, R295) -/

/-- No byte of a 7-bit range is found to be at or above 0x80. -/
theorem State.findIdx?_bytes_eq_none (s : State) {b : Buf} {a e : Nat}
    (hclean : ∀ i, a ≤ i → i < e → (s.byte b i).toNat < 0x80) :
    (s.bytes b a (e - a)).findIdx? (fun x => 0x80 ≤ x.toNat) = none := by
  rw [List.findIdx?_eq_none_iff]
  intro x hx
  obtain ⟨k, hk, rfl⟩ := List.mem_map.mp hx
  have hk := List.mem_range.mp hk
  simpa using hclean (a + k) (by omega) (by omega)

section
variable {s : State} {w : Walk} {e : Nat} (h : s.StringEnd .pbuf w.off e s.pLen.toNat)
include h

/-- The lowest byte at or above 0x80 is reported by its place in PBUF. -/
theorem unpackAscii_of_bad_byte {i : Nat} (hlo : w.off ≤ i) (hi : i < e)
    (hbad : 0x80 ≤ (s.byte .pbuf i).toNat)
    (hfirst : ∀ j, w.off ≤ j → j < i → (s.byte .pbuf j).toNat < 0x80) :
    unpackAscii s w = .error ⟨.charsetError, BitVec.ofNat 32 i⟩ := by
  have hplace : w.off + (i - w.off) = i := by omega
  have hfind : (s.bytes .pbuf w.off (e - w.off)).findIdx? (fun b => 0x80 ≤ b.toNat)
      = some (i - w.off) := by
    rw [List.findIdx?_eq_some_iff_getElem]
    refine ⟨by rw [s.length_bytes]; omega, by simpa [hplace] using hbad, fun j hj => ?_⟩
    simpa using hfirst (w.off + j) (by omega) (by omega)
  simp only [unpackAscii, stripNuls_bytes h, hfind, hplace]

section
variable (hclean : ∀ i, w.off ≤ i → i < e → (s.byte .pbuf i).toNat < 0x80)
include hclean

theorem unpackAscii_of_too_long (hlong : 238 < e - w.off) :
    unpackAscii s w = .error ⟨.bufferOverflow, BitVec.ofNat 32 (e - w.off)⟩ := by
  have hfit : ¬ e - w.off ≤ Buf.strbuf.size := Nat.not_le.mpr hlong
  simp only [unpackAscii, stripNuls_bytes h, s.findIdx?_bytes_eq_none hclean, s.length_bytes, if_neg hfit]

theorem unpackAscii_of_fits (hfit : e - w.off ≤ 238) :
    unpackAscii s w = .ok { w with
      value := BitVec.ofNat 32 (e - w.off), off := s.pLen.toNat
      str := s.bytes .pbuf w.off (e - w.off) } := by
  have hfit : e - w.off ≤ Buf.strbuf.size := hfit
  simp only [unpackAscii, stripNuls_bytes h, s.findIdx?_bytes_eq_none hclean, s.length_bytes, if_pos hfit]

end
end

/-! ### A committed decode (R227) -/

/-- A committed decode holds the string in STRBUF and keeps every other byte. -/
theorem State.readAddr_commitDecode (s : State) (k : ResKind) (es : List FieldEntry) (str : List Byte)
    (a : Nat) : (s.commitDecode k es str).readAddr a = (s.store .strbuf 0 str).readAddr a := rfl

theorem State.getElem?_commitDecode_field_of_le (s : State) (kind : ResKind) {es : List FieldEntry}
    (str : List Byte) {k : Nat} (h : es.length ≤ k) :
    (s.commitDecode kind es str).field[k]? = s.field[k]? := by
  rw [State.commitDecode_field, List.getElem?_append_right h, List.getElem?_drop,
    Nat.add_sub_cancel' h]

theorem State.decodedOnly_commitDecode (s : State) (k : ResKind) (es : List FieldEntry)
    (str : List Byte) : decodedOnly s (s.commitDecode k es str) str.length := by
  refine ⟨by simp, fun b hb => by simp [hb], s.commitDecode_err .., s.commitDecode_errInfo .., ?frame,
    fun a ha => ?outside⟩
  case frame =>
    cases s
    rfl
  case outside => rw [s.readAddr_commitDecode, s.readAddr_store_outside .strbuf 0 str a ha]

/-- DRES of one field (R56, R234). -/
theorem dresWord_scalar_one : dresWord .scalar 1 = 0x00000101 := by decide

/-! ### FLDDEC of a sole ASCII field (R233, R234) -/

/-- The response list of one ASCII field. -/
abbrev soleAscii (n : BitVec 8) : List Field := [⟨n, 4⟩]

theorem staticClean_soleAscii (p : Params) (n : BitVec 8) : staticClean p.maxFields (soleAscii n) := by
  refine ⟨?_, by simp, by simp⟩
  simp [Params.maxFields]

/-- The walk in which FLDDEC runs the list's one unpack operation. -/
def asciiWalk (s : State) (n : BitVec 8) : Walk := { Walk.start s.dSel with name := n }

theorem exec_flddec_of_ascii_error {s : State} {n : BitVec 8} {r : Raise}
    (hd : decoding s (some (soleAscii n))) (hu : unpackAscii s (asciiWalk s n) = .error r) :
    exec .flddec s = .next (s.raise r.error r.info) := by
  have hu : unpackElement s 4 0 (asciiWalk s n) = .error r := hu
  have hw : s.decodeList 0 (soleAscii n) (Walk.start s.dSel) = .error r := by
    rw [State.decodeList, ← asciiWalk, hu]
  rw [exec_flddec_of_decoding hd,
    State.decodeResponse_of_walk_error (staticClean_soleAscii s.params n) hw]

theorem exec_flddec_of_ascii_ok {s : State} {n : BitVec 8} {w : Walk}
    (hd : decoding s (some (soleAscii n))) (hu : unpackAscii s (asciiWalk s n) = .ok w)
    (hoff : w.off = s.pLen.toNat) :
    exec .flddec s = .next (s.commitDecode .scalar [⟨n, 4, w.value⟩] w.str) := by
  have hu : unpackElement s 4 0 (asciiWalk s n) = .ok w := hu
  have hw : s.decodeList 0 (soleAscii n) (Walk.start s.dSel) = .ok (w, [⟨n, 4, w.value⟩]) := by
    rw [State.decodeList, ← asciiWalk, hu]
    rfl
  rw [exec_flddec_of_decoding hd,
    State.decodeResponse_of_walk_ok (staticClean_soleAscii s.params n) hw, if_pos hoff]
  rfl

/-- Settles O48: the walk's one operation is UNPACK_ASCII at offset 0, whose outcome decides FLDDEC's. -/
theorem flddecOfAscii : Obligations.FlddecOfAscii := by
  intro s n e hd hle hzeros hlast
  have hend : s.StringEnd .pbuf (asciiWalk s n).off e s.pLen.toNat :=
    ⟨Nat.zero_le e, hle, hzeros, hlast⟩
  refine ⟨fun i hi hbad hfirst => ?charset,
    fun hclean => ⟨fun hlong => ?overflow, fun hfit => ?string⟩⟩
  case charset =>
    exact exec_flddec_of_ascii_error hd
      (unpackAscii_of_bad_byte hend (Nat.zero_le i) hi hbad fun j _ => hfirst j)
  case overflow =>
    exact exec_flddec_of_ascii_error hd (unpackAscii_of_too_long hend (fun i _ => hclean i) hlong)
  case string =>
    have hexec := exec_flddec_of_ascii_ok hd (unpackAscii_of_fits hend (fun i _ => hclean i) hfit) rfl
    have hlen : (s.bytes .pbuf 0 e).length = e := s.length_bytes ..
    have honly := s.decodedOnly_commitDecode .scalar [⟨n, 4, BitVec.ofNat 32 e⟩] (s.bytes .pbuf 0 e)
    rw [hlen] at honly
    refine ⟨_, hexec, fun i hi => ?bytes, ?length, rfl,
      fun k hk => s.getElem?_commitDecode_field_of_le _ _ hk,
      (s.commitDecode_dRes ..).trans dresWord_scalar_one, honly⟩
    case bytes =>
      have hstored := s.byte_store_zero .strbuf (s.bytes .pbuf 0 e) i (by omega)
      rw [s.getElem_bytes, Nat.zero_add] at hstored
      exact hstored
    case length =>
      show (BitVec.ofNat 16 (s.bytes .pbuf 0 e).length).toNat = e
      rw [hlen, BitVec.toNat_ofNat, Nat.mod_eq_of_lt (by omega)]

end Sys2Proof.Machine
end

