-- ==== Sys2Proof/Proofs/ResetAndHazards.lean ====
section
/-!
PROOFS. The reset and hazards family (`70_reset_and_hazards.md`): no host action changes the machine's
parameters, SCHEMA and MAX_FIELDS (R325). It is read off the outcomes of a command, of a host action and of
a step, in that order.
-/
namespace Sys2Proof.Machine

@[simp] theorem State.controlParam_params (s : State) (n : BitVec 8) (v : Word) :
    (s.controlParam n v).params = s.params := by
  unfold State.controlParam
  split <;> rfl

@[simp] theorem State.writeParam_params (s : State) (a : Nat) (v : Word) :
    (s.writeParam a v).params = s.params := by
  unfold State.writeParam
  split
  · exact s.setParam_params ..
  · exact s.controlParam_params ..

/-- A command only raises, or stores its own results. -/
theorem CommandOutcome.params_eq {s t : State} {i : Instr} (h : CommandOutcome s i t) :
    t.params = s.params := by
  cases h with
  | raised _ e info => exact s.raise_params e info
  | checksum => simp
  | built _ frame => exact s.emitFrame_params frame
  | extracted => simp
  | short => simp
  | validated => simp
  | payload => simp
  | decoded k entries str => exact s.commitDecode_params k entries str

/-- Reset is among the actions: it starts the other fields afresh on the same parameters (R320). -/
theorem ServeOutcome.params_eq {s t : State} {act : HostAction} (h : ServeOutcome s act t) :
    t.params = s.params := by
  cases h with
  | reset => exact s.resetFrom_params
  | command w i _ hdec hexec =>
    exact (exec_outcome i _ t (isCommand_of_decodeCommand w i hdec) hexec).params_eq
  | illegal w => exact State.raise_params _ .illegalCmd w
  | argument _ r v => exact s.writeArg_params r v
  | inLength => exact s.setILen_params _
  | payLength => exact s.setPLen_params _
  | parameter a v => exact s.writeParam_params a.toNat v
  | ignored => rfl
  | byteStored _ v b => exact s.store_params b _ [v]
  | answered _ v => exact s.answer_params v
  | answeredFree _ mask => exact s.answerFree_params mask

/-- Settles O5: a step waits, or serves one host action, and neither touches the parameters. -/
theorem stepKeepsTheSchema : Obligations.StepKeepsTheSchema := by
  intro s t hstep
  rcases step_outcome s t hstep with ⟨_, rfl⟩ | ⟨_, _, _, hserved⟩
  · rfl
  · exact hserved.params_eq

end Sys2Proof.Machine
end

/-!
PROOFS. The statements about the model as a whole: decode and encode, what every step keeps, what each access
and each command does and leaves unchanged, the element operations, and on what a command's outcome depends.
-/
namespace Sys2Proof

/-! ### Decode and encode (R102, R103, R118) -/

theorem decode_encode (i : Instr) : decode (encode i) = .ok i := by
  cases i <;> rfl

/-- The accepted words are the ten of R104's list, and each decodes to the instruction it encodes. -/
theorem encode_of_decodeCommand {w : Word} {i : Instr} (h : decodeCommand w = .ok i) :
    encode i = .command w := by
  have hw : w ∈ Machine.legalWords := (decodeCommand_accepts_iff w).mp ⟨i, h⟩
  fin_cases hw <;> cases h <;> rfl

/-- The accepted tags are those that name an operation on their side. -/
theorem encode_of_decodeElement {side : ListSide} {tag : Tag} {i : Instr}
    (h : decodeElement side tag = .ok i) : encode i = .element side tag := by
  cases side <;> rcases Machine.Tag.cases tag with rfl | rfl | rfl | rfl | rfl | rfl | rfl | rfl <;>
    cases h <;> rfl

/-- Settles O22: an encoding that decodes is one of the table's, in either format. -/
theorem decodeAndEncodeAreInverse : Obligations.DecodeAndEncodeAreInverse := by
  refine ⟨fun i _ => decode_encode i, fun e i h => ?_⟩
  cases e with
  | command w => exact encode_of_decodeCommand h
  | element side tag => exact encode_of_decodeElement h

/-- Settles O24. -/
theorem tableWordsDecode : Obligations.TableWordsDecode :=
  ⟨rfl, rfl, rfl, rfl, rfl, rfl, rfl, rfl⟩

end Sys2Proof

namespace Sys2Proof.Machine

/-! ### Single steps of the host port -/

/-- Settles O6: an empty queue is served by waiting. -/
theorem stepWaitsForTheHost : Obligations.StepWaitsForTheHost := by
  intro s hp
  simp only [step, State.serveNext, hp]

theorem State.issue_of_decodes (s : State) {w : Word} {i : Instr} (h : decodeCommand w = .ok i) :
    s.issue w = exec i { s with cmd := w } := by
  simp only [State.issue, h]

/-- Settles O7: CMD is register 0, and its write issues the word. -/
theorem stepRunsTheIssuedCommand : Obligations.StepRunsTheIssuedCommand := by
  intro s w rest i hp hdec _
  exact (step_eq_writeReg (n := 0) (by decide) hp).trans (State.issue_of_decodes _ hdec)

/-- Settles O15: ILEN is register 13 and PLEN register 15. -/
theorem lengthWriteStores : Obligations.LengthWriteStores := by
  intro s v rest
  have hlow : v.setWidth 16 = v.extractLsb' 0 16 := BitVec.setWidth_eq_extractLsb' (by decide)
  rw [← hlow]
  exact ⟨fun hp => step_eq_writeReg (n := 13) (by decide) hp,
    fun hp => step_eq_writeReg (n := 15) (by decide) hp⟩

/-- Settles O2: the action is served by the reset operation. -/
theorem resetActionReachesTheResetState : Obligations.ResetActionReachesTheResetState :=
  fun s rest hp => ⟨_, step_eq_serve s .reset rest hp, rfl, rfl, rfl⟩

/-! ### Little-endian writes (R10) -/

/-- Settles O25: the stored bytes are read back, and they are the value's. -/
theorem memReadAfterMemWrite : Obligations.MemReadAfterMemWrite := by
  intro s b a n v hv
  have hbytes := s.bytes_store_same b a (leBytes n v)
  rw [length_leBytes] at hbytes
  refine ⟨?value, fun x hx => s.readAddr_store_outside b a _ x (by rwa [length_leBytes])⟩
  case value => rw [State.memRead, hbytes, leNat_leBytes n v hv]

/-! ### The invariant -/

/-- The part of the state the invariant speaks of, in an otherwise fresh state. -/
def State.ownPart (s : State) : State :=
  { State.reset with
    params := s.params, err := s.err, errInfo := s.errInfo, status := s.status, oLen := s.oLen
    vStat := s.vStat, fRes := s.fRes, fTrl := s.fTrl, dRes := s.dRes, strLen := s.strLen
    mem := s.mem, field := s.field }

theorem State.inv_ownPart_iff (s : State) : s.ownPart.Inv ↔ s.Inv :=
  ⟨fun h => { h with }, fun h => { h with }⟩

theorem State.Inv.of_ownPart_eq {s t : State} (h : s.Inv) (he : t.ownPart = s.ownPart) : t.Inv := by
  rw [← State.inv_ownPart_iff, he]
  exact s.inv_ownPart_iff.mpr h

/-- Settles O3: every validity bit is clear, and what stands without one is 0 or empty. -/
theorem resetMeetsTheInvariant : Obligations.ResetMeetsTheInvariant where
  memWf := State.reset_mem_wf
  oLen := .inl rfl
  err := Nat.zero_le _
  errInfo _ := rfl
  sticky _ := rfl
  statusReserved := rfl
  vstat := by simp
  short := by simp
  fRes := by simp
  fTrl := by simp
  dres := by simp
  nFields := by simp
  strLen := Nat.zero_le _
  fieldLength := Nat.zero_le _
  fieldFits := List.forall_mem_nil _

/-! #### What the shared operations keep -/

section
variable {s : State} (h : s.Inv)
include h

theorem State.Inv.raise (e : ErrorCode) (info : Word) : (s.raise e info).Inv where
  memWf := h.memWf
  oLen := h.oLen
  err := e.code_le
  errInfo h0 := absurd h0 e.code_ne_zero
  sticky := by simp
  statusReserved := s.reserved_setFlag .esticky h.statusReserved
  vstat hv := h.vstat (by simpa using hv)
  short hv hx := h.short (by simpa using hv) (by simpa using hx)
  fRes hx := h.fRes (by simpa using hx)
  fTrl hx := h.fTrl (by simpa using hx)
  dres hd := h.dres (by simpa using hd)
  nFields hd := h.nFields (by simpa using hd)
  strLen := h.strLen
  fieldLength := h.fieldLength
  fieldFits := h.fieldFits

theorem State.Inv.complete : s.complete.Inv :=
  { h with
    err := Nat.zero_le _
    errInfo := fun _ => rfl
    sticky := fun _ => rfl }

theorem State.Inv.store {b : Buf} {a : Nat} {bs : List Byte} (hb : a + bs.length ≤ b.size) :
    (s.store b a bs).Inv :=
  { h with memWf := s.wf_store b a bs h.memWf hb }

/-- Setting a validity bit of no result that the invariant speaks of. -/
theorem State.Inv.setFlag {b : StatusBit} (hv : b ≠ .vV) (hx : b ≠ .fxV) (hd : b ≠ .dV) :
    (s.setFlag b).Inv :=
  { h with
    sticky := fun hf => h.sticky (by simp at hf; exact hf.1)
    statusReserved := s.reserved_setFlag b h.statusReserved
    vstat := fun hf => h.vstat (by simpa [hv.symm] using hf)
    short := fun hf hg => h.short (by simpa [hv.symm] using hf) (by simpa [hx.symm] using hg)
    fRes := fun hf => h.fRes (by simpa [hx.symm] using hf)
    fTrl := fun hf => h.fTrl (by simpa [hx.symm] using hf)
    dres := fun hf => h.dres (by simpa [hd.symm] using hf)
    nFields := fun hf => h.nFields (by simpa [hd.symm] using hf) }

theorem State.Inv.setOLen {n : Nat} (hlo : 12 ≤ n) (hhi : n ≤ 259) : (s.setOLen n).Inv :=
  have hn : (BitVec.ofNat 16 n).toNat = n := by rw [BitVec.toNat_ofNat]; omega
  { h with oLen := .inr (by rw [State.setOLen_oLen, hn]; exact ⟨hlo, hhi⟩) }

end


/-! #### The words of an extraction (R50 to R55, R162) -/

theorem toNat_append_byte {n : Nat} (x : BitVec n) (b : Byte) :
    (x ++ b).toNat = 256 * x.toNat + b.toNat := by
  rw [BitVec.toNat_append, ← Nat.shiftLeft_add_eq_or_of_lt b.isLt, Nat.shiftLeft_eq, Nat.mul_comm]

theorem toNat_word4 (b0 b1 b2 b3 : Byte) :
    (word4 b0 b1 b2 b3).toNat
      = b0.toNat + 256 * b1.toNat + 65536 * b2.toNat + 16777216 * b3.toNat := by
  rw [word4, toNat_append_byte, toNat_append_byte, toNat_append_byte]
  omega

/-- F_TRL: the frame's last two bytes, and NLEN above them (R55). -/
theorem State.toNat_extract_fTrl (s : State) {n : Nat} (hn : n < 65536) :
    (s.extract n).fTrl.toNat
      = (s.byte .ibuf (n - 2)).toNat + 256 * (s.byte .ibuf (n - 1)).toNat + 65536 * n := by
  have htrl : (s.extract n).fTrl = BitVec.ofNat 16 n ++ s.byte .ibuf (n - 1) ++ s.byte .ibuf (n - 2) := rfl
  rw [htrl, toNat_append_byte, toNat_append_byte, BitVec.toNat_ofNat]
  omega

theorem State.toNat_extract_nlen (s : State) {n : Nat} (hn : n < 65536) :
    ((s.extract n).fTrl >>> 16).toNat = n := by
  have h0 := (s.byte .ibuf (n - 2)).isLt
  have h1 := (s.byte .ibuf (n - 1)).isLt
  rw [BitVec.toNat_ushiftRight, s.toNat_extract_fTrl hn, Nat.shiftRight_eq_div_pow]
  omega

/-- F_RES has no byte 1 (R54). -/
theorem word4_reserved (b0 b2 b3 : Byte) : word4 b0 0 b2 b3 &&& 0x0000FF00 = 0 := by
  rw [and_eq_zero_iff]
  intro i hi hm
  have hmid : 8 ≤ i ∧ i < 16 := by
    revert i
    decide
  have hbyte : i - 8 < 8 := by omega
  rw [word4, BitVec.getLsbD_append, if_neg (by omega), BitVec.getLsbD_append, if_pos hbyte]
  exact BitVec.getLsbD_zero

/-! #### The word of a validation (R49, R163) -/

theorem Checks.valid_iff (c : Checks) :
    (∀ i, i < 12 → c.word.getLsbD i = false) ↔ c.valid = true := by
  simp only [Checks.getLsbD_word, Nat.forall_lt_succ_right]
  simp [Checks.valid]

theorem Checks.word_reserved (c : Checks) : c.word &&& 0x7FFFC000 = 0 := by
  have hmask : ∀ i, i < 32 → (0x7FFFC000 : Word).getLsbD i = true → 14 ≤ i ∧ i ≤ 30 := by decide
  rw [and_eq_zero_iff]
  intro i hi hm
  have hres := hmask i hi hm
  rw [Checks.getLsbD_word]
  simp
  omega

theorem Checks.word_counted (c : Checks) : c.word &&& 0x00000FFF = 0 ↔ c.valid = true := by
  have hmask : ∀ i, i < 32 → ((0x00000FFF : Word).getLsbD i = true ↔ i < 12) := by decide
  rw [and_eq_zero_iff, ← Checks.valid_iff]
  exact ⟨fun h i hi => h i (by omega) ((hmask i (by omega)).mpr hi),
    fun h i hi hm => h i ((hmask i hi).mp hm)⟩

theorem Checks.vstatLegal_word (c : Checks) : vstatLegal c.word := by
  have hvalid : c.word.getLsbD 31 = c.valid := by
    rw [Checks.getLsbD_word]
    simp
  have hshort : c.word.getLsbD 0 = false := by
    rw [Checks.getLsbD_word]
    simp
  refine ⟨c.word_reserved, ?_, fun h => ?_⟩
  · rw [hvalid, c.word_counted]
  · rw [hshort] at h
    nomatch h

/-! #### What the results keep -/

section
variable {s : State} (h : s.Inv)
include h

/-- An extraction stands behind FXV with a length from 21 to 259 (R162). -/
theorem State.Inv.extract {n : Nat} (hlo : 21 ≤ n) (hhi : n ≤ 259) :
    ((s.extract n).setFlag .fxV).Inv :=
  have hn : ((s.extract n).fTrl >>> 16).toNat = n := s.toNat_extract_nlen (by omega)
  { h with
    sticky := fun hf => h.sticky (by simpa using hf)
    statusReserved := s.reserved_setFlag .fxV h.statusReserved
    vstat := fun hf => h.vstat (by simpa using hf)
    short := fun _ hx => by simp at hx
    fRes := fun _ => word4_reserved ..
    fTrl := fun _ => by rw [State.setFlag_fTrl, hn]; exact ⟨hlo, hhi⟩
    dres := fun hf => h.dres (by simpa using hf)
    nFields := fun hf => h.nFields (by simpa using hf) }

/-- A validation of a frame that is not short stands beside its extraction (R163). -/
theorem State.Inv.validate (hx : s.flag .fxV = true) (c : Checks) :
    ((s.setVStat c.word).setFlag .vV).Inv :=
  { h with
    sticky := fun hf => h.sticky (by simpa using hf)
    statusReserved := s.reserved_setFlag .vV h.statusReserved
    vstat := fun _ => c.vstatLegal_word
    short := fun _ hf => by simp [hx] at hf
    fRes := fun _ => h.fRes hx
    fTrl := fun _ => h.fTrl hx
    dres := fun hf => h.dres (by simpa using hf)
    nFields := fun hf => h.nFields (by simpa using hf) }

/-- A short frame is validated without an extraction (R163). -/
theorem State.Inv.validateShort : (((s.setVStat vstatShort).setFlag .vV).clearFlag .fxV).Inv :=
  { h with
    sticky := fun hf => h.sticky (by simpa using hf)
    statusReserved := State.reserved_clearFlag _ .fxV (s.reserved_setFlag .vV h.statusReserved)
    vstat := fun _ => by
      show vstatLegal vstatShort
      decide
    short := fun _ _ => rfl
    fRes := fun hf => by simp at hf
    fTrl := fun hf => by simp at hf
    dres := fun hf => h.dres (by simpa using hf)
    nFields := fun hf => h.nFields (by simpa using hf) }

/-- A decode's entries and string are within their bounds, and DRES is of their number (R227, R234). -/
theorem State.Inv.commitDecode {k : ResKind} {es : List FieldEntry} {str : List Byte}
    (hlen : es.length ≤ s.params.maxFields) (hfit : ∀ e ∈ es, e.fits) (hstr : str.length ≤ 238)
    (hk : k = .unit ∧ es.length = 0 ∨ k = listKind es.length) : (s.commitDecode k es str).Inv :=
  have hfew : es.length < 65536 := by have := maxFields_le s.params; omega
  have hn := s.nFields_commitDecode k str hfew
  { memWf := s.wf_store .strbuf 0 str h.memWf (by rw [Nat.zero_add]; exact hstr)
    oLen := by simpa using h.oLen
    err := by simp
    errInfo := fun _ => s.commitDecode_errInfo k es str
    sticky := fun _ => s.commitDecode_err k es str
    statusReserved := by
      rw [State.commitDecode_status]
      exact s.reserved_setFlag .dV h.statusReserved
    vstat := by simpa using h.vstat
    short := by simpa using h.short
    fRes := by simpa using h.fRes
    fTrl := by simpa using h.fTrl
    dres := fun _ => by
      rw [hn, State.commitDecode_dRes]
      rcases hk with ⟨rfl, h0⟩ | rfl
      · exact .inl ⟨rfl, h0⟩
      · by_cases h1 : es.length = 1
        · exact .inr (.inl ⟨by rw [listKind, if_pos h1], h1⟩)
        · exact .inr (.inr ⟨by rw [listKind, if_neg h1], h1⟩)
    nFields := fun _ => by
      rw [hn, State.commitDecode_field, List.length_append]
      omega
    strLen := by
      rw [State.commitDecode_strLen, BitVec.toNat_ofNat]
      omega
    fieldLength := by
      have := h.fieldLength
      rw [State.commitDecode_field, State.commitDecode_params, List.length_append, List.length_drop]
      omega
    fieldFits := by
      rw [State.commitDecode_field, List.forall_mem_append]
      exact ⟨hfit, fun e he => h.fieldFits e (List.mem_of_mem_drop he)⟩ }

end

/-! #### Commands, host actions and steps -/

theorem CommandOutcome.inv {s t : State} {i : Instr} (h : CommandOutcome s i t) (hs : s.Inv) : t.Inv := by
  cases h with
  | raised _ e info => exact hs.raise e info
  | checksum _ buf =>
    have hckr : (s.setCkr (s.crcRange buf s.cksStart.toNat s.cksEnd.toNat)).Inv :=
      hs.of_ownPart_eq rfl
    exact (hckr.setFlag (b := .ckrV) (by decide) (by decide) (by decide)).complete
  | built _ frame _ hlo hhi =>
    have hstore : (s.store .obuf 0 frame).Inv := hs.store (by simpa [Buf.size] using hhi)
    exact (hstore.setOLen hlo hhi).complete
  | extracted hlo hhi => exact (hs.extract hlo hhi).complete
  | short => exact hs.validateShort.complete
  | validated hlo hhi => exact ((hs.extract hlo hhi).validate (by simp) _).complete
  | payload _ bytes _ hlen =>
    have hstore : (s.store .pbuf 0 bytes).Inv := hs.store (by simpa [Buf.size] using hlen)
    exact (hstore.of_ownPart_eq (t := State.setPLen _ _) rfl).complete
  | decoded k entries str hlen hfit hstr hk => exact hs.commitDecode hlen hfit hstr hk

theorem State.Inv.writeArg {s : State} (h : s.Inv) (r : ArgReg) (v : Word) : (s.writeArg r v).Inv := by
  have hset : (s.setFlag r.validBit).Inv :=
    h.setFlag (by cases r <;> decide) (by cases r <;> decide) (by cases r <;> decide)
  exact hset.of_ownPart_eq (by cases r <;> rfl)

theorem State.ownPart_writeParam (s : State) (a : Nat) (v : Word) :
    (s.writeParam a v).ownPart = s.ownPart := by
  unfold State.writeParam State.controlParam
  split
  · rfl
  · split <;> rfl

theorem State.Inv.resetFrom (s : State) : s.resetFrom.Inv :=
  { resetMeetsTheInvariant with
    fieldLength := Nat.zero_le _ }

theorem ServeOutcome.inv {s t : State} {act : HostAction} (h : ServeOutcome s act t) (hs : s.Inv) :
    t.Inv := by
  cases h with
  | reset => exact State.Inv.resetFrom s
  | command w i _ hdec hexec =>
    have hcmd : ({ s with cmd := w } : State).Inv := hs.of_ownPart_eq rfl
    exact (exec_outcome i _ t (isCommand_of_decodeCommand w i hdec) hexec).inv hcmd
  | illegal w =>
    have hcmd : ({ s with cmd := w } : State).Inv := hs.of_ownPart_eq rfl
    exact hcmd.raise .illegalCmd w
  | argument _ r v => exact hs.writeArg r v
  | inLength | payLength | answered | answeredFree => exact hs.of_ownPart_eq rfl
  | parameter a v => exact hs.of_ownPart_eq (s.ownPart_writeParam a.toNat v)
  | ignored => exact hs
  | byteStored a v b _ hlo hhi => exact hs.store (by rw [List.length_singleton]; omega)

/-- Settles O4: a step waits or serves one host action, and every outcome of either is made of operations
that keep the invariant. -/
theorem stepKeepsTheInvariant : Obligations.StepKeepsTheInvariant := by
  intro s t hs hstep
  rcases step_outcome s t hstep with ⟨_, rfl⟩ | ⟨_, rest, _, hserved⟩
  · exact hs
  · exact hserved.inv (hs.of_ownPart_eq rfl)

end Sys2Proof.Machine
namespace Sys2Proof.Machine

/-! ### What sets and what clears a STATUS bit (R33) -/

/-- What must hold of a command and its next state for a bit that was 0 to be 1 there. -/
def setByCommand (s t : State) (i : Instr) : StatusBit → Prop
  | .esticky => t.err ≠ 0
  | .ckrV => i = .cksumIbuf ∨ i = .cksumObuf ∨ i = .cksumPbuf
  | .fxV => i = .fext ∨ (i = .fval ∧ 21 ≤ s.iLen.toNat)
  | .vV => i = .fval
  | .dV => i = .flddec
  | _ => False

theorem CommandOutcome.flag_set {s t : State} {i : Instr} {b : StatusBit} (h : CommandOutcome s i t)
    (hs : s.flag b = false) (ht : t.flag b = true) : setByCommand s t i b := by
  cases h with
  | raised _ e info =>
    obtain rfl : b = .esticky := by simpa [hs] using ht
    exact e.code_ne_zero
  | checksum _ buf hrow =>
    obtain rfl : b = .ckrV := by simpa [hs] using ht
    rcases hrow with ⟨rfl, -⟩ | ⟨rfl, -⟩ | ⟨rfl, -⟩ <;> simp [setByCommand]
  | built | payload => simp [hs] at ht
  | extracted =>
    obtain rfl : b = .fxV := by simpa [hs] using ht
    exact .inl rfl
  | short =>
    obtain ⟨rfl, -⟩ : b = .vV ∧ _ := by simpa [hs] using ht
    rfl
  | validated hlo =>
    obtain rfl | rfl : b = .fxV ∨ b = .vV := by simpa [hs] using ht
    · exact .inr ⟨rfl, hlo⟩
    · rfl
  | decoded =>
    obtain rfl : b = .dV := by simpa [hs] using ht
    rfl

theorem CommandOutcome.flag_cleared {s t : State} {i : Instr} {b : StatusBit}
    (h : CommandOutcome s i t) (hs : s.flag b = true) (ht : t.flag b = false) :
    b = .fxV ∧ i = .fval ∧ s.iLen.toNat < 21 := by
  cases h with
  | short hlen => exact ⟨by simpa [hs] using ht, rfl, hlen⟩
  | _ => simp [hs] at ht

/-- What must hold of a host action and its next state for a bit that was 0 to be 1 there. -/
def setByAction (s t : State) (act : HostAction) (b : StatusBit) : Prop :=
  (∃ w, act = .writeWord 0 w ∧
    ((b = .esticky ∧ t.err ≠ 0) ∨ ∃ i, encode i = .command w ∧ setByCommand s t i b)) ∨
  ∃ (r : ArgReg) (v : Word), b = r.validBit ∧ act = .writeWord (4 * r.number.setWidth 16) v

theorem ArgReg.toNat_address (r : ArgReg) :
    (4 * r.number.setWidth 16 : Half).toNat = 4 * r.number.toNat := by
  cases r <;> decide

theorem State.flag_writeParam (s : State) (a : Nat) (v : Word) (b : StatusBit) :
    (s.writeParam a v).flag b = s.flag b := by
  have h := congrArg (State.flag · b) (s.ownPart_writeParam a v)
  exact h

theorem ServeOutcome.flag_set {s t : State} {act : HostAction} {b : StatusBit}
    (h : ServeOutcome s act t) (hs : s.flag b = false) (ht : t.flag b = true) :
    setByAction s t act b := by
  cases h with
  | reset =>
    exact nomatch (State.reset_flag b).symm.trans ht
  | command w i _ hdec hexec =>
    have hout := exec_outcome i _ t (isCommand_of_decodeCommand w i hdec) hexec
    exact .inl ⟨w, rfl, .inr ⟨i, encode_of_decodeCommand hdec, hout.flag_set hs ht⟩⟩
  | illegal w =>
    rw [State.flag_raise] at ht
    change (s.flag b || decide (b = .esticky)) = true at ht
    obtain rfl : b = .esticky := by simpa [hs] using ht
    exact .inl ⟨w, rfl, .inl ⟨rfl, ErrorCode.code_ne_zero .illegalCmd⟩⟩
  | argument a r v hdiv hmod _ =>
    obtain rfl : b = r.validBit := by simpa [hs] using ht
    have ha : a = 4 * r.number.setWidth 16 := by
      apply BitVec.eq_of_toNat_eq
      rw [r.toNat_address]
      omega
    exact .inr ⟨r, v, rfl, by rw [ha]⟩
  | parameter a v => exact nomatch hs.symm.trans ((s.flag_writeParam a.toNat v b).symm.trans ht)
  | inLength | payLength | ignored | byteStored | answered | answeredFree =>
    exact nomatch hs.symm.trans ht

theorem ServeOutcome.flag_cleared {s t : State} {act : HostAction} {b : StatusBit}
    (h : ServeOutcome s act t) (hact : act ≠ .reset) (hs : s.flag b = true) (ht : t.flag b = false) :
    b = .fxV ∧ act = .writeWord 0 0x00000005 ∧ s.iLen.toNat < 21 := by
  cases h with
  | reset => exact absurd rfl hact
  | command w i _ hdec hexec =>
    obtain ⟨hb, rfl, hlen⟩ :=
      (exec_outcome i _ t (isCommand_of_decodeCommand w i hdec) hexec).flag_cleared hs ht
    obtain rfl : w = 0x00000005 := (Encoding.command.inj (encode_of_decodeCommand hdec)).symm
    exact ⟨hb, rfl, hlen⟩
  | illegal w =>
    rw [State.flag_raise] at ht
    change (s.flag b || decide (b = .esticky)) = false at ht
    simp [hs] at ht
  | argument _ r v => simp [hs] at ht
  | parameter a v => exact nomatch hs.symm.trans ((s.flag_writeParam a.toNat v b).symm.trans ht)
  | inLength | payLength | ignored | byteStored | answered | answeredFree =>
    exact nomatch hs.symm.trans ht

/-- A bit that no argument register validates is set by a command. -/
theorem setByAction.command {s t : State} {act : HostAction} {b : StatusBit}
    (h : setByAction s t act b) (harg : ∀ r : ArgReg, b ≠ r.validBit) (hb : b ≠ .esticky) :
    ∃ w i, act = .writeWord 0 w ∧ encode i = .command w ∧ setByCommand s t i b := by
  rcases h with ⟨w, hact, ⟨he, -⟩ | ⟨i, henc, hset⟩⟩ | ⟨r, v, hr, -⟩
  · exact absurd he hb
  · exact ⟨w, i, hact, henc, hset⟩
  · exact absurd hr (harg r)

theorem setByAction.esticky {s t : State} {act : HostAction} (h : setByAction s t act .esticky) :
    t.err ≠ 0 ∧ ∃ w, act = .writeWord 0 w := by
  rcases h with ⟨w, hact, ⟨-, herr⟩ | ⟨i, -, herr⟩⟩ | ⟨r, v, hr, -⟩
  · exact ⟨herr, w, hact⟩
  · exact ⟨herr, w, hact⟩
  · cases r <;> nomatch hr

theorem ArgReg.validBit_inj {q r : ArgReg} (h : q.validBit = r.validBit) : q = r := by
  revert h
  cases q <;> cases r <;> decide

theorem not_setByCommand_validBit (s t : State) (i : Instr) (r : ArgReg) :
    ¬ setByCommand s t i r.validBit := by
  cases r <;> exact id

theorem setByAction.argument {s t : State} {act : HostAction} {r : ArgReg}
    (h : setByAction s t act r.validBit) : ∃ v, act = .writeWord (4 * r.number.setWidth 16) v := by
  rcases h with ⟨w, -, ⟨he, -⟩ | ⟨i, -, hset⟩⟩ | ⟨q, v, hq, hact⟩
  · cases r <;> nomatch he
  · exact absurd hset (not_setByCommand_validBit s t i r)
  · exact ⟨v, ArgReg.validBit_inj hq ▸ hact⟩

/-- Settles O9: a bit that changes is one that the served action's outcome sets or clears, and a command's
word is its encoding. -/
theorem statusBitsChangeOnlyAsStated : Obligations.StatusBitsChangeOnlyAsStated := by
  intro s t act rest hp hact hstep
  rw [step_eq_serve s act rest hp] at hstep
  have hout := serve_outcome _ t act hstep
  have hset {b : StatusBit} (hs : s.flag b = false) (ht : t.flag b = true) := hout.flag_set (b := b) hs ht
  have hcmd {b : StatusBit} (harg : ∀ r : ArgReg, b ≠ r.validBit) (hb : b ≠ .esticky)
      (hs : s.flag b = false) (ht : t.flag b = true) := (hset hs ht).command harg hb
  refine ⟨fun b hs ht => hout.flag_cleared hact hs ht, fun hs ht => (hset hs ht).esticky,
    fun r hs ht => (hset hs ht).argument, fun hs ht => ?ckrV, fun hs ht => ?fxV, fun hs ht => ?vV,
    fun hs ht => ?dV⟩
  case ckrV =>
    obtain ⟨w, i, rfl, henc, rfl | rfl | rfl⟩ :=
      hcmd (by intro r; cases r <;> decide) (by decide) hs ht <;> cases henc
    · exact .inl rfl
    · exact .inr (.inl rfl)
    · exact .inr (.inr rfl)
  case fxV =>
    obtain ⟨w, i, rfl, henc, rfl | ⟨rfl, hlen⟩⟩ :=
      hcmd (by intro r; cases r <;> decide) (by decide) hs ht <;> cases henc
    · exact .inl rfl
    · exact .inr ⟨rfl, hlen⟩
  case vV =>
    obtain ⟨w, i, rfl, henc, rfl⟩ := hcmd (by intro r; cases r <;> decide) (by decide) hs ht
    cases henc
    rfl
  case dV =>
    obtain ⟨w, i, rfl, henc, rfl⟩ := hcmd (by intro r; cases r <;> decide) (by decide) hs ht
    cases henc
    rfl


/-! ### PARAM keeps its present entries (R64, R330) -/

theorem CommandOutcome.param_eq {s t : State} {i : Instr} (h : CommandOutcome s i t) :
    t.param = s.param := by
  cases h with
  | decoded k entries str => exact s.commitDecode_param k entries str
  | _ => rfl

theorem State.paramAt_congr {s t : State} (h : t.param = s.param) (n : BitVec 8) :
    t.paramAt n = s.paramAt n := by
  rw [State.paramAt, State.paramAt]
  congr 1

/-- A word at offset 4 of a PARAM entry lies at the CTRL address of the entry it is indexed by (R84). -/
theorem eq_paramCtrlAddress {a : Half} (hlo : 0x4000 ≤ a.toNat) (hhi : a.toNat < 0x4800)
    (hal : a.toNat % 4 = 0) (hctrl : a.toNat % 8 ≠ 0) : a = paramCtrlAddress (paramIndex a.toNat) := by
  apply BitVec.eq_of_toNat_eq
  rw [toNat_paramCtrlAddress, paramIndex, BitVec.toNat_ofNat]
  omega

theorem State.present_setParam (s : State) {m n : BitVec 8} {v : Word}
    (h : (s.paramAt n).present = true) : ((s.setParam m v).paramAt n).present = true := by
  by_cases hn : n = m
  · subst hn
    rw [State.setParam, State.paramAt_set_self]
  · rw [State.setParam, State.paramAt_set_ne _ _ hn, h]

theorem State.present_controlParam (s : State) {m n : BitVec 8} {v : Word}
    (h : (s.paramAt n).present = true) (hlost : ((s.controlParam m v).paramAt n).present = false) :
    v.getLsbD 0 = false ∧ m = n := by
  cases hv : v.getLsbD 0 with
  | true =>
    rw [s.controlParam_of_set m hv, h] at hlost
    nomatch hlost
  | false =>
    refine ⟨rfl, by_contra fun hne => ?_⟩
    rw [s.controlParam_of_clear m hv, State.paramAt_set_ne _ _ (Ne.symm hne), h] at hlost
    nomatch hlost

theorem ServeOutcome.present_lost {s t : State} {act : HostAction} {n : BitVec 8}
    (h : ServeOutcome s act t) (hact : act ≠ .reset) (hs : (s.paramAt n).present = true)
    (ht : (t.paramAt n).present = false) :
    ∃ v : Word, v.getLsbD 0 = false ∧ act = .writeWord (paramCtrlAddress n) v := by
  have hkept (he : t.param = s.param) : False := by
    rw [State.paramAt_congr he, hs] at ht
    nomatch ht
  cases h with
  | reset => exact absurd rfl hact
  | command w i _ hdec hexec =>
    exact (hkept (exec_outcome i _ t (isCommand_of_decodeCommand w i hdec) hexec).param_eq).elim
  | parameter a v hlo hhi hal =>
    unfold State.writeParam at ht
    split at ht
    · rw [s.present_setParam hs] at ht
      nomatch ht
    · rename_i hctrl
      obtain ⟨hv, hn⟩ := s.present_controlParam hs ht
      exact ⟨v, hv, by rw [← hn, ← eq_paramCtrlAddress hlo hhi hal hctrl]⟩
  | argument a r v => exact (hkept (s.writeArg_param r v)).elim
  | _ => exact (hkept rfl).elim

/-- Settles O10: of all served actions only the entry's own CTRL write can clear PRESENT. -/
theorem paramStaysUntilCleared : Obligations.ParamStaysUntilCleared := by
  intro s t act rest n hp hact hstep
  rw [step_eq_serve s act rest hp] at hstep
  exact (serve_outcome _ t act hstep).present_lost hact

/-! ### Results are snapshots (R96) -/

/-- The result registers and FIELD, in an otherwise fresh state. -/
def State.resultPart (s : State) : State :=
  { State.reset with
    cmd := s.cmd, err := s.err, errInfo := s.errInfo, ckr := s.ckr, vStat := s.vStat
    fHdr0 := s.fHdr0, fChan := s.fChan, fHdr1 := s.fHdr1, fOpc := s.fOpc, fRes := s.fRes
    fTrl := s.fTrl, dRes := s.dRes, strLen := s.strLen, field := s.field, oLen := s.oLen }

/-- Every result is in t what it is in s. -/
structure State.KeepsResults (s t : State) : Prop where
  /-- The result registers and FIELD. -/
  part : t.resultPart = s.resultPart
  /-- The validity bits that are 1. -/
  flags : ∀ b, s.flag b = true → t.flag b = true
  /-- The buffers that only commands write. -/
  bytes : ∀ a, Buf.obuf.holds a = true ∨ Buf.strbuf.holds a = true → t.readAddr a = s.readAddr a

theorem State.keepsResults_writeArg (s : State) (r : ArgReg) (v : Word) :
    s.KeepsResults (s.writeArg r v) where
  part := by cases r <;> rfl
  flags b hb := by simp [hb]
  bytes a _ := by cases r <;> rfl

theorem State.keepsResults_writeParam (s : State) (a : Nat) (v : Word) :
    s.KeepsResults (s.writeParam a v) := by
  unfold State.writeParam State.controlParam
  split
  · exact ⟨rfl, fun _ => id, fun _ _ => rfl⟩
  · split <;> exact ⟨rfl, fun _ => id, fun _ _ => rfl⟩

/-- No address lies in two buffers' windows (R81). -/
theorem Buf.ne_of_holds {b c : Buf} (hbc : b ≠ c) {x a : Nat} (hx : b.holds x = true)
    (ha : c.holds a = true) : x ≠ a := by
  rw [Buf.holds_iff] at hx ha
  cases b <;> cases c <;> simp [Buf.base, Buf.size] at hx ha hbc <;> omega

/-- A store within one buffer changes no byte of another. -/
theorem State.readAddr_store_of_holds (s : State) {b c : Buf} (hbc : b ≠ c) {i : Nat} {bs : List Byte}
    (hfit : i + bs.length ≤ c.size) {a : Nat} (ha : b.holds a = true) :
    (s.store c i bs).readAddr a = s.readAddr a := by
  refine s.readAddr_store_outside c i bs a fun hin => ?_
  have hc : c.holds a = true := (c.holds_iff a).mpr ⟨by omega, by omega⟩
  exact Buf.ne_of_holds hbc ha hc rfl

theorem State.keepsResults_store (s : State) {b : Buf} (hb : b = .ibuf ∨ b = .pbuf) {i : Nat}
    {bs : List Byte} (hfit : i + bs.length ≤ b.size) : s.KeepsResults (s.store b i bs) where
  part := rfl
  flags _ := id
  bytes a ha := by
    rcases ha with ha | ha <;> refine s.readAddr_store_of_holds ?_ hfit ha <;> rintro rfl <;> simp at hb

theorem ServeOutcome.keepsResults {s t : State} {act : HostAction} (h : ServeOutcome s act t)
    (hreset : act ≠ .reset) (hcmd : ∀ w, act ≠ .writeWord 0 w) : s.KeepsResults t := by
  cases h with
  | reset => exact absurd rfl hreset
  | command w | illegal w => exact absurd rfl (hcmd w)
  | argument _ r v => exact s.keepsResults_writeArg r v
  | parameter a v => exact s.keepsResults_writeParam a.toNat v
  | byteStored a v b hb hlo hhi =>
    exact s.keepsResults_store hb (by rw [List.length_singleton]; omega)
  | inLength | payLength | ignored | answered | answeredFree =>
    exact ⟨rfl, fun _ => id, fun _ _ => rfl⟩

/-- Settles O11: of the served actions only a command, an illegal word and reset write a result. -/
theorem hostAccessKeepsResults : Obligations.HostAccessKeepsResults := by
  intro s t act rest hp hreset hcmd hstep
  rw [step_eq_serve s act rest hp] at hstep
  obtain ⟨hpart, hflags, hbytes⟩ := (serve_outcome _ t act hstep).keepsResults hreset hcmd
  have hreg {α : Type} (f : State → α) := congrArg f hpart
  exact ⟨hreg State.cmd, hreg State.err, hreg State.errInfo, hreg State.ckr, hreg State.vStat,
    hreg State.fHdr0, hreg State.fChan, hreg State.fHdr1, hreg State.fOpc, hreg State.fRes,
    hreg State.fTrl, hreg State.dRes, hreg State.strLen, hreg State.field, hreg State.oLen,
    hflags, hbytes⟩

/-! ### Misuse of the host port (R307, log entries 10 and 11) -/

section
variable (s : State) {a : Half} (v : Word) (b : Byte)

theorem State.serve_unmapped (h : s.window a = none) :
    ∀ act ∈ [HostAction.writeWord a v, .readWord a, .writeByte a b, .readByte a, .otherWidth a],
      s.serve act = .fault (.unmappedAddress a) := by
  simp [State.serve, State.hostWriteWord, State.hostReadWord, State.hostWriteByte,
    State.hostReadByte, State.hostOtherWidth, h]

theorem State.serve_wide_in_buffer {c : Buf} (h : s.window a = some (.buffer c)) :
    ∀ act ∈ [HostAction.writeWord a v, .readWord a, .otherWidth a],
      s.serve act = .refused (.wrongWidth a) := by
  simp [State.serve, State.hostWriteWord, State.hostReadWord, State.hostOtherWidth, h]

variable (h : s.window a = some .reg ∨ s.window a = some .param ∨ s.window a = some .field)
include h

theorem State.serve_narrow_in_words :
    ∀ act ∈ [HostAction.writeByte a b, .readByte a, .otherWidth a],
      s.serve act = .refused (.wrongWidth a) := by
  rcases h with h | h | h <;>
    simp [State.serve, State.hostWriteByte, State.hostReadByte, State.hostOtherWidth, h]

theorem State.serve_misaligned (hal : a.toNat % 4 ≠ 0) :
    ∀ act ∈ [HostAction.writeWord a v, .readWord a], s.serve act = .refused (.misalignedAccess a) := by
  rcases h with h | h | h <;> simp [State.serve, State.hostWriteWord, State.hostReadWord, h, hal]

end

/-- Settles O13: a step serves the pending action, and taking it off the queue leaves the address map. -/
theorem hostMisuseStops : Obligations.HostMisuseStops := by
  intro s a v b rest
  have hserve (act : HostAction) (hp : s.port = act :: rest) := step_eq_serve s act rest hp
  refine ⟨fun h act hact hp => ?unmapped, fun c h act hact hp => ?wide,
    fun h => ⟨fun act hact hp => ?narrow, fun hal act hact hp => ?misaligned⟩⟩
  all_goals rw [hserve act hp]
  case unmapped => exact State.serve_unmapped { s with port := rest } v b h act hact
  case wide => exact State.serve_wide_in_buffer { s with port := rest } v h act hact
  case narrow => exact State.serve_narrow_in_words { s with port := rest } b h act hact
  case misaligned => exact State.serve_misaligned { s with port := rest } v h hal act hact

/-! ### Argument registers (R37 to R44, R59) -/

theorem ArgReg.address_eq (r : ArgReg) :
    (4 * r.number.setWidth 16 : Half) = BitVec.ofNat 16 (4 * r.number.toNat) := by
  cases r <;> rfl

theorem ArgReg.number_lt (r : ArgReg) : r.number.toNat < 64 := by
  cases r <;> decide

theorem State.writeReg_argument (s : State) (r : ArgReg) (v : Word) :
    s.writeReg r.number.toNat v = .next (s.writeArg r v) := by
  cases r <;> rfl

/-- A word's low bits, read back from a narrow register (R59). -/
theorem setWidth_setWidth_eq_and {k : Nat} (hk : k ≤ 32) (v : Word) :
    (v.setWidth k).setWidth 32 = v &&& BitVec.ofNat 32 (2 ^ k - 1) := by
  apply BitVec.eq_of_toNat_eq
  have hlt : 2 ^ k - 1 < 2 ^ 32 := by
    have := Nat.pow_le_pow_right (n := 2) (by decide) hk
    have := Nat.two_pow_pos k
    omega
  have hv : v.toNat % 2 ^ k < 2 ^ 32 :=
    (Nat.mod_lt _ (Nat.two_pow_pos k)).trans_le (Nat.pow_le_pow_right (by decide) hk)
  rw [BitVec.toNat_setWidth, BitVec.toNat_setWidth, BitVec.toNat_and, BitVec.toNat_ofNat,
    Nat.mod_eq_of_lt hlt, Nat.and_two_pow_sub_one_eq_mod, Nat.mod_eq_of_lt hv]

/-- An argument register holds the low bits of the word written, as many as it has. -/
theorem State.regValue_writeArg_same (s : State) (r : ArgReg) (v : Word) :
    (s.writeArg r v).regValue r.number.toNat = v &&& regMask r.number.toNat := by
  cases r
  case chan | eChan => exact BitVec.and_allOnes.symm
  case opMin | eLink => exact setWidth_setWidth_eq_and (k := 8) (by decide) v
  all_goals exact setWidth_setWidth_eq_and (k := 16) (by decide) v

theorem State.regValue_writeArg_ne (s : State) (r : ArgReg) (v : Word) {n : Nat}
    (hn : n ≠ r.number.toNat) (h3 : n ≠ 3) : (s.writeArg r v).regValue n = s.regValue n := by
  unfold State.regValue
  split
  case h_4 => exact absurd rfl h3
  all_goals cases r <;> first | rfl | exact absurd rfl hn

/-- Settles O14: the write is of register 4 to 11, and writeArg is what it does. -/
theorem argumentWriteStoresAndValidates : Obligations.ArgumentWriteStoresAndValidates := by
  intro s r v rest hp
  rw [r.address_eq] at hp
  have hstep := (step_eq_writeReg r.number_lt hp).trans (State.writeReg_argument _ r v)
  refine ⟨_, hstep, by simp, fun b hb => ?flag, State.regValue_writeArg_same _ r v,
    fun n hn h3 => State.regValue_writeArg_ne _ r v hn h3, by simp, by simp, by simp, by simp, by simp,
    by simp, by simp, by simp, by simp⟩
  case flag =>
    rw [State.flag_writeArg, decide_eq_false hb, Bool.or_false]
    rfl

/-! ### Host reads (R59, R91) -/

/-- Settles O17: a read is answered, with a value the state specifies or with a free one. -/
theorem hostReadHasNoSideEffect : Obligations.HostReadHasNoSideEffect := by
  intro s t act rest hp hread hstep
  rw [step_eq_serve s act rest hp] at hstep
  have hout := serve_outcome _ t act hstep
  obtain ⟨a, rfl | rfl⟩ := hread
  all_goals
    cases hout with
    | ignored _ hact => obtain ⟨_, _, h, -⟩ | ⟨_, _, h⟩ := hact <;> nomatch h
    | answered | answeredFree => rfl

theorem State.readReg_of_invalid (s : State) {n : Nat} (h : s.regValid n = false) :
    s.readReg n = s.answerFree (regMask n) :=
  if_neg (by rw [h]; exact Bool.false_ne_true)

/-- Settles O18: a register that holds a value answers it, and one that is ⊥ a free value under its mask. -/
theorem registerReadReturnsTheRegister : Obligations.RegisterReadReturnsTheRegister := by
  intro s n rest hn hp
  refine ⟨_, step_eq_readReg hn hp, fun hv => ?valid, fun hv => ?invalid⟩
  case valid => exact congrArg State.readData (State.readReg_of_valid { s with port := rest } hv)
  case invalid =>
    rw [State.readReg_of_invalid { s with port := rest } hv, State.answerFree_readData, BitVec.and_assoc,
      BitVec.and_not_self]
    exact BitVec.and_zero

end Sys2Proof.Machine
namespace Sys2Proof.Machine

/-! ### CKSUM completes (R142) -/

theorem cksum_of_range {s : State} {buf : Buf} (hc : s.configured [.cksStart, .cksEnd])
    (hlen : s.lengthOf buf ≤ buf.size) (hab : s.cksStart.toNat ≤ s.cksEnd.toNat)
    (hb : s.cksEnd.toNat < s.lengthOf buf) :
    cksum buf s = ((s.setCkr
      (s.crcRange buf s.cksStart.toNat s.cksEnd.toNat)).setFlag .ckrV).complete := by
  rcases cksum_cases buf s with ⟨r, hr, -⟩ | ⟨-, hgt, -⟩ | ⟨-, -, hbad, -⟩ | ⟨-, -, -, -, he⟩
  · exact absurd hr (State.unwritten_ne_some hc r)
  · omega
  · exact absurd ⟨hab, hb⟩ hbad
  · exact he

/-- Settles O29: of CKSUM's four cases only the one that completes is left. -/
theorem cksumComputesTheRange : Obligations.CksumComputesTheRange := by
  intro i buf hrow s hc hlen hab hb
  obtain ⟨hexec, -⟩ := exec_of_mem_cksumRows hrow s
  rw [hexec, cksum_of_range hc hlen hab hb]
  rfl

/-! ### A built frame and its checksums (R110, R144, R160, R161) -/

theorem State.length_envelopeFrame (s : State) : s.envelopeFrame.length = s.pLen.toNat + 12 := by
  rw [State.envelopeFrame, length_buildFrame, State.length_bytes]

theorem State.envelopeIn_envelopeFrame (s : State) (hp : s.pLen.toNat ≤ 247) :
    envelopeIn (s.emitFrame s.envelopeFrame) (s.pLen.toNat + 12) s.eChan s.eLink := by
  have hlen : (BitVec.ofNat 8 (s.pLen.toNat + 8)).toNat = (s.bytes .pbuf 0 s.pLen.toNat).length + 8 := by
    rw [BitVec.toNat_ofNat, s.length_bytes]
    omega
  have henv := s.envelopeIn_emitFrame _ s.eChan s.eLink _ hlen
  rwa [s.length_bytes] at henv

theorem State.byte_envelopeFrame_body (s : State) {i : Nat} (hi : i < s.pLen.toNat) :
    (s.emitFrame s.envelopeFrame).byte .obuf (10 + i) = s.byte .pbuf i := by
  have hbody := s.byte_emitFrame_body (BitVec.ofNat 8 (s.pLen.toNat + 8)) s.eChan s.eLink
    (s.bytes .pbuf 0 s.pLen.toNat) (i := i) (by rwa [s.length_bytes])
  rw [s.getElem_bytes, Nat.zero_add] at hbody
  exact hbody

/-- Settles O31: FENV emits the frame built around the payload. -/
theorem fenvBuildsTheEnvelope : Obligations.FenvBuildsTheEnvelope := by
  intro s hc hp
  exact ⟨_, exec_fenv_of_configured hc hp, s.envelopeIn_envelopeFrame hp,
    fun i hi => s.byte_envelopeFrame_body hi, s.builtOnly_emitFrame s.length_envelopeFrame⟩

/-- A raise leaves ERR nonzero, so it is no completed command's outcome. -/
theorem State.raise_err_ne_zero (s : State) (e : ErrorCode) (info : Word) : (s.raise e info).err ≠ 0 :=
  e.code_ne_zero

/-- A completed FENV or FENC leaves a frame of 12 to 259 bytes in OBUF. -/
theorem envelopeIn_of_completed {i : Instr} {s t : State} (hi : i = .fenv ∨ i = .fenc)
    (ht : exec i s = .next t) (herr : t.err = 0) :
    ∃ n chan link, 12 ≤ n ∧ n ≤ 259 ∧ envelopeIn t n chan link := by
  rcases hi with rfl | rfl
  · obtain rfl : fenv s = t := Host.Outcome.next.inj ht
    rcases fenv_cases s with ⟨r, -, he⟩ | ⟨-, -, he⟩ | ⟨-, -, -, he⟩ | ⟨-, hp, he⟩ <;>
      rw [he] at herr ⊢
    case inr.inr.inr => exact ⟨_, _, _, by omega, by omega, s.envelopeIn_envelopeFrame hp⟩
    all_goals exact absurd herr (s.raise_err_ne_zero _ _)
  · obtain rfl : fenc s = t := Host.Outcome.next.inj ht
    rcases fenc_cases s with ⟨r, -, he⟩ | ⟨-, -, he⟩ | ⟨-, -, -, he⟩ | ⟨-, hp, he⟩ <;>
      rw [he] at herr ⊢
    case inr.inr.inr => exact ⟨_, _, _, by omega, by omega, s.envelopeIn_requestFrame hp⟩
    all_goals exact absurd herr (s.raise_err_ne_zero _ _)

/-- Both ranges that end with their own checksum have residue 0 (R144). -/
theorem crcRange_of_envelopeIn {t : State} {n : Nat} {chan : Word} {link : Byte} (hn : 12 ≤ n)
    (h : envelopeIn t n chan link) {e : Nat} (he : e = 9 ∨ e = n - 2) : t.crcRange .obuf 1 e = 0 := by
  obtain ⟨-, -, -, -, -, -, -, hheader, htrailer, -⟩ := h
  rcases he with rfl | rfl
  · exact t.crcRange_succ_of_byte_eq (by decide) hheader
  · obtain ⟨m, rfl⟩ : ∃ m, n = m + 3 := ⟨n - 3, by omega⟩
    exact t.crcRange_succ_of_byte_eq (by omega) htrailer

/-- The state in which CKSUM runs over bytes 1 to e. -/
abbrev State.withRange (t : State) (e : Half) : State :=
  (t.writeArg .cksStart 1).writeArg .cksEnd (e.setWidth 32)

theorem State.withRange_configured (t : State) (e : Half) :
    (t.withRange e).configured [.cksStart, .cksEnd] := by
  simp [State.withRange, State.configured]

theorem State.withRange_cksEnd (t : State) (e : Half) : (t.withRange e).cksEnd = e :=
  (BitVec.setWidth_setWidth_of_le (k := 16) (l := 32) e (by decide)).trans (BitVec.setWidth_eq e)

/-- Settles O35: the built frame carries the checksum of each range at its end. -/
theorem builtFrameHasZeroResidue : Obligations.BuiltFrameHasZeroResidue := by
  intro i s t hi ht herr e he
  obtain ⟨n, chan, link, hlo, hhi, henv⟩ := envelopeIn_of_completed hi ht herr
  have holen : t.oLen.toNat = n := henv.1
  rw [holen] at he
  have hlen : (t.withRange e).lengthOf .obuf = n := holen
  have hend : (t.withRange e).cksEnd.toNat = e.toNat := congrArg BitVec.toNat (t.withRange_cksEnd e)
  have hstart : (t.withRange e).cksStart.toNat = 1 := rfl
  have hcksum := cksum_of_range (buf := .obuf) (t.withRange_configured e) (by rw [hlen]; exact hhi)
    (by rw [hstart, hend]; omega) (by rw [hlen, hend]; omega)
  refine ⟨_, congrArg Host.Outcome.next hcksum, rfl, ?_⟩
  calc (t.withRange e).crcRange .obuf (t.withRange e).cksStart.toNat (t.withRange e).cksEnd.toNat
      = t.crcRange .obuf 1 e.toNat := by rw [hstart, hend]; rfl
    _ = 0 := crcRange_of_envelopeIn hlo henv he

/-! ### Extraction (R50 to R55, R162) -/

theorem word4_bytes (b0 b1 b2 b3 : Byte) :
    (word4 b0 b1 b2 b3).extractLsb' 0 8 = b0 ∧ (word4 b0 b1 b2 b3).extractLsb' 8 8 = b1 ∧
      (word4 b0 b1 b2 b3).extractLsb' 16 8 = b2 ∧ (word4 b0 b1 b2 b3).extractLsb' 24 8 = b3 := by
  refine ⟨?_, ?_, ?_, ?_⟩ <;> apply BitVec.eq_of_toNat_eq <;>
    rw [BitVec.extractLsb'_toNat, toNat_word4, Nat.shiftRight_eq_div_pow] <;> omega

theorem word4_halves (b0 b1 b2 b3 : Byte) :
    ((word4 b0 b1 b2 b3).extractLsb' 0 16).toNat = leNat [b0, b1] ∧
      ((word4 b0 b1 b2 b3).extractLsb' 16 16).toNat = leNat [b2, b3] := by
  refine ⟨?_, ?_⟩ <;> rw [BitVec.extractLsb'_toNat, toNat_word4, Nat.shiftRight_eq_div_pow] <;>
    simp only [leNat] <;> omega

/-- The two trailing bytes and NLEN in F_TRL (R55). -/
theorem State.extract_fTrl_parts (s : State) {n : Nat} (hn : n < 65536) :
    (s.extract n).fTrl.extractLsb' 0 8 = s.byte .ibuf (n - 2) ∧
      (s.extract n).fTrl.extractLsb' 8 8 = s.byte .ibuf (n - 1) ∧
      ((s.extract n).fTrl.extractLsb' 16 16).toNat = n := by
  have h0 := (s.byte .ibuf (n - 2)).isLt
  have h1 := (s.byte .ibuf (n - 1)).isLt
  refine ⟨BitVec.eq_of_toNat_eq ?_, BitVec.eq_of_toNat_eq ?_, ?_⟩ <;>
    rw [BitVec.extractLsb'_toNat, s.toNat_extract_fTrl hn, Nat.shiftRight_eq_div_pow] <;> omega

theorem State.extractionOf_extract (s : State) {n : Nat} (hn : n < 65536) :
    extractionOf s (s.extract n) n := by
  obtain ⟨h0, h1, h2, h3⟩ :=
    word4_bytes (s.byte .ibuf 0) (s.byte .ibuf 1) (s.byte .ibuf 2) (s.byte .ibuf 3)
  obtain ⟨h8, h9, h10, h11⟩ :=
    word4_bytes (s.byte .ibuf 8) (s.byte .ibuf 9) (s.byte .ibuf 10) (s.byte .ibuf 11)
  obtain ⟨-, -, h14, h15⟩ :=
    word4_bytes (s.byte .ibuf 12) (s.byte .ibuf 13) (s.byte .ibuf 14) (s.byte .ibuf 15)
  obtain ⟨hop, -⟩ :=
    word4_halves (s.byte .ibuf 12) (s.byte .ibuf 13) (s.byte .ibuf 14) (s.byte .ibuf 15)
  obtain ⟨h16, hres, -, -⟩ := word4_bytes (s.byte .ibuf 16) 0 (s.byte .ibuf 17) (s.byte .ibuf 18)
  obtain ⟨-, hlen⟩ := word4_halves (s.byte .ibuf 16) 0 (s.byte .ibuf 17) (s.byte .ibuf 18)
  obtain ⟨htail, hend, hn⟩ := s.extract_fTrl_parts hn
  have hchan : (s.extract n).fChan.toNat = s.memRead .ibuf 4 4 := by
    have hlt : s.memRead .ibuf 4 4 < 256 ^ 4 := s.memRead_lt .ibuf 4 4
    exact (BitVec.toNat_ofNat ..).trans (Nat.mod_eq_of_lt hlt)
  exact ⟨h0, h1, h2, h3, hchan, h8, h9, h10, h11, hop, h14, h15, h16, hres, hlen, htail, hend, hn⟩

/-- An extraction is described by its six registers alone. -/
theorem extractionOf_congr {s t u : State} {n : Nat} (h : extractionOf s u n) (h0 : t.fHdr0 = u.fHdr0)
    (h1 : t.fChan = u.fChan) (h2 : t.fHdr1 = u.fHdr1) (h3 : t.fOpc = u.fOpc) (h4 : t.fRes = u.fRes)
    (h5 : t.fTrl = u.fTrl) : extractionOf s t n := by
  unfold extractionOf
  rw [h0, h1, h2, h3, h4, h5]
  exact h

/-- Settles O36: of FEXT's three cases only the one that completes is left. -/
theorem fextExtractsTheFields : Obligations.FextExtractsTheFields := by
  intro s hlo hhi
  rcases fext_cases s with ⟨hlong, -⟩ | ⟨hshort, -⟩ | ⟨-, -, he⟩
  case inr.inr =>
    refine ⟨_, congrArg Host.Outcome.next he, s.extractionOf_extract (by omega), by simp,
      fun b hb => by simp [hb], rfl, rfl, rfl⟩
  all_goals omega

/-! ### A length beyond its buffer (R284) -/

theorem fext_of_too_long {s : State} (h : 259 < s.iLen.toNat) : fext s = s.raise .badLength 13 :=
  if_pos h

theorem pslice_of_too_long {s : State} (h : 259 < s.iLen.toNat) : pslice s = s.raise .badLength 13 :=
  if_pos h

theorem fval_of_too_long {s : State} (hc : s.configured [.chan, .opMaj, .opMin])
    (h : 259 < s.iLen.toNat) : fval s = s.raise .badLength 13 := by
  rcases fval_cases s with ⟨r, hr, -⟩ | ⟨-, -, he⟩ | ⟨-, hshort, -⟩ | ⟨-, -, hle, -⟩
  · exact absurd hr (State.unwritten_ne_some hc r)
  · exact he
  all_goals omega

theorem flddec_of_too_long {s : State} (hc : s.configured [.dSel]) (h : 255 < s.pLen.toNat) :
    flddec s = s.raise .badLength 15 := by
  have hu := (s.unwritten_eq_none _).mpr hc
  have hlong : s.pLen.toNat > Buf.pbuf.size := h
  simp only [flddec, hu, if_pos hlong]

/-- Settles O38: behind its argument registers each command checks the length it reads. -/
theorem lengthBeyondTheBufferIsRaised : Obligations.LengthBeyondTheBufferIsRaised := by
  refine fun s => ⟨fun h => ⟨?fext, ?pslice, fun hc => ?fval, fun hc => ?cksumIbuf⟩,
    fun h => ⟨fun hc => ?fenv, fun hc => ?fenc, fun hc => ?flddec, fun hc => ?cksumPbuf⟩⟩
  case fext => exact congrArg Host.Outcome.next (fext_of_too_long h)
  case pslice => exact congrArg Host.Outcome.next (pslice_of_too_long h)
  case fval => exact congrArg Host.Outcome.next (fval_of_too_long hc h)
  case cksumIbuf => exact congrArg Host.Outcome.next (cksum_of_size_lt (buf := .ibuf) hc h)
  case fenv => exact (exec_of_payload_too_long rfl (by decide) (fenv_cases s) hc).1 h
  case fenc => exact (exec_of_payload_too_long rfl (by decide) (fenc_cases s) hc).1 h
  case flddec => exact congrArg Host.Outcome.next (flddec_of_too_long hc h)
  case cksumPbuf => exact congrArg Host.Outcome.next (cksum_of_size_lt (buf := .pbuf) hc h)

/-! ### FVAL (R49, R163) -/

/-- A validation without an extraction changes VSTAT, STATUS, ERR and ERRINFO alone. -/
theorem State.validateShort_frame (s : State) (v : Word) :
    { (((s.setVStat v).setFlag .vV).clearFlag .fxV).complete with
      vStat := s.vStat, status := s.status, err := s.err, errInfo := s.errInfo } = s := by
  cases s
  rfl

/-- A validation with its extraction changes their registers, STATUS, ERR and ERRINFO alone. -/
theorem State.validate_frame (s : State) (n : Nat) (v : Word) :
    { ((((s.extract n).setFlag .fxV).setVStat v).setFlag .vV).complete with
      vStat := s.vStat, fHdr0 := s.fHdr0, fChan := s.fChan, fHdr1 := s.fHdr1
      fOpc := s.fOpc, fRes := s.fRes, fTrl := s.fTrl, status := s.status, err := s.err
      errInfo := s.errInfo } = s := by
  cases s
  rfl

/-- Settles O39: of FVAL's four cases only the one of a short frame is left. -/
theorem fvalReportsAShortFrame : Obligations.FvalReportsAShortFrame := by
  intro s hc hshort
  rcases fval_cases s with ⟨r, hr, -⟩ | ⟨-, hlong, -⟩ | ⟨-, -, he⟩ | ⟨-, hge, -⟩
  case inl => exact absurd hr (State.unwritten_ne_some hc r)
  case inr.inr.inl =>
    exact ⟨_, congrArg Host.Outcome.next he, rfl, by simp, by simp,
      fun b hv hx => by simp [hv, hx], State.complete_err _, State.complete_errInfo _,
      s.validateShort_frame _⟩
  all_goals omega

/-- The bits of a VSTAT word, each with its check. -/
theorem Checks.getLsbD_word_iff (c : Checks) (i : Nat) : c.word.getLsbD i = true ↔
    (i = 1 ∧ c.start = true) ∨ (i = 2 ∧ c.ltype = true) ∨ (i = 3 ∧ c.len = true) ∨
    (i = 4 ∧ c.chan = true) ∨ (i = 5 ∧ c.hcrc = true) ∨ (i = 6 ∧ c.ptype = true) ∨
    (i = 7 ∧ c.mark = true) ∨ (i = 8 ∧ c.opcode = true) ∨ (i = 9 ∧ c.result = true) ∨
    (i = 10 ∧ c.tcrc = true) ∨ (i = 11 ∧ c.endMark = true) ∨ (i = 12 ∧ c.rsvd = true) ∨
    (i = 13 ∧ c.plenx = true) ∨ (i = 31 ∧ ∀ j, j ≤ 11 → c.word.getLsbD j = false) := by
  have hvalid : (∀ j, j ≤ 11 → c.word.getLsbD j = false) ↔ c.valid = true := by
    simp only [← c.valid_iff, Nat.lt_succ_iff]
  rw [hvalid, Checks.getLsbD_word]
  simp only [Bool.or_eq_true, Bool.and_eq_true, decide_eq_true_eq, or_assoc, and_comm]

/-- Settles O40: VSTAT is the word of the frame's checks, and the extraction is FEXT's. -/
theorem fvalReportsEachCheck : Obligations.FvalReportsEachCheck := by
  intro s hc hlo hhi
  rcases fval_cases s with ⟨r, hr, -⟩ | ⟨-, hlong, -⟩ | ⟨-, hshort, -⟩ | ⟨-, -, -, he⟩
  case inl => exact absurd hr (State.unwritten_ne_some hc r)
  case inr.inr.inr =>
    refine ⟨_, congrArg Host.Outcome.next he, fun i => ?checks, ?extraction,
      by simp, by simp, fun b hv hx => by simp [hv, hx], State.complete_err _,
      State.complete_errInfo _, s.validate_frame _ _⟩
    case extraction =>
      exact extractionOf_congr (s.extractionOf_extract (by omega)) rfl rfl rfl rfl rfl rfl
    case checks =>
      refine ((s.frameChecks s.iLen.toNat).getLsbD_word_iff i).trans ?_
      simp only [State.frameChecks, bne_iff_ne, Bool.or_eq_true]
      rfl
  all_goals omega

/-! ### PSLICE (R165) -/

/-- Storing a payload and its length changes PBUF, PLEN, ERR and ERRINFO alone. -/
theorem State.storePayload_frame (s : State) (bs : List Byte) (n : Half) :
    { ((s.store .pbuf 0 bs).setPLen n).complete with
      mem := s.mem, pLen := s.pLen, err := s.err, errInfo := s.errInfo } = s := by
  cases s
  rfl

/-- PLEN plays no part in what a byte holds. -/
theorem State.readAddr_storePayload (s : State) (bs : List Byte) (n : Half) (a : Nat) :
    ((s.store .pbuf 0 bs).setPLen n).complete.readAddr a = (s.store .pbuf 0 bs).readAddr a := rfl

theorem State.byte_storePayload (s : State) (bs : List Byte) (n : Half) (i : Nat) :
    ((s.store .pbuf 0 bs).setPLen n).complete.byte .pbuf i = (s.store .pbuf 0 bs).byte .pbuf i := rfl

/-- Settles O41: of PSLICE's four cases only the one that completes is left. -/
theorem psliceCopiesThePayload : Obligations.PsliceCopiesThePayload := by
  intro s hlo hhi hfit
  rcases pslice_cases s with ⟨hlong, -⟩ | ⟨hshort, -⟩ | ⟨-, -, hover, -⟩ | ⟨-, -, -, he⟩
  case inr.inr.inr =>
    have hlen : (s.bytes .ibuf 19 (s.memRead .ibuf 17 2)).length = s.memRead .ibuf 17 2 := s.length_bytes ..
    refine ⟨_, congrArg Host.Outcome.next he, ?length, fun i hi => ?payload, fun a ha => ?frame,
      State.complete_err _, State.complete_errInfo _, s.storePayload_frame _ _⟩
    case length =>
      rw [State.complete_pLen, State.setPLen_pLen, BitVec.toNat_ofNat, Nat.mod_eq_of_lt (by omega)]
    case payload =>
      rw [s.byte_storePayload, s.byte_store_zero .pbuf _ i (by omega), s.getElem_bytes]
    case frame =>
      rw [s.readAddr_storePayload]
      exact s.readAddr_store_outside .pbuf 0 _ a (by rwa [hlen])
  all_goals omega

end Sys2Proof.Machine
namespace Sys2Proof.Machine

/-! ### FLDENC completes (R221) -/

theorem State.toNat_packed_pLen (s : State) {fs : List Field} (h : totalWidth fs ≤ 255) :
    (s.packed fs).pLen.toNat = totalWidth fs := by
  rw [State.packed, State.complete_pLen, State.setPLen_pLen, BitVec.toNat_ofNat]
  omega

theorem State.bytes_packed (s : State) (fs : List Field) :
    (s.packed fs).bytes .pbuf 0 (totalWidth fs) = fs.flatMap s.fieldBytes := by
  have hstored := s.bytes_store_same .pbuf 0 (fs.flatMap s.fieldBytes)
  rw [s.length_fieldBytes] at hstored
  exact hstored

/-- Settles O43: the walk over ready fields completes with their bytes, which PBUF then starts with. -/
theorem fldencPacksTheFields : Obligations.FldencPacksTheFields := by
  intro s desc hc hd hready hfit
  refine ⟨_, exec_fldenc_of_ready hc hd hready hfit, s.toNat_packed_pLen hfit, s.bytes_packed desc.req,
    fun a ha => ?frame, State.complete_err _, State.complete_errInfo _, s.storePayload_frame _ _⟩
  case frame =>
    rw [State.packed, s.readAddr_storePayload]
    exact s.readAddr_store_outside .pbuf 0 _ a (by rwa [s.length_fieldBytes])

/-! ### FLDDEC (R227) -/

theorem exec_flddec_of_none {s : State} (h : decoding s none) :
    exec .flddec s = .next (if s.pLen.toNat = 0 then s.commitDecode .unit [] []
      else s.raise .lengthMismatch (infoPair 0 s.pLen.toNat)) := by
  obtain ⟨hc, hp, desc, hd, hr⟩ := h
  have hu := (s.unwritten_eq_none _).mpr hc
  have hfit : ¬ s.pLen.toNat > Buf.pbuf.size := Nat.not_lt.mpr hp
  simp only [exec, execFlddec, flddec, hu, hd, hr, if_neg hfit]

/-- Settles O46: only PLEN decides, and a result without a field commits no entry. -/
theorem flddecOfNone : Obligations.FlddecOfNone := by
  intro s h
  have hexec := exec_flddec_of_none h
  refine ⟨fun hp => ?empty, fun hp => ?other⟩
  case empty =>
    rw [if_pos hp] at hexec
    refine ⟨_, hexec, (s.commitDecode_dRes ..).trans (by decide), s.commitDecode_strLen .., ?_,
      s.decodedOnly_commitDecode .unit [] []⟩
    rw [s.commitDecode_field, List.length_nil, List.drop_zero, List.nil_append]
  case other => rw [hexec, if_neg hp]

/-- RESKIND of a list's result (R56, R234). -/
theorem dresWord_kind (n : Nat) :
    (dresWord (listKind n) n).extractLsb' 0 2 = if n = 1 then 1 else 2 := by
  have hlow (k : ResKind) : (dresWord k n).extractLsb' 0 2 = k.code.extractLsb' 0 2 := by
    apply BitVec.eq_of_toNat_eq
    rw [BitVec.extractLsb'_toNat, BitVec.extractLsb'_toNat, dresWord, toNat_append_byte]
    omega
  rw [hlow, listKind]
  split <;> rfl

/-- Settles O47: the walk fits the payload exactly, and its entries are committed without a string. -/
theorem flddecUnpacksTheFields : Obligations.FlddecUnpacksTheFields := by
  intro s fs hd hs hne hlen
  have hfix : ∀ f ∈ fs, fixedWidth f.tag := fun f hf => ⟨(hs.2.1 f hf).1, hne f hf⟩
  obtain ⟨es, hexec, hcount, hes⟩ := exec_flddec_of_totalWidth_eq hd hs hfix hlen
  have hfew : es.length < 65536 := by
    have := maxFields_le s.params
    have := hs.1
    omega
  refine ⟨_, hexec, fun pre f post hsplit => ?entry, fun k hk => ?later, ?kind, ?count,
    s.commitDecode_strLen .., s.decodedOnly_commitDecode _ es []⟩
  case entry =>
    have hk : pre.length < es.length := by
      rw [hcount, hsplit, List.length_append, List.length_cons]
      omega
    rw [s.getElem?_commitDecode_field _ _ hk, hes pre f post hsplit]
    rfl
  case later => exact s.getElem?_commitDecode_field_of_le _ _ (by omega)
  case kind => rw [s.commitDecode_dRes, hcount, dresWord_kind]
  case count => rw [s.nFields_commitDecode _ _ hfew, hcount]

/-! #### The static checks (R227, R291) -/

theorem exec_flddec_of_static_error {s : State} {fs : List Field} {k : Nat} (h : decoding s (some fs))
    (hk : staticCheck s.params.maxFields fs = some k) :
    exec .flddec s = .next (s.raise .schemaError (infoPair k s.dSel.toNat)) := by
  rw [exec_flddec_of_decoding h]
  simp only [State.decodeResponse, hk]

/-- Behind good fields with names of their own, the first bad field is reported with its index. -/
theorem staticScan_first_bad {total : Nat} {pre post : List Field} {f : Field}
    (hpre : ∀ g ∈ pre, g.tag.toNat ≤ 5 ∧ (g.tag = 4 → total = 1))
    (hnames : (pre.map Field.name).Nodup)
    (hbad : 5 < f.tag.toNat ∨ (f.tag = 4 ∧ total ≠ 1) ∨ f.name ∈ pre.map Field.name) :
    staticScan total 0 [] (pre ++ f :: post) = some pre.length := by
  have hf : ¬ staticOk total ((pre.map Field.name).reverse ++ []) f = true := by
    rw [staticOk_iff, List.append_nil, List.mem_reverse]
    rintro ⟨htag, hascii, hnew⟩
    rcases hbad with h | ⟨h4, h1⟩ | h
    · omega
    · exact h1 (hascii h4)
    · exact hnew h
  rw [staticScan_append total pre (f :: post) 0 [] hpre hnames (by simp), staticScan, if_neg hf,
    Nat.zero_add]

/-- Settles O50: the length check comes first, then the scan stops at the first bad field. -/
theorem flddecReportsSchemaErrors : Obligations.FlddecReportsSchemaErrors := by
  intro s fs hd
  refine ⟨fun hlong => ?tooMany, fun hfit pre f post hsplit hpre hnames hbad => ?badField⟩
  case tooMany => exact exec_flddec_of_static_error hd (if_neg (Nat.not_le.mpr hlong))
  case badField =>
    refine exec_flddec_of_static_error hd ((if_pos hfit).trans ?_)
    rw [hsplit] at hpre hbad ⊢
    exact staticScan_first_bad hpre hnames hbad

/-! ### Element operations by themselves (R222 to R233) -/

/-- Settles O52: each operation is its tag's element on the walk field. -/
theorem packOperations : Obligations.PackOperations := by
  intro s i width hrow
  obtain ⟨tag, hdec, hwidth, hpack⟩ :
      ∃ tag, decodeElement .request tag = .ok i ∧ wireWidth tag = width ∧ packable tag := by
    simp only [List.mem_cons, Prod.mk.injEq, List.not_mem_nil, or_false] at hrow
    rcases hrow with ⟨rfl, rfl⟩ | ⟨rfl, rfl⟩ | ⟨rfl, rfl⟩ | ⟨rfl, rfl⟩
    · exact ⟨0, rfl, rfl, by decide⟩
    · exact ⟨1, rfl, rfl, by decide⟩
    · exact ⟨2, rfl, rfl, by decide⟩
    · exact ⟨5, rfl, rfl, by decide⟩
  subst hwidth
  rw [exec_packElement s i tag 0 hdec]
  rcases packElement_cases tag 0 s.walk with ⟨-, hlt, he⟩ | ⟨-, hge, he⟩ | ⟨hnot, -⟩
  · exact ⟨fun _ => by rw [he]; rfl, fun hge => by omega⟩
  · exact ⟨fun hlt => by omega, fun _ => by rw [he]; rfl⟩
  · exact absurd hpack hnot

/-- Settles O53: each operation is its tag's element on the walk field. -/
theorem unpackOperations : Obligations.UnpackOperations := by
  intro s i tag hrow
  obtain ⟨hdec, h5, h4⟩ : decodeElement .response tag = .ok i ∧ fixedWidth tag := by
    simp only [List.mem_cons, Prod.mk.injEq, List.not_mem_nil, or_false] at hrow
    rcases hrow with ⟨rfl, rfl⟩ | ⟨rfl, rfl⟩ | ⟨rfl, rfl⟩ | ⟨rfl, rfl⟩ | ⟨rfl, rfl⟩ <;>
      exact ⟨rfl, by decide⟩
  rw [exec_unpackElement s i tag 0 hdec, unpackElement_fixed s tag 0 s.walk h5 h4]
  exact ⟨fun hfit => by rw [if_pos hfit]; rfl, fun hover => by rw [if_neg (Nat.not_le.mpr hover)]; rfl⟩

/-- Settles O54: the outcomes of the string's last place, its first bad byte and its length. -/
theorem unpackAsciiOperation : Obligations.UnpackAsciiOperation := by
  intro s e hoff hle hzeros hlast
  have hend : s.StringEnd .pbuf s.walk.off e s.pLen.toNat := ⟨hoff, hle, hzeros, hlast⟩
  have hexec : exec .unpackAscii s = .next (s.runElement (unpackAscii s s.walk)) := rfl
  rw [hexec]
  refine ⟨fun i hlo hi hbad hfirst => ?charset, fun hclean =>
    ⟨fun hfit => ?string, fun hlong => ?overflow⟩⟩
  case charset =>
    rw [unpackAscii_of_bad_byte hend hlo hi hbad hfirst]
    rfl
  case string =>
    rw [unpackAscii_of_fits hend hclean hfit]
    rfl
  case overflow =>
    rw [unpackAscii_of_too_long hend hclean hlong]
    rfl

end Sys2Proof.Machine
namespace Sys2Proof.Machine

/-! ### The commands as their element operations run one by one (R221, R227) -/

/-- The state with another walk field. -/
abbrev State.onWalk (s : State) (w : Walk) : State := { s with walk := w }

/-- An element operation that completes names its row of the table. -/
theorem decodeElement_of_packElement_ok {t : Tag} {k : Nat} {w w' : Walk}
    (h : packElement t k w = .ok w') : ∃ i, decodeElement .request t = .ok i := by
  unfold packElement at h
  cases hd : decodeElement .request t with
  | ok i => exact ⟨i, rfl⟩
  | error r =>
    rw [hd] at h
    nomatch h

theorem decodeElement_of_unpackElement_ok {s : State} {t : Tag} {k : Nat} {w w' : Walk}
    (h : unpackElement s t k w = .ok w') : ∃ i, decodeElement .response t = .ok i := by
  unfold unpackElement at h
  cases hd : decodeElement .response t with
  | ok i => exact ⟨i, rfl⟩
  | error r =>
    rw [hd] at h
    nomatch h

/-- The walk field is no operand of unpacking. -/
theorem unpackElement_onWalk (s : State) (v : Walk) (t : Tag) (k : Nat) (w : Walk) :
    unpackElement (s.onWalk v) t k w = unpackElement s t k w := rfl

/-- A request field's operation that completes hands its state to the rest of the list. -/
theorem runRequest_cons {s t : State} {f : Field} {fs : List Field} {i : Instr}
    (hi : decodeElement .request f.tag = .ok i)
    (h : exec i (s.onWalk { s.walk with name := f.name, value := (s.paramAt f.name).value }) = .next t) :
    runRequest s (f :: fs) = runRequest t fs := by
  simp only [runRequest, hi]
  rw [h]
  rfl

/-- A response field's operation that completes gives its entry, before those of the rest of the list. -/
theorem runResponse_cons {s t u : State} {f : Field} {fs : List Field} {es : List FieldEntry} {i : Instr}
    (hi : decodeElement .response f.tag = .ok i)
    (h : exec i (s.onWalk { s.walk with name := f.name }) = .next t)
    (hrest : runResponse t fs = some (u, es)) :
    runResponse s (f :: fs) = some (u, ⟨f.name, f.tag, t.walk.value⟩ :: es) := by
  simp only [runResponse, hi]
  rw [h]
  simp only [nextState, hrest]

/-- A completed request walk is run by its element operations, one by one. -/
theorem runRequest_of_encodeList (s : State) (fs : List Field) : ∀ (k : Nat) (w w' : Walk),
    s.encodeList k fs w = .ok w' → runRequest (s.onWalk w) fs = some (s.onWalk w') := by
  induction fs with
  | nil =>
    intro k w w' h
    obtain rfl : w = w' := Except.ok.inj h
    rfl
  | cons f fs ih =>
    intro k w w' h
    simp only [State.encodeList, State.encodeField] at h
    split at h
    case h_2 => nomatch h
    case h_1 w1 h1 =>
      split at h1
      case isFalse => nomatch h1
      case isTrue =>
        obtain ⟨i, hi⟩ := decodeElement_of_packElement_ok h1
        have hexec : exec i (s.onWalk { w with name := f.name, value := (s.paramAt f.name).value })
            = .next (s.onWalk w1) := by
          rw [exec_packElement _ i f.tag k hi, h1]
          rfl
        exact (runRequest_cons hi hexec).trans (ih (k + 1) w1 w' h)

/-- A completed response walk is run by its element operations, one by one. -/
theorem runResponse_of_decodeList (s : State) (fs : List Field) : ∀ (k : Nat) (w w' : Walk)
    (es : List FieldEntry), s.decodeList k fs w = .ok (w', es) →
    runResponse (s.onWalk w) fs = some (s.onWalk w', es) := by
  induction fs with
  | nil =>
    intro k w w' es h
    obtain ⟨rfl, rfl⟩ := Prod.mk.inj (Except.ok.inj h)
    rfl
  | cons f fs ih =>
    intro k w w' es h
    simp only [State.decodeList] at h
    split at h
    case h_1 => nomatch h
    case h_2 w1 h1 =>
      split at h
      case h_1 => nomatch h
      case h_2 w2 es2 h2 =>
        obtain ⟨rfl, rfl⟩ := Prod.mk.inj (Except.ok.inj h)
        obtain ⟨i, hi⟩ := decodeElement_of_unpackElement_ok h1
        have hexec : exec i (s.onWalk { w with name := f.name }) = .next (s.onWalk w1) := by
          rw [exec_unpackElement _ i f.tag k hi, unpackElement_onWalk, h1]
          rfl
        exact runResponse_cons hi hexec (ih (k + 1) w1 w2 es2 h2)

/-- Settles O55: of FLDENC's outcomes only the last completes, and what it stores is what its walk packed. -/
theorem fldencRunsItsPackOperations : Obligations.FldencRunsItsPackOperations := by
  intro s t desc hd ht herr
  obtain rfl : fldenc s = t := Host.Outcome.next.inj ht
  rcases fldenc_cases s with ⟨-, he⟩ | ⟨-, -, he⟩ | ⟨_, _, -, -, -, he⟩ |
    ⟨_, _, -, -, -, -, he⟩ |
    ⟨desc', w, -, hd', hw, hlen, he⟩ <;> rw [he] at herr ⊢
  case inr.inr.inr.inr =>
    obtain rfl : desc' = desc := Option.some.inj (hd'.symm.trans hd)
    have hplen : (BitVec.ofNat 16 w.out.length).toNat = w.out.length := by
      rw [BitVec.toNat_ofNat]
      omega
    refine ⟨_, runRequest_of_encodeList s desc'.req 0 _ w hw, hplen.symm, ?bytes, rfl⟩
    case bytes =>
      rw [State.complete_pLen, State.setPLen_pLen, hplen]
      exact (s.bytes_store_same .pbuf 0 w.out).symm
  all_goals exact absurd herr (s.raise_err_ne_zero _ _)

/-- A completed FLDDEC of a list committed the end of its walk, which consumed the payload. -/
theorem flddec_list_completed {s : State} {desc : Descriptor} {fs : List Field}
    (hd : s.params.schema[s.dSel.toNat]? = some desc) (hresp : desc.resp = some fs)
    (herr : (flddec s).err = 0) :
    ∃ w es, staticClean s.params.maxFields fs ∧
      s.decodeList 0 fs (Walk.start s.dSel) = .ok (w, es) ∧ w.off = s.pLen.toNat ∧
      flddec s = s.commitDecode (listKind fs.length) es w.str := by
  have hraise {e : ErrorCode} {info : Word} (he : flddec s = s.raise e info) : False := by
    rw [he] at herr
    exact s.raise_err_ne_zero e info herr
  rcases flddec_cases s with ⟨-, he⟩ | ⟨-, -, he⟩ | ⟨-, -, -, he⟩ |
    ⟨desc', -, -, hd', hnone, -, -⟩ |
    ⟨_, -, -, -, -, -, he⟩ | ⟨desc', fs', -, -, hd', hresp', he⟩
  case inr.inr.inr.inl =>
    obtain rfl : desc' = desc := Option.some.inj (hd'.symm.trans hd)
    rw [hresp] at hnone
    nomatch hnone
  case inr.inr.inr.inr.inr =>
    obtain rfl : desc' = desc := Option.some.inj (hd'.symm.trans hd)
    obtain rfl : fs' = fs := Option.some.inj (hresp'.symm.trans hresp)
    rcases decodeResponse_cases s fs' with ⟨_, -, hr⟩ | ⟨_, -, -, hr⟩ | ⟨_, _, -, -, -, hr⟩ |
      ⟨w, es, hs, hw, hoff, hr⟩
    case inr.inr.inr =>
      exact ⟨w, es, (staticCheck_eq_none _ _).mp hs, hw, hoff, he.trans hr⟩
    all_goals exact (hraise (he.trans hr)).elim
  all_goals exact (hraise he).elim

/-- Settles O56: what is committed is the end of the walk, and the walk is run by its operations. -/
theorem flddecRunsItsUnpackOperations : Obligations.FlddecRunsItsUnpackOperations := by
  intro s t desc fs hd hresp ht herr
  obtain rfl : flddec s = t := Host.Outcome.next.inj ht
  obtain ⟨w, es, ⟨hmax, htags, -⟩, hw, hoff, he⟩ := flddec_list_completed hd hresp herr
  obtain ⟨hcount, -, hstr⟩ :=
    s.decodeList_ok fs 0 _ w es (fun f hf => (htags f hf).1) (by simp [Walk.start]) hw
  have hfew : es.length < 65536 := by
    have := maxFields_le s.params
    omega
  have hn : (flddec s).nFields = es.length := by rw [he, s.nFields_commitDecode _ _ hfew]
  have hlen : (flddec s).strLen.toNat = w.str.length := by
    rw [he, State.commitDecode_strLen, BitVec.toNat_ofNat]
    omega
  refine ⟨_, es, runResponse_of_decodeList s fs 0 _ w es hw, hoff, hn.symm, ?entries, ?string, rfl⟩
  case entries => rw [hn, he, State.commitDecode_field, List.take_left]
  case string =>
    have hbytes := State.bytes_congr (s.commitDecode (listKind fs.length) es w.str)
      (s.store .strbuf 0 w.str) .strbuf 0 w.str.length fun i _ => s.readAddr_commitDecode ..
    rw [hlen, he, hbytes, s.bytes_store_same]

end Sys2Proof.Machine
namespace Sys2Proof.Machine

/-! ### Which state a command can write (R60 to R65, R69) -/

/-- The state no command writes: configuration, CMD, the argument registers, ILEN and PARAM, in an otherwise
fresh state. -/
def State.inputPart (s : State) : State :=
  { State.reset with
    params := s.params, cmd := s.cmd, chan := s.chan, opMaj := s.opMaj, opMin := s.opMin
    eChan := s.eChan, eLink := s.eLink, dSel := s.dSel, cksStart := s.cksStart, cksEnd := s.cksEnd
    iLen := s.iLen, param := s.param }

/-- The buffer a command writes, if any. -/
def writtenBuf : Instr → Option Buf
  | .fenv | .fenc => some .obuf
  | .pslice | .fldenc => some .pbuf
  | .flddec => some .strbuf
  | _ => none

theorem writtenBuf_ne_ibuf (i : Instr) : writtenBuf i ≠ some .ibuf := by
  cases i <;> decide

theorem writtenBuf_eq_obuf {i : Instr} (h : writtenBuf i = some .obuf) : i = .fenv ∨ i = .fenc := by
  revert h
  cases i <;> decide

theorem writtenBuf_eq_pbuf {i : Instr} (h : writtenBuf i = some .pbuf) : i = .pslice ∨ i = .fldenc := by
  revert h
  cases i <;> decide

theorem writtenBuf_eq_strbuf {i : Instr} (h : writtenBuf i = some .strbuf) : i = .flddec := by
  revert h
  cases i <;> decide

section
variable {s t : State} {i : Instr} (h : CommandOutcome s i t)
include h

theorem CommandOutcome.inputPart_eq : t.inputPart = s.inputPart := by
  cases h with
  | decoded k es str => simp [State.inputPart]
  | _ => rfl

theorem CommandOutcome.readAddr_eq {b : Buf} (hb : writtenBuf i ≠ some b) {a : Nat}
    (ha : b.holds a = true) : t.readAddr a = s.readAddr a := by
  cases h with
  | built _ frame hi _ hlen =>
    have hne : b ≠ .obuf := by
      rintro rfl
      rcases hi with rfl | rfl <;> exact hb rfl
    exact s.readAddr_store_of_holds hne (by rw [Nat.zero_add]; exact hlen) ha
  | payload _ bytes hi hlen =>
    have hne : b ≠ .pbuf := by
      rintro rfl
      rcases hi with rfl | rfl <;> exact hb rfl
    exact s.readAddr_store_of_holds hne (by rw [Nat.zero_add]; exact hlen) ha
  | decoded k es str _ _ hlen =>
    have hne : b ≠ .strbuf := by
      rintro rfl
      exact hb rfl
    rw [s.readAddr_commitDecode]
    exact s.readAddr_store_of_holds hne (by rw [Nat.zero_add]; exact hlen) ha
  | _ => rfl

theorem CommandOutcome.oLen_eq (hi : i ≠ .fenv ∧ i ≠ .fenc) : t.oLen = s.oLen := by
  cases h with
  | built _ _ hrow => exact absurd hrow (not_or.mpr hi)
  | decoded k es str => exact s.commitDecode_oLen k es str
  | _ => rfl

theorem CommandOutcome.pLen_eq (hi : i ≠ .pslice ∧ i ≠ .fldenc) : t.pLen = s.pLen := by
  cases h with
  | payload _ _ hrow => exact absurd hrow (not_or.mpr hi)
  | decoded k es str => exact s.commitDecode_pLen k es str
  | _ => rfl

theorem CommandOutcome.decode_eq (hi : i ≠ .flddec) :
    t.dRes = s.dRes ∧ t.strLen = s.strLen ∧ t.field = s.field := by
  cases h with
  | decoded => exact absurd rfl hi
  | _ => exact ⟨rfl, rfl, rfl⟩

theorem CommandOutcome.vStat_eq (hi : i ≠ .fval) : t.vStat = s.vStat := by
  cases h with
  | short | validated => exact absurd rfl hi
  | decoded k es str => exact s.commitDecode_vStat k es str
  | _ => rfl

theorem CommandOutcome.extraction_eq (hi : i ≠ .fext ∧ i ≠ .fval) :
    t.fHdr0 = s.fHdr0 ∧ t.fChan = s.fChan ∧ t.fHdr1 = s.fHdr1 ∧ t.fOpc = s.fOpc ∧
      t.fRes = s.fRes ∧ t.fTrl = s.fTrl := by
  cases h with
  | extracted => exact absurd rfl hi.1
  | short | validated => exact absurd rfl hi.2
  | decoded k es str => simp
  | _ => exact ⟨rfl, rfl, rfl, rfl, rfl, rfl⟩

theorem CommandOutcome.ckr_eq (hi : i ≠ .cksumIbuf ∧ i ≠ .cksumObuf ∧ i ≠ .cksumPbuf) :
    t.ckr = s.ckr := by
  cases h with
  | checksum _ _ hrow =>
    obtain ⟨hibuf, hobuf, hpbuf⟩ := hi
    rcases hrow with ⟨rfl, -⟩ | ⟨rfl, -⟩ | ⟨rfl, -⟩
    · exact absurd rfl hibuf
    · exact absurd rfl hobuf
    · exact absurd rfl hpbuf
  | decoded k es str => exact s.commitDecode_ckr k es str
  | _ => rfl

end

/-- Settles O58: each outcome of a command writes the results of its own rows alone. -/
theorem commandsWriteOnlyTheirResults : Obligations.CommandsWriteOnlyTheirResults := by
  intro i s t hi hexec
  have hout := exec_outcome i s t hi hexec
  have hin {α : Type} (f : State → α) := congrArg f hout.inputPart_eq
  refine ⟨⟨hin State.params, hin State.cmd, hin State.chan, hin State.opMaj, hin State.opMin,
      hin State.eChan, hin State.eLink, hin State.dSel, hin State.cksStart, hin State.cksEnd,
      hin State.iLen, hin State.param, fun a => hout.readAddr_eq (writtenBuf_ne_ibuf i)⟩,
    fun hv hc => ⟨hout.oLen_eq ⟨hv, hc⟩, fun a => hout.readAddr_eq fun hw => ?obuf⟩,
    fun hp hf => ⟨hout.pLen_eq ⟨hp, hf⟩, fun a => hout.readAddr_eq fun hw => ?pbuf⟩,
    fun hd => ?decode, hout.vStat_eq, fun hx hv => hout.extraction_eq ⟨hx, hv⟩,
    fun hib hob hpb => hout.ckr_eq ⟨hib, hob, hpb⟩⟩
  case obuf => exact (writtenBuf_eq_obuf hw).elim hv hc
  case pbuf => exact (writtenBuf_eq_pbuf hw).elim hp hf
  case decode =>
    obtain ⟨hres, hstr, hfield⟩ := hout.decode_eq hd
    exact ⟨hres, hstr, hfield, fun a => hout.readAddr_eq fun hw => hd (writtenBuf_eq_strbuf hw)⟩

/-! ### What a command's outcome does not depend on: ERR, ERRINFO and VSTAT (R69, R300) -/

/-- The state with other error registers and another validation word. -/
def State.withReports (s : State) (e : Byte) (info v : Word) : State :=
  { s with err := e, errInfo := info, vStat := v }

section
variable (s : State) (e : Byte) (info v : Word)

@[simp] theorem State.withReports_unwritten (rs : List ArgReg) :
    (s.withReports e info v).unwritten rs = s.unwritten rs := rfl
@[simp] theorem State.withReports_params : (s.withReports e info v).params = s.params := rfl
@[simp] theorem State.withReports_dSel : (s.withReports e info v).dSel = s.dSel := rfl
@[simp] theorem State.withReports_cksStart : (s.withReports e info v).cksStart = s.cksStart := rfl
@[simp] theorem State.withReports_cksEnd : (s.withReports e info v).cksEnd = s.cksEnd := rfl
@[simp] theorem State.withReports_iLen : (s.withReports e info v).iLen = s.iLen := rfl
@[simp] theorem State.withReports_pLen : (s.withReports e info v).pLen = s.pLen := rfl
@[simp] theorem State.withReports_memRead (b : Buf) (a n : Nat) :
    (s.withReports e info v).memRead b a n = s.memRead b a n := rfl
@[simp] theorem State.withReports_lengthOf (b : Buf) :
    (s.withReports e info v).lengthOf b = s.lengthOf b := by cases b <;> rfl


/-! #### The ends of a command -/

theorem State.raise_withReports (c : ErrorCode) (w : Word) :
    (s.withReports e info v).raise c w = (s.raise c w).setVStat v := rfl

theorem State.checksum_withReports (c : Byte) :
    (((s.withReports e info v).setCkr c).setFlag .ckrV).complete
      = ((s.setCkr c).setFlag .ckrV).complete.setVStat v := rfl

theorem State.emitFrame_withReports (frame : List Byte) :
    (s.withReports e info v).emitFrame frame = (s.emitFrame frame).setVStat v := rfl

theorem State.extract_withReports (n : Nat) :
    (((s.withReports e info v).extract n).setFlag .fxV).complete
      = ((s.extract n).setFlag .fxV).complete.setVStat v := rfl

theorem State.storePayload_withReports (bs : List Byte) (n : Half) :
    (((s.withReports e info v).store .pbuf 0 bs).setPLen n).complete
      = ((s.store .pbuf 0 bs).setPLen n).complete.setVStat v := rfl

theorem State.commitDecode_withReports (k : ResKind) (es : List FieldEntry) (str : List Byte) :
    (s.withReports e info v).commitDecode k es str = (s.commitDecode k es str).setVStat v := rfl

/-! #### The commands -/

theorem cksum_withReports (buf : Buf) :
    cksum buf (s.withReports e info v) = (cksum buf s).setVStat v := by
  unfold cksum
  dsimp only
  rw [s.withReports_unwritten, s.withReports_lengthOf, s.withReports_cksStart, s.withReports_cksEnd]
  repeat' split
  case h_2.isFalse.isTrue => exact s.checksum_withReports ..
  all_goals exact s.raise_withReports ..

theorem fenv_withReports : fenv (s.withReports e info v) = (fenv s).setVStat v := by
  unfold fenv
  dsimp only
  rw [s.withReports_unwritten, s.withReports_pLen]
  repeat' split
  case h_2.isFalse.isFalse => exact s.emitFrame_withReports ..
  all_goals exact s.raise_withReports ..

theorem fenc_withReports : fenc (s.withReports e info v) = (fenc s).setVStat v := by
  unfold fenc
  dsimp only
  rw [s.withReports_unwritten, s.withReports_pLen]
  repeat' split
  case h_2.isFalse.isFalse => exact s.emitFrame_withReports ..
  all_goals exact s.raise_withReports ..

theorem fext_withReports : fext (s.withReports e info v) = (fext s).setVStat v := by
  unfold fext
  dsimp only
  rw [s.withReports_iLen]
  repeat' split
  case isFalse.isFalse => exact s.extract_withReports ..
  all_goals exact s.raise_withReports ..

theorem pslice_withReports : pslice (s.withReports e info v) = (pslice s).setVStat v := by
  unfold pslice
  dsimp only
  rw [s.withReports_iLen, s.withReports_memRead]
  repeat' split
  case isFalse.isFalse.isTrue => exact s.storePayload_withReports ..
  all_goals exact s.raise_withReports ..

theorem State.encodeList_withReports (fs : List Field) : ∀ (k : Nat) (w : Walk),
    (s.withReports e info v).encodeList k fs w = s.encodeList k fs w := by
  induction fs with
  | nil => exact fun _ _ => rfl
  | cons f fs ih =>
    intro k w
    have hf : (s.withReports e info v).encodeField k f w = s.encodeField k f w := rfl
    simp only [State.encodeList, hf, ih]

theorem State.decodeList_withReports (fs : List Field) : ∀ (k : Nat) (w : Walk),
    (s.withReports e info v).decodeList k fs w = s.decodeList k fs w := by
  induction fs with
  | nil => exact fun _ _ => rfl
  | cons f fs ih =>
    intro k w
    have hf (x : Walk) : unpackElement (s.withReports e info v) f.tag k x = unpackElement s f.tag k x := rfl
    simp only [State.decodeList, hf, ih]

theorem fldenc_withReports : fldenc (s.withReports e info v) = (fldenc s).setVStat v := by
  simp only [fldenc, s.withReports_unwritten, s.withReports_params, s.withReports_dSel,
    s.encodeList_withReports]
  repeat' split
  case h_2.isTrue => exact s.storePayload_withReports ..
  all_goals exact s.raise_withReports ..

theorem State.decodeResponse_withReports (fs : List Field) :
    (s.withReports e info v).decodeResponse fs = (s.decodeResponse fs).setVStat v := by
  unfold State.decodeResponse
  rw [s.withReports_params, s.withReports_dSel, s.withReports_pLen, s.decodeList_withReports]
  split
  case h_1 => exact s.raise_withReports ..
  case h_2 =>
    split
    case h_1 => exact s.raise_withReports ..
    case h_2 =>
      dsimp only
      split
      · exact s.commitDecode_withReports ..
      · exact s.raise_withReports ..

theorem flddec_withReports : flddec (s.withReports e info v) = (flddec s).setVStat v := by
  unfold flddec
  dsimp only
  rw [s.withReports_unwritten, s.withReports_pLen, s.withReports_params, s.withReports_dSel]
  repeat' split
  case h_1.isTrue => exact s.commitDecode_withReports ..
  case h_2 => exact s.decodeResponse_withReports ..
  all_goals exact s.raise_withReports ..

/-- FVAL raises the same error, or writes VSTAT itself. -/
theorem fval_withReports :
    (∃ c w, fval s = s.raise c w ∧
      fval (s.withReports e info v) = (s.withReports e info v).raise c w) ∨
    ((fval s).err = 0 ∧ fval (s.withReports e info v) = fval s) := by
  unfold fval
  dsimp only
  rw [s.withReports_unwritten, s.withReports_iLen]
  repeat' split
  case h_2.isFalse.isTrue | h_2.isFalse.isFalse => exact .inr ⟨rfl, rfl⟩
  all_goals exact .inl ⟨_, _, rfl, rfl⟩

/-- Every other command does the same, and leaves VSTAT as it is given. -/
theorem exec_withReports {i : Instr} (hi : i.isCommand = true) (hv : i ≠ .fval) {t : State}
    (ht : exec i s = .next t) : exec i (s.withReports e info v) = .next (t.setVStat v) := by
  cases i
  case fval => exact absurd rfl hv
  all_goals
    obtain rfl := Host.Outcome.next.inj ht
    refine congrArg Host.Outcome.next ?_
  case cksumIbuf | cksumObuf | cksumPbuf => exact cksum_withReports ..
  case fenv => exact fenv_withReports ..
  case fenc => exact fenc_withReports ..
  case fext => exact fext_withReports ..
  case pslice => exact pslice_withReports ..
  case fldenc => exact fldenc_withReports ..
  case flddec => exact flddec_withReports ..
  all_goals nomatch hi

end

theorem State.setVStat_self (s : State) : s.setVStat s.vStat = s := rfl

theorem exec_of_other_error (s : State) {i : Instr} (hi : i.isCommand = true) (e : Byte) (info : Word) :
    exec i (s.withReports e info s.vStat) = exec i s := by
  obtain ⟨t, ht⟩ := exec_served i s
  by_cases hv : i = .fval
  · subst hv
    refine congrArg Host.Outcome.next ?_
    rcases fval_withReports s e info s.vStat with ⟨c, w, hr, hr'⟩ | ⟨-, he⟩
    · rw [hr, hr']
      rfl
    · exact he
  · have hkeep := (exec_outcome i s t hi ht).vStat_eq hv
    rw [exec_withReports s e info s.vStat hi hv ht, ht, ← hkeep, t.setVStat_self]

theorem exec_of_other_vStat {s t u : State} {i : Instr} (hi : i.isCommand = true) {v : Word}
    (ht : exec i s = .next t) (hu : exec i (s.withReports s.err s.errInfo v) = .next u) :
    { u with vStat := t.vStat } = t ∧ (i ≠ .fval → u.vStat = v) ∧
      (i = .fval → t.err = 0 → u = t) := by
  by_cases hv : i = .fval
  · subst hv
    obtain rfl : fval s = t := Host.Outcome.next.inj ht
    obtain rfl := Host.Outcome.next.inj hu
    rcases fval_withReports s s.err s.errInfo v with ⟨c, w, hr, hr'⟩ | ⟨-, he⟩
    · rw [hr, hr']
      exact ⟨rfl, fun h => absurd rfl h, fun _ h0 => absurd h0 (s.raise_err_ne_zero c w)⟩
    · rw [he]
      exact ⟨rfl, fun h => absurd rfl h, fun _ _ => rfl⟩
  · rw [exec_withReports s s.err s.errInfo v hi hv ht] at hu
    obtain rfl := Host.Outcome.next.inj hu
    exact ⟨rfl, fun _ => rfl, fun h => absurd h hv⟩

/-- Settles O59: the three registers are read by no command, so they come out as they went in or as the
command's own end writes them. -/
theorem commandIgnoresErrorAndVstat : Obligations.CommandIgnoresErrorAndVstat :=
  fun _ s hi => ⟨exec_of_other_error s hi, fun _ _ _ => exec_of_other_vStat hi⟩

end Sys2Proof.Machine
namespace Sys2Proof.Machine

/-! ### On which bytes an instruction depends (R322) -/

/-- The state with another memory and other launch bytes. -/
def State.withMemory (s : State) (m : List Host.Cell) (ep : Nat) : State := { s with mem := m, epoch := ep }

/-- The two states differ at most in bytes at or above the valid lengths. -/
structure State.Alike (s s' : State) : Prop where
  /-- All but the memory agrees. -/
  rest : s' = s.withMemory s'.mem s'.epoch
  /-- The bytes below the lengths agree. -/
  bytes : ∀ b k, k < s.lengthOf b → s'.byte b k = s.byte b k

theorem State.Alike.of_obligation {s s' : State} (hrest : { s' with mem := s.mem, epoch := s.epoch } = s)
    (hbytes : ∀ b k, k < s.lengthOf b → s'.byte b k = s.byte b k) : s.Alike s' where
  rest := by
    have h := congrArg (State.withMemory · s'.mem s'.epoch) hrest
    exact h
  bytes := hbytes

theorem State.Alike.frame {s s' : State} (h : s.Alike s') :
    { s' with mem := s.mem, epoch := s.epoch } = s := by
  have h := congrArg (State.withMemory · s.mem s.epoch) h.rest
  exact h

/-- An update commutes with a change of the memory: it neither reads nor writes it. -/
def BlindToMemory (f : State → State) : Prop :=
  ∀ u m ep, f (u.withMemory m ep) = (f u).withMemory m ep

theorem BlindToMemory.mem_eq {f : State → State} (hf : BlindToMemory f) (u : State) :
    (f u).mem = u.mem := by
  have h := congrArg State.mem (hf u u.mem u.epoch)
  exact h

theorem BlindToMemory.epoch_eq {f : State → State} (hf : BlindToMemory f) (u : State) :
    (f u).epoch = u.epoch := by
  have h := congrArg State.epoch (hf u u.mem u.epoch)
  exact h

theorem BlindToMemory.readAddr_eq {f : State → State} (hf : BlindToMemory f) (u : State) (a : Nat) :
    (f u).readAddr a = u.readAddr a := by
  rw [State.readAddr, State.readAddr, hf.mem_eq, hf.epoch_eq]

theorem BlindToMemory.rest {f : State → State} (hf : BlindToMemory f) {s s' : State}
    (h : s' = s.withMemory s'.mem s'.epoch) : f s' = (f s).withMemory (f s').mem (f s').epoch := by
  rw [hf.mem_eq, hf.epoch_eq, ← hf, ← h]

section
variable {s s' : State} (h : s.Alike s') {f : State → State} (hf : BlindToMemory f)
include h hf

/-- Such an update keeps the agreement if it keeps the lengths. -/
theorem State.Alike.map (hlen : ∀ b, (f s).lengthOf b = s.lengthOf b) : (f s).Alike (f s') where
  rest := hf.rest h.rest
  bytes b k hk := by
    rw [State.byte, State.byte, hf.readAddr_eq, hf.readAddr_eq]
    exact h.bytes b k (hlen b ▸ hk)

/-- Storing the same bytes as a buffer's whole content keeps the agreement. -/
theorem State.Alike.store {b : Buf} {bs : List Byte} (hlen : ∀ c,
    (f (s.store b 0 bs)).lengthOf c = if c = b then bs.length else s.lengthOf c) :
    (f (s.store b 0 bs)).Alike (f (s'.store b 0 bs)) where
  rest := by
    have hstored := congrArg (State.store · b 0 bs) h.rest
    exact hf.rest hstored
  bytes c k hk := by
    rw [State.byte, State.byte, hf.readAddr_eq, hf.readAddr_eq, State.readAddr_store, State.readAddr_store]
    rw [hlen] at hk
    split
    · rfl
    · split at hk
      case isTrue hout hc =>
        subst hc
        omega
      case isFalse => exact h.bytes c k hk

end

/-! #### What the agreement gives a command to read -/

section
variable {s s' : State} (h : s.Alike s')
include h

theorem State.Alike.get {α : Type} (f : State → α) (hf : ∀ m ep, f (s.withMemory m ep) = f s) :
    f s' = f s := by
  rw [h.rest]
  exact hf ..

theorem State.Alike.unwritten (rs : List ArgReg) : s'.unwritten rs = s.unwritten rs :=
  h.get (State.unwritten · rs) fun _ _ => rfl

theorem State.Alike.lengthOf (b : Buf) : s'.lengthOf b = s.lengthOf b :=
  h.get (State.lengthOf · b) fun _ _ => by cases b <;> rfl

theorem State.Alike.bytes_eq {b : Buf} {a n : Nat} (hn : a + n ≤ s.lengthOf b) :
    s'.bytes b a n = s.bytes b a n :=
  State.bytes_congr s' s b a n fun i hi => h.bytes b (a + i) (by omega)

theorem State.Alike.memRead_eq {b : Buf} {a n : Nat} (hn : a + n ≤ s.lengthOf b) :
    s'.memRead b a n = s.memRead b a n := by
  rw [State.memRead, h.bytes_eq hn, State.memRead]

theorem State.Alike.crcRange_eq {buf : Buf} {a b : Nat} (hb : b < s.lengthOf buf) :
    s'.crcRange buf a b = s.crcRange buf a b :=
  State.crcRange_congr s' s buf a b fun i _ hi => h.bytes buf i (by omega)

/-! #### The ends of a command -/

theorem State.Alike.raise (e : ErrorCode) (info : Word) : (s.raise e info).Alike (s'.raise e info) :=
  h.map (f := (State.raise · e info)) (fun _ _ _ => rfl) fun b => by cases b <;> rfl

theorem State.Alike.storePayload {bs : List Byte} (hlen : bs.length ≤ 255) :
    ((s.store .pbuf 0 bs).setPLen (BitVec.ofNat 16 bs.length)).complete.Alike
      ((s'.store .pbuf 0 bs).setPLen (BitVec.ofNat 16 bs.length)).complete := by
  refine h.store (f := fun u => (u.setPLen (BitVec.ofNat 16 bs.length)).complete)
    (fun _ _ _ => rfl) fun c => ?_
  cases c with
  | pbuf => exact Nat.mod_eq_of_lt (by omega)
  | ibuf | obuf | strbuf => rfl

theorem State.Alike.emitFrame {frame : List Byte} (hlen : frame.length ≤ 259) :
    (s.emitFrame frame).Alike (s'.emitFrame frame) := by
  refine h.store (f := fun u => (u.setOLen frame.length).complete) (fun _ _ _ => rfl) fun c => ?_
  cases c with
  | obuf => exact Nat.mod_eq_of_lt (by omega)
  | ibuf | pbuf | strbuf => rfl

theorem State.Alike.storeFields (es : List FieldEntry) : (s.storeFields es).Alike (s'.storeFields es) :=
  h.map (f := (State.storeFields · es)) (fun _ _ _ => rfl) fun b => by cases b <;> rfl

theorem State.Alike.commitDecode (k : ResKind) (es : List FieldEntry) {str : List Byte}
    (hlen : str.length ≤ 238) : (s.commitDecode k es str).Alike (s'.commitDecode k es str) := by
  refine (h.storeFields es).store
    (f := fun u => ((u.setResult (dresWord k es.length) str.length).setFlag .dV).complete)
    (fun _ _ _ => rfl) fun c => ?_
  cases c with
  | strbuf => exact Nat.mod_eq_of_lt (by omega)
  | ibuf | pbuf | obuf => rfl

end

/-! #### CKSUM and building frames -/

section
variable {s s' : State} (h : s.Alike s')
include h

theorem State.Alike.cksum (buf : Buf) : (cksum buf s).Alike (cksum buf s') := by
  unfold Machine.cksum
  dsimp only
  rw [h.unwritten, h.lengthOf, h.get State.cksStart fun _ _ => rfl, h.get State.cksEnd fun _ _ => rfl]
  split
  · exact h.raise ..
  split
  · exact h.raise ..
  split
  case isTrue hr =>
    rw [h.crcRange_eq hr.2]
    exact h.map (f := fun u => ((u.setCkr (s.crcRange ..)).setFlag .ckrV).complete) (fun _ _ _ => rfl)
      fun b => by cases b <;> rfl
  case isFalse => exact h.raise ..

theorem State.Alike.fenv : (fenv s).Alike (fenv s') := by
  have hbody : s'.bytes .pbuf 0 s.pLen.toNat = s.bytes .pbuf 0 s.pLen.toNat :=
    h.bytes_eq (Nat.zero_add _).le
  unfold Machine.fenv
  dsimp only
  rw [h.unwritten, h.get State.pLen fun _ _ => rfl, h.get State.eChan fun _ _ => rfl,
    h.get State.eLink fun _ _ => rfl, hbody]
  split
  · exact h.raise ..
  split
  · exact h.raise ..
  split
  · exact h.raise ..
  · refine h.emitFrame ?_
    rw [length_buildFrame, s.length_bytes]
    omega

theorem State.Alike.fenc : (fenc s).Alike (fenc s') := by
  have hbody : s'.bytes .pbuf 0 s.pLen.toNat = s.bytes .pbuf 0 s.pLen.toNat :=
    h.bytes_eq (Nat.zero_add _).le
  unfold Machine.fenc
  dsimp only
  rw [h.unwritten, h.get State.pLen fun _ _ => rfl, h.get State.chan fun _ _ => rfl,
    h.get State.opMaj fun _ _ => rfl, h.get State.opMin fun _ _ => rfl, hbody]
  split
  · exact h.raise ..
  split
  · exact h.raise ..
  split
  · exact h.raise ..
  · refine h.emitFrame ?_
    rw [length_buildFrame, List.length_append, length_requestHeader, s.length_bytes]
    omega

/-! #### Parsing -/

theorem State.Alike.ibuf {i : Nat} (hi : i < s.iLen.toNat) : s'.byte .ibuf i = s.byte .ibuf i :=
  h.bytes .ibuf i hi

/-- The state with the extraction registers of another. -/
def State.withExtractionOf (u x : State) : State :=
  { u with
    fHdr0 := x.fHdr0, fChan := x.fChan, fHdr1 := x.fHdr1, fOpc := x.fOpc, fRes := x.fRes
    fTrl := x.fTrl }

/-- Both states extract the same registers. -/
theorem State.Alike.extract_eq (hlo : 21 ≤ s.iLen.toNat) :
    s'.extract s.iLen.toNat = s'.withExtractionOf (s.extract s.iLen.toNat) := by
  have hchan : s'.memRead .ibuf 4 4 = s.memRead .ibuf 4 4 := h.memRead_eq (b := .ibuf) (by
    show 4 + 4 ≤ s.iLen.toNat
    omega)
  unfold State.extract State.withExtractionOf
  dsimp only
  rw [hchan, h.ibuf (i := 0) (by omega), h.ibuf (i := 1) (by omega), h.ibuf (i := 2) (by omega),
    h.ibuf (i := 3) (by omega), h.ibuf (i := 8) (by omega), h.ibuf (i := 9) (by omega),
    h.ibuf (i := 10) (by omega), h.ibuf (i := 11) (by omega), h.ibuf (i := 12) (by omega),
    h.ibuf (i := 13) (by omega), h.ibuf (i := 14) (by omega), h.ibuf (i := 15) (by omega),
    h.ibuf (i := 16) (by omega), h.ibuf (i := 17) (by omega), h.ibuf (i := 18) (by omega),
    h.ibuf (i := s.iLen.toNat - 1) (by omega), h.ibuf (i := s.iLen.toNat - 2) (by omega)]

/-- Both states' checks have the same results. -/
theorem State.Alike.frameChecks_eq (hlo : 21 ≤ s.iLen.toNat) :
    s'.frameChecks s.iLen.toNat = s.frameChecks s.iLen.toNat := by
  have hlen : s.lengthOf .ibuf = s.iLen.toNat := rfl
  unfold State.frameChecks
  dsimp only
  rw [h.memRead_eq (b := .ibuf) (a := 4) (n := 4) (by omega),
    h.memRead_eq (b := .ibuf) (a := 12) (n := 2) (by omega),
    h.memRead_eq (b := .ibuf) (a := 17) (n := 2) (by omega),
    h.crcRange_eq (buf := .ibuf) (a := 1) (b := 8) (by omega),
    h.crcRange_eq (buf := .ibuf) (a := 1) (b := s.iLen.toNat - 3) (by omega),
    h.get State.chan fun _ _ => rfl, h.get State.opMaj fun _ _ => rfl, h.get State.opMin fun _ _ => rfl,
    h.ibuf (i := 0) (by omega), h.ibuf (i := 1) (by omega), h.ibuf (i := 2) (by omega),
    h.ibuf (i := 3) (by omega), h.ibuf (i := 9) (by omega), h.ibuf (i := 10) (by omega),
    h.ibuf (i := 11) (by omega), h.ibuf (i := 14) (by omega), h.ibuf (i := 15) (by omega),
    h.ibuf (i := 16) (by omega), h.ibuf (i := s.iLen.toNat - 1) (by omega),
    h.ibuf (i := s.iLen.toNat - 2) (by omega)]

theorem State.Alike.fext : (fext s).Alike (fext s') := by
  unfold Machine.fext
  dsimp only
  rw [h.get State.iLen fun _ _ => rfl]
  split
  · exact h.raise ..
  split
  · exact h.raise ..
  · rw [h.extract_eq (by omega)]
    exact h.map (f := fun u => ((u.withExtractionOf (s.extract s.iLen.toNat)).setFlag .fxV).complete)
      (fun _ _ _ => rfl) fun b => by cases b <;> rfl

theorem State.Alike.fval : (fval s).Alike (fval s') := by
  unfold Machine.fval
  dsimp only
  rw [h.unwritten, h.get State.iLen fun _ _ => rfl]
  split
  · exact h.raise ..
  split
  · exact h.raise ..
  split
  · exact h.map (f := fun u => (((u.setVStat vstatShort).setFlag .vV).clearFlag .fxV).complete)
      (fun _ _ _ => rfl) fun b => by cases b <;> rfl
  · rw [h.extract_eq (by omega), h.frameChecks_eq (by omega)]
    exact h.map (f := fun u => ((((u.withExtractionOf (s.extract s.iLen.toNat)).setFlag .fxV).setVStat
      (s.frameChecks s.iLen.toNat).word).setFlag .vV).complete)
      (fun _ _ _ => rfl) fun b => by cases b <;> rfl

theorem State.Alike.pslice : (pslice s).Alike (pslice s') := by
  have hlen : s.lengthOf .ibuf = s.iLen.toNat := rfl
  unfold Machine.pslice
  dsimp only
  rw [h.get State.iLen fun _ _ => rfl]
  split
  · exact h.raise ..
  split
  · exact h.raise ..
  rw [h.memRead_eq (b := .ibuf) (a := 17) (n := 2) (by omega)]
  split
  case isTrue hfit =>
    rw [h.bytes_eq (b := .ibuf) (by omega)]
    have hstore := h.storePayload (bs := s.bytes .ibuf 19 (s.memRead .ibuf 17 2))
      (by rw [s.length_bytes]; omega)
    rwa [s.length_bytes] at hstore
  case isFalse => exact h.raise ..

/-! #### The field walks and the element operations -/

theorem State.Alike.encodeList_eq (fs : List Field) : ∀ (k : Nat) (w : Walk),
    s'.encodeList k fs w = s.encodeList k fs w := by
  induction fs with
  | nil => exact fun _ _ => rfl
  | cons f fs ih =>
    intro k w
    have hf : s'.encodeField k f w = s.encodeField k f w :=
      h.get (State.encodeField · k f w) fun _ _ => rfl
    simp only [State.encodeList, hf, ih]

theorem State.Alike.unpackInt_eq (n : Nat) (w : Walk) : s'.unpackInt n w = s.unpackInt n w := by
  unfold State.unpackInt
  dsimp only
  rw [h.get State.pLen fun _ _ => rfl]
  split
  case isTrue hfit => rw [h.memRead_eq (b := .pbuf) hfit]
  case isFalse => rfl

theorem State.Alike.unpackBool_eq (w : Walk) : unpackBool s' w = unpackBool s w := by
  unfold unpackBool
  dsimp only
  rw [h.get State.pLen fun _ _ => rfl]
  split
  case isTrue hfit => rw [h.bytes .pbuf w.off hfit]
  case isFalse => rfl

theorem State.Alike.unpackAscii_eq (w : Walk) : unpackAscii s' w = unpackAscii s w := by
  have hbytes : s'.bytes .pbuf w.off (s.pLen.toNat - w.off) = s.bytes .pbuf w.off (s.pLen.toNat - w.off) := by
    by_cases hoff : w.off ≤ s.pLen.toNat
    · exact h.bytes_eq (b := .pbuf) (Nat.add_sub_of_le hoff).le
    · rw [Nat.sub_eq_zero_of_le (by omega)]
      rfl
  unfold unpackAscii
  dsimp only
  rw [h.get State.pLen fun _ _ => rfl, hbytes]

theorem State.Alike.unpackElement_eq (t : Tag) (k : Nat) (w : Walk) :
    unpackElement s' t k w = unpackElement s t k w := by
  simp only [unpackElement, unpackU8, unpackU16, unpackU32, unpackUnixtime, h.unpackInt_eq,
    h.unpackBool_eq, h.unpackAscii_eq]

theorem State.Alike.decodeList_eq (fs : List Field) : ∀ (k : Nat) (w : Walk),
    s'.decodeList k fs w = s.decodeList k fs w := by
  induction fs with
  | nil => exact fun _ _ => rfl
  | cons f fs ih =>
    intro k w
    simp only [State.decodeList, h.unpackElement_eq, ih]

theorem State.Alike.fldenc : (fldenc s).Alike (fldenc s') := by
  simp only [Machine.fldenc, h.unwritten, h.get State.params fun _ _ => rfl,
    h.get State.dSel fun _ _ => rfl, h.encodeList_eq]
  split
  · exact h.raise ..
  split
  · exact h.raise ..
  split
  · exact h.raise ..
  split
  case isTrue hfit => exact h.storePayload hfit
  case isFalse => exact h.raise ..

theorem State.Alike.decodeResponse (fs : List Field) :
    (s.decodeResponse fs).Alike (s'.decodeResponse fs) := by
  unfold State.decodeResponse
  rw [h.get State.params fun _ _ => rfl, h.get State.dSel fun _ _ => rfl,
    h.get State.pLen fun _ _ => rfl, h.decodeList_eq]
  split
  case h_1 => exact h.raise ..
  case h_2 hs =>
    split
    case h_1 => exact h.raise ..
    case h_2 w es hw =>
      obtain ⟨-, htags, -⟩ := (staticCheck_eq_none _ _).mp hs
      obtain ⟨-, -, hstr⟩ :=
        s.decodeList_ok fs 0 _ w es (fun f hf => (htags f hf).1) (by simp [Walk.start]) hw
      dsimp only
      split
      · exact h.commitDecode _ _ hstr
      · exact h.raise ..

theorem State.Alike.flddec : (flddec s).Alike (flddec s') := by
  unfold Machine.flddec
  dsimp only
  rw [h.unwritten, h.get State.pLen fun _ _ => rfl, h.get State.params fun _ _ => rfl,
    h.get State.dSel fun _ _ => rfl]
  split
  · exact h.raise ..
  split
  · exact h.raise ..
  split
  · exact h.raise ..
  split
  · split
    · exact h.commitDecode _ _ (Nat.zero_le _)
    · exact h.raise ..
  · exact h.decodeResponse _

/-- An element operation of the same outcome. -/
theorem State.Alike.runElement (r : Except Raise Walk) : (s.runElement r).Alike (s'.runElement r) := by
  cases r with
  | ok w => exact h.map (f := fun u => { u with walk := w }) (fun _ _ _ => rfl) fun b => by cases b <;> rfl
  | error r => exact h.raise ..

theorem State.Alike.runUnpack (t : Tag) :
    (s.runElement (unpackElement s t 0 s.walk)).Alike (s'.runElement (unpackElement s' t 0 s'.walk)) := by
  rw [h.unpackElement_eq, h.get State.walk fun _ _ => rfl]
  exact h.runElement _

theorem State.Alike.runPack (t : Tag) :
    (s.runElement (packElement t 0 s.walk)).Alike (s'.runElement (packElement t 0 s'.walk)) := by
  rw [h.get State.walk fun _ _ => rfl]
  exact h.runElement _

/-- Every instruction keeps the agreement. -/
theorem State.Alike.exec {i : Instr} {t t' : State} (ht : exec i s = .next t) (ht' : exec i s' = .next t') :
    t.Alike t' := by
  cases i <;> obtain rfl := Host.Outcome.next.inj ht <;> obtain rfl := Host.Outcome.next.inj ht'
  case cksumIbuf | cksumObuf | cksumPbuf => exact h.cksum _
  case fenv => exact h.fenv
  case fenc => exact h.fenc
  case fext => exact h.fext
  case fval => exact h.fval
  case pslice => exact h.pslice
  case fldenc => exact h.fldenc
  case flddec => exact h.flddec
  case packU8 => exact h.runPack 0
  case packU16 => exact h.runPack 1
  case packU32 => exact h.runPack 2
  case packUnixtime => exact h.runPack 5
  case unpackU8 => exact h.runUnpack 0
  case unpackU16 => exact h.runUnpack 1
  case unpackU32 => exact h.runUnpack 2
  case unpackBool => exact h.runUnpack 3
  case unpackAscii => exact h.runUnpack 4
  case unpackUnixtime => exact h.runUnpack 5

end

/-- Settles O60: both states read the same values, so they end alike. -/
theorem onlyValidBytesMatter : Obligations.OnlyValidBytesMatter := by
  intro i s s' t t' hrest hbytes ht ht'
  have hend := (State.Alike.of_obligation hrest hbytes).exec ht ht'
  exact ⟨hend.frame, hend.bytes⟩

end Sys2Proof.Machine
